-- ==== Sys2Proof/Word.lean ====
section
/-! DEFINITION. The word types of jpeg_xr_entropy_decoder: bytes of host memory, 32-bit registers (REG_W, ADDR_W of
00_scope.md R9) and the fixed sizes of rule R9. -/

namespace Sys2Proof

/-- One byte of host memory (20_memory.md R80). -/
abbrev Byte := BitVec 8

/-- One register, `REG_W = 32` bits (00_scope.md R9). -/
abbrev Word := BitVec 32

/-- The number of host-memory addresses, `2^ADDR_W` with `ADDR_W = 32` (20_memory.md R80). -/
def addrSpace : Nat := 4294967296

/-- `MAX_READ_BITS` (00_scope.md R9, 40_bitstream_reader.md R141). -/
def maxReadBits : Nat := 32

/-- `MB_SIZE` (00_scope.md R9, 45_macroblock_predictor.md R273). -/
def mbSize : Nat := 16

/-- `MAX_DIM = 2^31 - 1` (00_scope.md R9, 41_container_header_parser.md R174). -/
def maxDim : Nat := 2147483647

/-- `ID_VALUE`, the constant of the ID register (10_state.md R32). -/
def idValue : Word := 0x4A585244#32

end Sys2Proof
end

