-- ==== Sys2Proof/Machine/Descriptor.lean ====
section
/-! DEFINITION. Pixel format descriptors (42_pixel_format_registry.md R201-R203) and the laws every one of the registry
satisfies (R206): a row that breaks one is refused (60_exceptions.md R362). -/

namespace Sys2Proof

/-- A pixel format GUID: 16 bytes in the order the container stores them (30_encoding.md R111). -/
abbrev Guid := Vector Byte 16

/-- Colour-format tags (42_pixel_format_registry.md R202). The reserved values 9 to 15 have no constructor. -/
inductive ColorTag where
  | yOnly | yuv420 | yuv422 | yuv444 | cmyk | cmykDirect | nComponent | rgb | rgbe
deriving DecidableEq, Repr, Inhabited

/-- Bit-depth tags (42_pixel_format_registry.md R203). The reserved values 5 and 11 to 14 have no constructor. -/
inductive DepthTag where
  | white1 | bd8 | bd16 | bd16S | bd16F | bd32S | bd32F | bd5 | bd10 | bd565 | black1
deriving DecidableEq, Repr, Inhabited

/-- A pixel format descriptor (42_pixel_format_registry.md R201). -/
structure Descriptor where
  channels : Word
  color : ColorTag
  depth : DepthTag
  bpp : Word
  hasAlpha : Bool
  premultipliedAlpha : Bool
  channelOrderReversed : Bool
deriving DecidableEq, Repr, Inhabited

namespace Machine

/-- How a bit-depth tag lays its samples out (42_pixel_format_registry.md R203). -/
inductive SampleKind where
  /-- A sample of `bytes` whole bytes. -/
  | aligned (bytes : Nat)
  /-- A field of one packed word. -/
  | packed
  /-- One bit per pixel. -/
  | bit
deriving DecidableEq, Repr

/-- The layout kind of a bit-depth tag (42_pixel_format_registry.md R203, 46_pixel_format_converter.md R293-R295). -/
def sampleKind : DepthTag → SampleKind
  | .bd8 => .aligned 1
  | .bd16 | .bd16S | .bd16F => .aligned 2
  | .bd32S | .bd32F => .aligned 4
  | .bd5 | .bd10 | .bd565 => .packed
  | .white1 | .black1 => .bit

/-- The bits of channel `k`'s sample (42_pixel_format_registry.md R203; 5, 6, 5 for BD565: 46 R294). -/
def sampleBits (d : DepthTag) (k : Nat) : Nat :=
  match d with
  | .white1 | .black1 => 1
  | .bd8 => 8
  | .bd16 | .bd16S | .bd16F => 16
  | .bd32S | .bd32F => 32
  | .bd5 => 5
  | .bd10 => 10
  | .bd565 => if k = 1 then 6 else 5

/-- Laws (4), (5) and (6) of 42_pixel_format_registry.md R206: what the bit depth asks of `bpp` and `channels`. -/
def depthLaw (d : Descriptor) : Bool :=
  match d.depth with
  | .bd8 | .bd16 | .bd16S | .bd16F | .bd32S | .bd32F =>
    decide (d.bpp.toNat % 8 = 0) && decide (d.bpp.toNat ≥ d.channels.toNat * sampleBits d.depth 0)
  | .white1 | .black1 => d.channels == 1 && d.bpp == 1
  | .bd5 => d.bpp == 16 && d.channels == 3
  | .bd10 => d.bpp == 32 && d.channels == 3
  | .bd565 => d.bpp == 16 && d.channels == 3

/-- The laws of 42_pixel_format_registry.md R206 on one descriptor. -/
def descriptorOk (d : Descriptor) : Bool :=
  decide (d.channels.toNat ≥ 1) && decide (d.bpp.toNat ≥ 1) && (!d.premultipliedAlpha || d.hasAlpha)
    && (!d.hasAlpha || decide (d.channels.toNat ≥ 2)) && depthLaw d

end Machine

/-- A descriptor that keeps the laws of 42_pixel_format_registry.md R206: the only kind a configuration's registry can
hold, since a model refuses any other (60_exceptions.md R362; log 6). -/
abbrev LawfulDescriptor := { d : Descriptor // Machine.descriptorOk d = true }

end Sys2Proof
end

