-- ==== Sys2Proof/Config.lean ====
section
/-! DEFINITION. What is fixed for one block and is not state (00_scope.md R9, R15, R19): the records the parameters
speak of, and `Config`, one field for each parameter that R9 leaves OPEN. The chip's own configuration is the opaque
`Config.chip`: nothing can be proved of its fields, so a theorem about the chip holds for every value of them. The
laws that R145, R170-R173, R200-R206, R220-R226, R250, R276 and R333 put on the parameters are kept by the functions
of Machine/ that read these fields (log 6), so a configuration that breaks one cannot be written. -/

namespace Sys2Proof

/-! ## Records of the parameters -/

/-- A declared extent of coded data: a byte range of the source (41_container_header_parser.md R173). -/
structure Extent where
  offset : Nat
  length : Nat
deriving DecidableEq, Repr, Inhabited

/-- The tile grid of the header: the column and row boundaries between tiles, in macroblock units
(10_state.md R44, 45_macroblock_predictor.md R273). -/
structure TileGrid where
  cols : List Nat
  rows : List Nat
deriving DecidableEq, Repr, Inhabited

/-- The parsed header `P` of 41_container_header_parser.md R170: the fields of 10_state.md R44 but for `hdr.fmt`.
`orientation`, `bitdepthClass` and `rest` are opaque to every rule. -/
structure Parsed where
  width : Nat
  height : Nat
  guid : Guid
  tiles : TileGrid
  orientation : Nat
  bitdepthClass : Nat
  extents : List Extent
  codedOffset : Word
  rest : List Int
deriving DecidableEq, Repr, Inhabited

/-- The stored header `hdr` (10_state.md R44): `P` with its pixel format descriptor, looked up once at OPEN. -/
structure Header extends Parsed where
  fmt : Descriptor
deriving DecidableEq, Repr, Inhabited

/-- A directory entry of the container (41_container_header_parser.md R172). -/
structure DirEntry where
  tag : Nat
  type : Nat
  count : Nat
  valueOrOffset : Nat
deriving DecidableEq, Repr, Inhabited

/-- The ways a parse fails (41_container_header_parser.md R170). -/
inductive ParseError where
  | invalidFormat | unsupportedFeature | unexpectedEnd
deriving DecidableEq, Repr, Inhabited

/-- The ways a decode fails (45_macroblock_predictor.md R276). -/
inductive DecodeError where
  | corruptStream | unexpectedEnd | unsupportedFeature
deriving DecidableEq, Repr, Inhabited

/-- A macroblock of the grid, by column `i` and row `j` (45_macroblock_predictor.md R273). -/
structure MB where
  col : Nat
  row : Nat
deriving DecidableEq, Repr, Inhabited

/-- A tile: the macroblocks with `c0 <= i < c1` and `r0 <= j < r1` (45_macroblock_predictor.md R273). -/
structure Tile where
  c0 : Nat
  c1 : Nat
  r0 : Nat
  r1 : Nat
deriving DecidableEq, Repr, Inhabited

/-- A rectangle in pixels, once `ValidRect` holds of it (47_session_commands.md R331). -/
structure Rect where
  x : Nat
  y : Nat
  w : Nat
  h : Nat
deriving DecidableEq, Repr, Inhabited

/-- An image or a region of one: column, row and channel to the sample's bits (45_macroblock_predictor.md R276). -/
abbrev Image := Nat → Nat → Nat → Nat

/-! ## Variable-length codes and the entropy decoder's shape -/

/-- No codeword of the list is a prefix of another one (40_bitstream_reader.md R145). -/
def prefixFree : List (List Bool × Nat) → Bool
  | [] => true
  | e :: es => es.all (fun f => !e.1.isPrefixOf f.1 && !f.1.isPrefixOf e.1) && prefixFree es

/-- What 40_bitstream_reader.md R145 asks of a code: non-empty, every codeword at least one bit long, prefix-free. -/
def VlcCode.ok (l : List (List Bool × Nat)) : Bool :=
  !l.isEmpty && l.all (fun e => !e.1.isEmpty) && prefixFree l

/-- A code of 40_bitstream_reader.md R145: pairs of a codeword, first bit first, and a symbol. -/
abbrev VlcCode := { l : List (List Bool × Nat) // VlcCode.ok l = true }

/-- The failures of the entropy model's own: a decoded value it rules out (43_entropy_decoder.md R223), or a feature
found only during the decode (60_exceptions.md R360, code 2). -/
inductive RuledOut where
  | corrupt | unsupported
deriving DecidableEq, Repr, Inhabited

/-- The decode of one macroblock by an entropy model, as the reads it makes (43_entropy_decoder.md R220). A model
reads the stream only through the bounded primitives and goes on from what they return, so it is a tree whose inner
nodes are reads and whose leaves are the coefficients of each plane with the next adaptation context. -/
inductive DecodeProg where
  | done (coeffs : List (List Int)) (ctx : List Int)
  | ruledOut (e : RuledOut)
  | readBits (n : Fin 33) (k : Nat → DecodeProg)
  | readVLC (code : VlcCode) (k : Nat → DecodeProg)
deriving Inhabited

/-- Where a tile's coded data starts (43_entropy_decoder.md R226): at the byte offset that an index table of the coded
data gives, reached with `Seek`, or where the previous tile ended. -/
inductive TileEntry where
  | indexTable (off : Nat)
  | previousEnd
deriving DecidableEq, Repr, Inhabited

/-- What the entropy decoder hands on for one macroblock: its coefficients, plane by plane, and the context it left
(43_entropy_decoder.md R220). The quantisation steps and the prediction mode are selected from it (R250, R271). -/
structure MBCode where
  mb : MB
  coeffs : List (List Int)
  ctx : List Int
deriving DecidableEq, Repr, Inhabited

/-- One reconstructed macroblock: its dequantised coefficients and its final values, plane by plane
(45_macroblock_predictor.md R277). -/
structure Recon where
  mb : MB
  dequantised : List (List Int)
  planes : List (List Int)
deriving DecidableEq, Repr, Inhabited

/-- The reconstructed values of the left and above neighbours, absent outside the image or the tile
(45_macroblock_predictor.md R270). -/
structure Neighbours where
  left : Option (List Int)
  above : Option (List Int)
deriving DecidableEq, Repr, Inhabited

/-! ## The configuration -/

/-- The parameters of 00_scope.md R9 that are OPEN, with the parts the rules of each give it. -/
structure Config where
  /-- `REG_BASE`, aligned to 0x100 (R9): its upper 24 bits. -/
  regBaseHigh : BitVec 24
  /-- `N_INSTANCES` less one: at least one instance (R9, R373). -/
  otherInstances : Nat
  /-- `JXR_PROFILE` (R2, R9), read by the parser to tell what it does not implement. -/
  profile : Nat
  /-- The magic signature of `ParseContainer` (41 R171), at least one byte long (47 R326, corner case 3). -/
  magicHead : Byte
  magicTail : List Byte
  /-- The byte ranges the directories of the container take up (41 R172). -/
  directoryRanges : List Byte → List Extent
  /-- The directory entries, read generically: whatever their tags, reading them does not fail (41 R172). -/
  readDirectory : List Byte → List DirEntry
  /-- The range of the source an entry's value-or-offset points at, if it points at one (41 R172). -/
  entryRange : DirEntry → Option Extent
  /-- Which of the two codes an entry or directory outside the source gives (41 R172). -/
  outsideIsEnd : List Byte → Bool
  /-- The tags the parser recognises (41 R172). -/
  knownTag : Nat → Bool
  /-- Where the coded image and its separate planes lie, from the recognised entries (41 R173). -/
  codedRanges : List DirEntry → List Extent
  /-- The extraction of the header's fields from the recognised entries, each with the bytes it points at, and from the
  bytes of the coded image and its separate planes (41 R173). -/
  extract : Nat → List (DirEntry × List Byte) → List (List Byte) → Except ParseError Parsed
  /-- The GUID of the row the source fixes, and what the source does not give of that row (42 R205). -/
  scenarioGuid : Guid
  scenarioColor : ColorTag
  scenarioPremultiplied : Bool
  scenarioReversed : Bool
  /-- The other rows of `Registry` (42 R200), each lawful (42 R206). -/
  registryRow : Guid → Option LawfulDescriptor
  /-- `NumPlanes` and the shape (number of coefficients) of each plane of a macroblock (43 R220). -/
  numPlanes : Header → Nat
  planeShape : Header → Nat → Nat
  /-- `InitCtx`, `TileStart` and `DecodeMB` of `EntropyModel` (43 R220). `TileStart` decides which of the two entries of
  43 R226 a tile has; for the first tile, which has no previous one, `dataStart` is where what precedes it ended, an open
  bit position (log 30). -/
  initCtx : Header → Tile → List Int
  tileStart : List Byte → Header → Tile → TileEntry
  dataStart : List Byte → Header → Nat
  decodeMB : Header → List Int → Nat → MB → DecodeProg
  /-- The quantisation steps of a macroblock and plane, selected by the header and the coded data, and `Dequant`
  (44 R250). -/
  quantSteps : List Byte → Header → MBCode → Nat → List Int
  dequant : Header → List Int → List Int → List Int
  /-- `nbr(m, p)`, what the lapped transform reads across block boundaries, and `InvLBT` (44 R251). 45 R277 leaves `nbr`
  to the parameters: here it may depend on the whole source and header, so on every macroblock, earlier or later in
  decode order, as well as on the blocks reconstructed so far. -/
  lapNeighbours : List Byte → Header → MBCode → Nat → List Recon → List Int
  invLBT : Header → List Int → List Int → List Int
  /-- The prediction mode of a macroblock and plane, decided by the header and the coded data (45 R271), and `Predict`
  (45 R270). -/
  predMode : List Byte → Header → MBCode → Nat → Nat
  predict : Header → Nat → List Int → Neighbours → List Int
  /-- The samples of the image from the reconstructed planes, with colour conversion (45 R277). -/
  buildImage : Header → List Recon → Image
  /-- `PartialDecode` (47 R333): none for `Fail` with the same error, or the region's samples. -/
  partialDecode : List Byte → Header → Rect → Option Image
  /-- The draws `any` of 00_scope.md R14: a free byte for each number of a draw. -/
  anyByte : Nat → Byte
deriving Inhabited

/-- The configuration of the chip: every OPEN parameter of 00_scope.md R9, uninterpreted. -/
opaque Config.chip : Config

end Sys2Proof
end

