-- ==== Sys2Proof/Syntax.lean ====
section
/-! DEFINITION. The commands (30_encoding.md R112), one constructor per row of the opcode table, and the assembler
lines and pseudo-instructions in which programs are written (30_encoding.md R118, R119). -/

namespace Sys2Proof

/-- The twelve commands of 30_encoding.md R112. The command word has no operand fields (R110): every operand is one
of the latched argument registers, so no constructor has an argument. -/
inductive Instr where
  | nop
  | openSession
  | getSize
  | getPixelFormat
  | copyRegion
  | close
  | lookupPixelFormat
  | brBind
  | brReadBits
  | brAlign
  | brSeek
  | brTell
deriving DecidableEq, Repr

/-- Every command once, in the order of the opcode table. -/
def Instr.all : List Instr :=
  [.nop, .openSession, .getSize, .getPixelFormat, .copyRegion, .close, .lookupPixelFormat,
   .brBind, .brReadBits, .brAlign, .brSeek, .brTell]

/-- One line of a program (30_encoding.md R118) or one pseudo-instruction (R119). -/
inductive AsmLine where
  /-- `MNEMONIC a0, a1, ...` for every command but LOOKUP_PIXEL_FORMAT with a literal. -/
  | command (i : Instr) (operands : List Int)
  /-- `LOOKUP_PIXEL_FORMAT` with the one 16-byte literal of R118. -/
  | lookup (guid : List Byte)
  /-- `W off, v`: one 32-bit host write to a window offset. -/
  | write (off : Nat) (v : Int)
  /-- `R off`: one 32-bit host read of a window offset. -/
  | read (off : Nat)
  /-- `; text`. -/
  | comment
  /-- `WAIT`. -/
  | wait
  /-- `COPY_ALL out, stride, len`. -/
  | copyAll (out stride len : Int)
  /-- `REOPEN base, len`. -/
  | reopen (base len : Int)
  /-- `BR_SKIP n`. -/
  | brSkip (n : Nat)
  /-- `ACK`. -/
  | ack
deriving DecidableEq, Repr

end Sys2Proof
end

