-- ==== Sys2Proof/WellFormed.lean ====
section
/-! DEFINITION. Well-formedness of commands and of assembler lines. A command word has no register, immediate or mode
field (30_encoding.md R110), so every command is well formed. An assembler line is well formed when it has a reading
under 30_encoding.md R118 and R119. -/

namespace Sys2Proof

/-- A command has no operand field that could be out of range (30_encoding.md R110, R111). -/
def Instr.wellFormed : Instr → Bool
  | .nop | .openSession | .getSize | .getPixelFormat | .copyRegion | .close | .lookupPixelFormat
  | .brBind | .brReadBits | .brAlign | .brSeek | .brTell => true

/-- A window offset: inside the 0x100 bytes (10_state.md R30), aligned or not. `W` at one that is not aligned writes
nothing, and `R` there reads 0 (R31, 93_implementation_defined.md U21). -/
def windowOffsetOk (off : Nat) : Bool := decide (off < 0x100)

/-- A line has a reading under 30_encoding.md R118 and R119: at most the eight ARG operands, a 16-byte GUID literal
for LOOKUP_PIXEL_FORMAT, offsets inside the window, and `n <= 32` for `BR_SKIP`. -/
def AsmLine.wellFormed : AsmLine → Bool
  | .command i ops => decide (ops.length ≤ 8) && (i != .lookupPixelFormat || ops.isEmpty)
  | .lookup g => decide (g.length = 16)
  | .write off _ => windowOffsetOk off
  | .read off => windowOffsetOk off
  | .comment => true
  | .wait => true
  | .copyAll _ _ _ => true
  | .reopen _ _ => true
  | .brSkip n => decide (n ≤ maxReadBits)
  | .ack => true

end Sys2Proof
end

