-- ==== Sys2Proof/Decode.lean ====
section
/-! DEFINITION. The command encoding of 30_encoding.md: the opcode map (R112), the decoder (R115), total on every word
and every byte list and rejecting by name, and the encoder. Also the little-endian byte order in which a command word
is carried on the host bus (10_state.md R31). -/

namespace Sys2Proof

/-- The little-endian number a byte list holds, lowest address first (00_scope.md R13). -/
def leNat : List Byte → Nat
  | [] => 0
  | b :: bs => b.toNat + 256 * leNat bs

/-- `LE(v, n)`: the `n` bytes `v[7:0], v[15:8], ...` in increasing address order (46_pixel_format_converter.md R300). -/
def leBytes : Nat → Nat → List Byte
  | 0, _ => []
  | n + 1, v => BitVec.ofNat 8 v :: leBytes n (v / 256)

/-- Why a word is no command (30_encoding.md R113). -/
inductive IllegalWord where
  /-- `word[31:8] != 0`. -/
  | reservedBitsSet
  /-- OP is in 0x07 to 0x0F or 0x15 to 0xFF. -/
  | unassignedOpcode
  /-- Fewer than the four bytes of a command word (30_encoding.md R110: every word is 32 bits long). -/
  | shortWord
deriving DecidableEq, Repr

/-- One row of the opcode map. -/
structure OpcodeRow where
  op : BitVec 8
  command : Instr
deriving DecidableEq, Repr

/-- The opcode map of 30_encoding.md R112. -/
def opcodeTable : List OpcodeRow :=
  [⟨0x00, .nop⟩, ⟨0x01, .openSession⟩, ⟨0x02, .getSize⟩, ⟨0x03, .getPixelFormat⟩, ⟨0x04, .copyRegion⟩, ⟨0x05, .close⟩,
   ⟨0x06, .lookupPixelFormat⟩, ⟨0x10, .brBind⟩, ⟨0x11, .brReadBits⟩, ⟨0x12, .brAlign⟩, ⟨0x13, .brSeek⟩, ⟨0x14, .brTell⟩]

/-- `OP = word[7:0]` (30_encoding.md R110). -/
def opField (w : Word) : BitVec 8 := w.extractLsb' 0 8

/-- `RSV = word[31:8]` (30_encoding.md R110). -/
def rsvField (w : Word) : BitVec 24 := w.extractLsb' 8 24

/-- The decoding algorithm of 30_encoding.md R115, total on all `2^32` words. -/
def decodeWord (w : Word) : Except IllegalWord Instr :=
  if rsvField w ≠ 0 then .error .reservedBitsSet
  else
    match opcodeTable.find? (fun r => r.op == opField w) with
    | some r => .ok r.command
    | none => .error .unassignedOpcode

/-- Decoding from the bytes of the bus, little-endian (10_state.md R31): the command and the bytes after its word. -/
def decode : List Byte → Except IllegalWord (Instr × List Byte)
  | b0 :: b1 :: b2 :: b3 :: rest =>
    match decodeWord (b3 ++ b2 ++ b1 ++ b0) with
    | .ok i => .ok (i, rest)
    | .error e => .error e
  | _ => .error .shortWord

/-- The opcode of a command (30_encoding.md R112). -/
def opcodeOf : Instr → BitVec 8
  | .nop => 0x00
  | .openSession => 0x01
  | .getSize => 0x02
  | .getPixelFormat => 0x03
  | .copyRegion => 0x04
  | .close => 0x05
  | .lookupPixelFormat => 0x06
  | .brBind => 0x10
  | .brReadBits => 0x11
  | .brAlign => 0x12
  | .brSeek => 0x13
  | .brTell => 0x14

/-- The command word: OP in bits 7:0, zero in bits 31:8 (30_encoding.md R110). -/
def encode (i : Instr) : Word := 0#24 ++ opcodeOf i

/-- The command word as the four bytes the host bus carries (10_state.md R31). -/
def encodeBytes (i : Instr) : List Byte := leBytes 4 (encode i).toNat

/-- What the decoder reads from a table row's bits `w`, every bit from `nbits` up being 0. -/
def decodeTableWord (nbits w : Nat) : Option Instr :=
  match decode (leBytes 4 (w % 2 ^ nbits)) with
  | .ok (i, _) => some i
  | .error _ => none

end Sys2Proof
end

