-- ==== Sys2Proof/Machine/State.lean ====
section
/-! DEFINITION. The state of one block instance (10_state.md), host memory, and the queue of what the host does;
the reasons a step can stop; the state after reset (70_reset_and_hazards.md R391). -/

namespace Sys2Proof.Machine

/-- The error codes 1 to 10 of 60_exceptions.md R360. Code 0, OK, is the absence of an error. -/
inductive Error where
  | invalidFormat
  | unsupportedFeature
  | unknownPixelFormat
  | corruptStream
  | invalidRegion
  | bufferTooSmall
  | unexpectedEnd
  | sessionClosed
  | illegalCommand
  | badAddress
deriving DecidableEq, Repr

/-- The model faults of 60_exceptions.md R361. -/
inductive Fault where
  /-- Raised by `inverseLBT` (44_inverse_transform.md R253) when a block has not the shape its plane has for this
  header. The rule says it cannot arise, and here it does not: every block the entropy decoder hands on is given that
  shape. Safe: the machine stops where the spec gives no behaviour. -/
  | transformDimension
deriving DecidableEq, Repr

/-- The reasons a step has no meaning. -/
inductive Refusal where
  /-- An arm of `exec` that has no meaning yet, by the mnemonic of its table row. No arm is left so. Safe. -/
  | notModelled (mnemonic : String)
  /-- Raised by the step that would take a host memory write breaking duty (1) or (2) of 20_memory.md R94: the spec
  gives such a write no move (93_implementation_defined.md U16). Raised too for a byte that another instance writes into
  this one's bound source, which 20_memory.md R96 and duty (1) make read-only (log 17). Never raised by a command.
  Safe: nothing is claimed of such a host. -/
  | hostBreaksDuty
  /-- 60_exceptions.md R362. Raised by `withRegistry`, before any step, for a registry row that breaks a law of
  42_pixel_format_registry.md R206. The other laws R362 names hold of every `Config` (log 6), so no step raises it.
  Safe: nothing is proved of a refused configuration. -/
  | illFormedConfig
deriving DecidableEq, Repr

/-- The command latch `L` (10_state.md R41). STATUS.BUSY is `valid`. -/
structure Latch where
  valid : Bool
  op : BitVec 8
  word : Word
  args : Vector Word 8
deriving DecidableEq, Repr

/-- The bitstream reader `rdr` (10_state.md R43). -/
structure Reader where
  bound : Bool
  base : Word
  len : Word
  bitpos : BitVec 35
deriving DecidableEq, Repr

/-- The reader with no source bound: every field 0 (10_state.md R43). -/
def Reader.unbound : Reader := ⟨false, 0, 0, 0⟩

/-- The session state `sess` together with the stored header `hdr`, which is present exactly when `sess` is not Closed
(10_state.md R42, R44; log 7). -/
inductive Session where
  | closed
  | opened (hdr : Header)
  | decoding (hdr : Header)
deriving DecidableEq, Repr

/-- Host memory in its one canonical form: address and byte, addresses strictly rising, no entry equal to what an
unlisted address reads as (20_memory.md R80; `Memory.wf` in Machine/Ops.lean). -/
abbrev Memory := List Host.Cell

/-- A range of host addresses: `lo` to `hi`, `hi` not in it. -/
structure AddrRange where
  lo : Nat
  hi : Nat
deriving DecidableEq, Repr

/-- What the host, or the platform, does to one instance and to host memory (00_scope.md R18). The order of the queue
is the order of the host's accesses, and the marks `blockTurn` and `wait` say where the block's step comes (log 2). -/
inductive HostEvent where
  /-- A write of the bytes `data`, lowest address first, at a window offset (10_state.md R31). -/
  | regWrite (off : BitVec 8) (data : List Byte)
  /-- A read of `n` bytes at a window offset (10_state.md R31). -/
  | regRead (off : BitVec 8) (n : Nat)
  /-- A byte write to host memory by the host, or by an agent on its bus that is no block instance (20_memory.md
  R94). -/
  | memWrite (addr : Word) (b : Byte)
  /-- A byte read of host memory (20_memory.md R94). -/
  | memRead (addr : Word)
  /-- At this point of the queue another instance is BUSY for a COPY_REGION with this output range (20_memory.md R96).
  If it became BUSY before this instance accepted its command, the event stands after the acceptance too (log 20). -/
  | otherCopy (base len : Word)
  /-- A byte written by another instance's COPY_REGION (20_memory.md R82, R96; log 20). -/
  | otherWrite (addr : Word) (b : Byte)
  /-- The reset input (70_reset_and_hazards.md R390). -/
  | reset
  /-- The block takes its step here, if a command is latched (47_session_commands.md R321). -/
  | blockTurn
  /-- `WAIT` (30_encoding.md R119): the host polls STATUS until BUSY reads 0. -/
  | wait
  /-- A 32-bit host read of `src`, whose value the host writes to `dst` (`COPY_ALL`, 30_encoding.md R119). -/
  | moveReg (src dst : BitVec 8)
  /-- The host reads STATUS and, if ERROR is 1, gives up its next `n` accesses (`COPY_ALL`, 30_encoding.md R119). -/
  | skipOnError (n : Nat)
deriving DecidableEq, Repr

/-- The state of one block instance with host memory and the host's queue. STATUS.BUSY, ERROR, SESSION and
READER_BOUND and the IRQ output are computed (Machine/Flags.lean): each is stored once, where its rule says. -/
structure State where
  /-- CTRL.IRQ_EN (10_state.md R33). -/
  irqEn : Bool
  /-- STATUS.DONE (10_state.md R34). -/
  done : Bool
  /-- STATUS.OVERRUN (10_state.md R34). -/
  overrun : Bool
  /-- STATUS.ERR_CODE, none for OK (10_state.md R34, 60_exceptions.md R360). -/
  err : Option Error
  /-- The CMD read value (10_state.md R36). -/
  cmd : Word
  /-- ARG0 to ARG7 (10_state.md R37). -/
  args : Vector Word 8
  /-- RES0 to RES7 (10_state.md R38). -/
  res : Vector Word 8
  /-- The command latch (10_state.md R41). -/
  latch : Latch
  /-- `sess` and `hdr` (10_state.md R42, R44). -/
  session : Session
  /-- `rdr` (10_state.md R43). -/
  rdr : Reader
  /-- Host memory (20_memory.md R80). -/
  mem : Memory
  /-- The parts of the running COPY_REGION's output range that another instance's output range shares, both BUSY
  (20_memory.md R96; log 20). -/
  contested : List AddrRange
  /-- The model's own: the host events still to happen, first one first (log 2). -/
  host : List HostEvent
  /-- The model's own: the bytes the host's last read returned (log 21). -/
  busData : List Byte
  /-- The model's own: how many free values have been drawn (log 5). -/
  draws : Nat
deriving DecidableEq, Repr

/-- The state after reset (70_reset_and_hazards.md R391), with nothing listed in memory and no host event queued. -/
def State.reset : State where
  irqEn := false
  done := false
  overrun := false
  err := none
  cmd := 0
  args := Vector.replicate 8 0
  res := Vector.replicate 8 0
  latch := ⟨false, 0, 0, Vector.replicate 8 0⟩
  session := .closed
  rdr := Reader.unbound
  mem := []
  contested := []
  host := []
  busData := []
  draws := 0

end Sys2Proof.Machine
end

