-- ==== Sys2Proof/Machine/Ops.lean ====
section
/-! DEFINITION. The named operations the meanings share: bytes of host memory and their canonical form
(20_memory.md R80, R84), the range predicates (R83), acceptance of a command (47_session_commands.md R320), completion
and the taking of an error (R321, 60_exceptions.md R366), the return from one (60_exceptions.md R367), and
`CloseSession` (47_session_commands.md R330). -/

namespace Sys2Proof.Machine

/-! ## Host memory -/

/-- What an address that nothing has written reads as: DESIGN CHOICE, unsafe (log 1). -/
def unlistedByte : Byte := 0x00#8

/-- `MemRead(addr, 1)` (00_scope.md R13). -/
def Memory.read : Memory → Nat → Byte
  | [], _ => unlistedByte
  | (k, b) :: m, a => if k = a then b else Memory.read m a

/-- `MemWrite(addr, 1, v)` (00_scope.md R13), keeping the canonical form. -/
def Memory.write : Memory → Nat → Byte → Memory
  | [], a, v => if v = unlistedByte then [] else [(a, v)]
  | (k, b) :: m, a, v =>
    if a < k then
      if v = unlistedByte then (k, b) :: m else (a, v) :: (k, b) :: m
    else if a = k then
      if v = unlistedByte then m else (a, v) :: m
    else (k, b) :: Memory.write m a v

/-- Byte writes one after another. The order cannot be observed when the addresses differ (20_memory.md R92). -/
def Memory.writeAll (m : Memory) (cells : List Host.Cell) : Memory :=
  cells.foldl (fun m c => Memory.write m c.1 c.2) m

/-- The canonical form from address `lo` up. -/
def Memory.wfFrom (lo : Nat) : Memory → Bool
  | [] => true
  | (k, b) :: m => decide (lo ≤ k) && decide (k < addrSpace) && b != unlistedByte && Memory.wfFrom (k + 1) m

/-- The canonical form of memory: addresses strictly rising and below `2^ADDR_W`, no entry that an unlisted address
would read as. -/
def Memory.wf (m : Memory) : Bool := Memory.wfFrom 0 m

/-- `RangeOK(base, len)` (20_memory.md R83). -/
def rangeOk (base len : Nat) : Bool := decide (base + len ≤ addrSpace)

/-- `Overlap(a, la, b, lb)` (20_memory.md R83). -/
def overlap (a la b lb : Nat) : Bool :=
  decide (la > 0) && decide (lb > 0) && decide (a < b + lb) && decide (b < a + la)

/-- An address lies in `[base, base + len)`. -/
def inRange (base len a : Nat) : Bool := decide (base ≤ a) && decide (a < base + len)

/-! ## The source -/

/-- `Src[i]` of the bound source: `MemRead(rdr.base + i, 1)` (40_bitstream_reader.md R140). -/
def State.srcByte (s : State) (i : Nat) : Byte := s.mem.read (s.rdr.base.toNat + i)

/-- An address is a source byte while a reader is bound (20_memory.md R94, duty (1)). -/
def State.isSourceByte (s : State) (a : Nat) : Bool :=
  s.rdr.bound && inRange s.rdr.base.toNat s.rdr.len.toNat a

/-- `B`, the list of the bound source's bytes (41_container_header_parser.md R170). -/
def State.sourceBytes (s : State) : List Byte := (List.range s.rdr.len.toNat).map s.srcByte

/-! ## Session -/

/-- The stored header, present exactly when a session is open (10_state.md R44). -/
def Session.header? : Session → Option Header
  | .closed => none
  | .opened h => some h
  | .decoding h => some h

/-- `sess != Closed`. -/
def Session.isOpen (x : Session) : Bool := x.header?.isSome

/-- Where a COPY_REGION that succeeds leaves the session (47_session_commands.md R322, R335). -/
def Session.afterCopy : Session → Session
  | .closed => .closed
  | .opened h => .decoding h
  | .decoding h => .decoding h

/-- `CloseSession()` (47_session_commands.md R330). -/
def State.closeSession (s : State) : State := { s with session := .closed, rdr := Reader.unbound }

/-- `rdr <- {bound: 1, base, len, bitpos: 0}` (40_bitstream_reader.md R150). -/
def State.bindReader (s : State) (base len : Word) : State := { s with rdr := ⟨true, base, len, 0⟩ }

/-- The cursor of the bound reader as a number (40_bitstream_reader.md R144). -/
def State.cursor (s : State) : Nat := s.rdr.bitpos.toNat

/-- `rdr.bitpos <- p` (10_state.md R43). -/
def State.setCursor (s : State) (p : Nat) : State := { s with rdr := { s.rdr with bitpos := BitVec.ofNat 35 p } }

/-- Where OPEN and COPY_REGION leave the cursor: `8 * hdr.coded_offset` (40_bitstream_reader.md R155). -/
def codedBit (p : Parsed) : Nat := 8 * p.codedOffset.toNat

/-! ## The command frame -/

/-- The branch of acceptance for an idle block (47_session_commands.md R320): the word and all eight ARG registers are
latched, DONE and ERR_CODE are cleared. -/
def State.latchCommand (s : State) (v : Word) : State :=
  { s with latch := ⟨true, v.extractLsb' 0 8, v, s.args⟩, cmd := v, done := false, err := none }

/-- `OnCmdWrite(v)` (47_session_commands.md R320). A write while BUSY = 1 is dropped and sets OVERRUN. -/
def State.onCmdWrite (s : State) (v : Word) : State :=
  if s.latch.valid then { s with overrun := true } else s.latchCommand v

/-- The word of the latched command, which the block decodes (47_session_commands.md R321). -/
def State.fetchWord (s : State) : Word := s.latch.word

/-- What a command's pseudocode leaves (47_session_commands.md R321): the state as changed before `complete` or
`raise E`, and the error raised, if one was. -/
structure Perform where
  state : State
  err : Option Error
deriving DecidableEq, Repr

/-- `complete` (00_scope.md R14). -/
def complete (s : State) : Perform := ⟨s, none⟩

/-- `raise E` (00_scope.md R14). -/
def raise (e : Error) (s : State) : Perform := ⟨s, some e⟩

/-- The completion (47_session_commands.md R321), and with it the taking of an error (60_exceptions.md R366): ERR_CODE
takes the outcome's code, DONE is set, `L.valid` is cleared, and nothing else changes. -/
def State.completeWith (s : State) (e : Option Error) : State :=
  { s with err := e, done := true, latch := { s.latch with valid := false } }

/-- The block's step for a pseudocode that has run: perform and completion (47_session_commands.md R321). -/
def finish (p : Perform) : Host.Outcome State Fault Refusal := .next (p.state.completeWith p.err)

/-- The host's acknowledgement of a completion, the nearest thing to a return from an error (60_exceptions.md R367):
DONE is cleared, and ERR_CODE stays (10_state.md R35). -/
def State.acknowledge (s : State) : State := { s with done := false }

/-- The perform step of an illegal command word: nothing but IllegalCommand (30_encoding.md R113). -/
def illegalCommand (s : State) : Host.Outcome State Fault Refusal := finish (raise .illegalCommand s)

end Sys2Proof.Machine
end

