-- ==== Sys2Proof/Machine/Operands.lean ====
section
/-! DEFINITION. Operand forms: how a command reads its latched arguments (30_encoding.md R111) and how it writes the
result registers (R117, 10_state.md R38). -/

namespace Sys2Proof.Machine

/-- `u(i)`: the latched argument as an unsigned number (30_encoding.md R111). -/
def State.u (s : State) (i : Fin 8) : Nat := s.latch.args[i].toNat

/-- `s(i)`: the latched argument as a two's complement number (30_encoding.md R111). -/
def State.sArg (s : State) (i : Fin 8) : Int := s.latch.args[i].toInt

/-- Byte `k` of a register, bits `8k+7 : 8k`. -/
def byteOfWord (w : Word) (k : Nat) : Byte := w.extractLsb' (8 * k) 8

/-- The GUID operand: byte `k` is byte `k mod 4` of `L.ARG[k / 4]` (30_encoding.md R111). -/
def State.guidOperand (s : State) : Guid :=
  Vector.ofFn fun k : Fin 16 => byteOfWord (s.latch.args[k.val / 4]'(by omega)) (k.val % 4)

/-- The ARG registers that hold a GUID, packed as the operand is unpacked (30_encoding.md R111, R118). -/
def guidWords (g : List Byte) : List Word :=
  (List.range 4).map fun i => BitVec.ofNat 32 (leNat ((g.drop (4 * i)).take 4))

/-- `RES[i] <- v` (00_scope.md R12), `v` as a 32-bit value. -/
def State.setRes (s : State) (i : Fin 8) (v : Nat) : State := { s with res := s.res.set i (BitVec.ofNat 32 v) }

end Sys2Proof.Machine
end

