-- ==== Sys2Proof/Machine/Reader.lean ====
section
/-! DEFINITION. The bitstream reader: its primitives (40_bitstream_reader.md R140-R147), over a source given by its
bytes, and the five reader commands (R150-R154). -/

namespace Sys2Proof.Machine

/-! ## Primitives -/

/-- Stream bit `p`: bit `7 - (p mod 8)` of byte `p / 8` (40_bitstream_reader.md R140). -/
def streamBit (src : Nat → Byte) (p : Nat) : Bool := (src (p / 8)).getLsbD (7 - p % 8)

/-- `peek(p, k)`: `k` bits from position `p`, the first bit the most significant (40_bitstream_reader.md R140). -/
def peek (src : Nat → Byte) (p : Nat) : Nat → Nat
  | 0 => 0
  | k + 1 => 2 * peek src p k + (streamBit src (p + k)).toNat

/-- `ReadBits(n)` at position `pos` of a source of `len` bytes: the value and the new position, none for UnexpectedEnd
(40_bitstream_reader.md R141). -/
def readBits (src : Nat → Byte) (len pos n : Nat) : Option (Nat × Nat) :=
  if pos + n > 8 * len then none else some (peek src pos n, pos + n)

/-- `AlignToByte()` (40_bitstream_reader.md R142). -/
def alignToByte (pos : Nat) : Nat := 8 * ((pos + 7) / 8)

/-- `Seek(off)`: the new position, none for UnexpectedEnd (40_bitstream_reader.md R143). -/
def seek (len off : Nat) : Option Nat := if off > len then none else some (8 * off)

/-- `value(c)`: a codeword read with its first bit as the most significant (40_bitstream_reader.md R145). -/
def codeValue (c : List Bool) : Nat := c.foldl (fun v b => 2 * v + b.toNat) 0

/-- A codeword stands at `pos`, inside the `r` bits available (40_bitstream_reader.md R145). -/
def codewordMatches (src : Nat → Byte) (pos r : Nat) (c : List Bool) : Bool :=
  decide (c.length ≤ r) && peek src pos c.length == codeValue c

/-- A codeword is cut off by the limit: its first `r` bits stand at `pos` (40_bitstream_reader.md R145). -/
def codewordCutOff (src : Nat → Byte) (pos r : Nat) (c : List Bool) : Bool :=
  decide (c.length > r) && codeValue c / 2 ^ (c.length - r) == peek src pos r

/-- `ReadVLC(code, limit)` at position `pos`: the symbol and the new position, or the error
(40_bitstream_reader.md R145). -/
def readVLC (src : Nat → Byte) (code : VlcCode) (limit : Nat) (endErr : DecodeError) (pos : Nat) :
    Except DecodeError (Nat × Nat) :=
  let r := limit - pos
  match code.val.find? (fun e => codewordMatches src pos r e.1) with
  | some e => .ok (e.2, pos + e.1.length)
  | none =>
    if code.val.any (fun e => codewordCutOff src pos r e.1) then .error endErr else .error .corruptStream

/-- The end position `E` of a declared extent (40_bitstream_reader.md R146). -/
def Extent.endBit (e : Extent) : Nat := 8 * (e.offset + e.length)

/-- `min(E, 8 * rdr.len)`, the position no bounded read passes (40_bitstream_reader.md R146). -/
def readLimit (e : Extent) (len : Nat) : Nat := min (Extent.endBit e) (8 * len)

/-- The error of a bounded read that would pass the limit (40_bitstream_reader.md R146, 90_conflicts.md C3). -/
def readEndError (e : Extent) (len : Nat) : DecodeError :=
  if Extent.endBit e ≤ 8 * len then .corruptStream else .unexpectedEnd

/-- A bounded `ReadBits(n)` (40_bitstream_reader.md R146). -/
def boundedReadBits (src : Nat → Byte) (e : Extent) (len pos n : Nat) : Except DecodeError (Nat × Nat) :=
  if pos + n > readLimit e len then .error (readEndError e len) else .ok (peek src pos n, pos + n)

/-- A bounded `ReadVLC(code)` (40_bitstream_reader.md R146). -/
def boundedReadVLC (src : Nat → Byte) (e : Extent) (len : Nat) (code : VlcCode) (pos : Nat) :
    Except DecodeError (Nat × Nat) :=
  readVLC src code (readLimit e len) (readEndError e len) pos

/-! ## Reader commands -/

/-- BR_BIND (40_bitstream_reader.md R150). -/
def performBrBind (s : State) : Perform :=
  if ¬ rangeOk (s.u 0) (s.u 1) then raise .badAddress s
  else
    let s1 := if s.session.isOpen then s.closeSession else s
    complete (s1.bindReader s.latch.args[0] s.latch.args[1])

/-- BR_READ_BITS (40_bitstream_reader.md R151). -/
def performBrReadBits (s : State) : Perform :=
  if ¬ s.rdr.bound then raise .sessionClosed s
  else if s.u 0 > maxReadBits then raise .illegalCommand s
  else
    match readBits s.srcByte s.rdr.len.toNat s.cursor (s.u 0) with
    | none => raise .unexpectedEnd s
    | some (v, pos) => complete ((s.setCursor pos).setRes 0 v)

/-- BR_ALIGN (40_bitstream_reader.md R152). -/
def performBrAlign (s : State) : Perform :=
  if ¬ s.rdr.bound then raise .sessionClosed s
  else complete (s.setCursor (alignToByte s.cursor))

/-- BR_SEEK (40_bitstream_reader.md R153). -/
def performBrSeek (s : State) : Perform :=
  if ¬ s.rdr.bound then raise .sessionClosed s
  else
    match seek s.rdr.len.toNat (s.u 0) with
    | none => raise .unexpectedEnd s
    | some pos => complete (s.setCursor pos)

/-- BR_TELL (40_bitstream_reader.md R154). -/
def performBrTell (s : State) : Perform :=
  if ¬ s.rdr.bound then raise .sessionClosed s
  else complete ((s.setRes 0 (s.cursor / 8)).setRes 1 (s.cursor % 8))

/-- The meaning of BR_BIND (40_bitstream_reader.md R150). -/
def execBrBind (s : State) : Host.Outcome State Fault Refusal := finish (performBrBind s)

/-- The meaning of BR_READ_BITS (40_bitstream_reader.md R151). -/
def execBrReadBits (s : State) : Host.Outcome State Fault Refusal := finish (performBrReadBits s)

/-- The meaning of BR_ALIGN (40_bitstream_reader.md R152). -/
def execBrAlign (s : State) : Host.Outcome State Fault Refusal := finish (performBrAlign s)

/-- The meaning of BR_SEEK (40_bitstream_reader.md R153). -/
def execBrSeek (s : State) : Host.Outcome State Fault Refusal := finish (performBrSeek s)

/-- The meaning of BR_TELL (40_bitstream_reader.md R154). -/
def execBrTell (s : State) : Host.Outcome State Fault Refusal := finish (performBrTell s)

end Sys2Proof.Machine
end

