-- ==== Sys2Proof/Machine/Registry.lean ====
section
/-! DEFINITION. The pixel format registry (42_pixel_format_registry.md): tag values, the lookup, the table a model takes
in or refuses (60_exceptions.md R362), the result registers of a descriptor, and the meaning of LOOKUP_PIXEL_FORMAT (R204). -/

namespace Sys2Proof.Machine

/-- The colour-format tag's number (42_pixel_format_registry.md R202). -/
def colorCode : ColorTag → BitVec 4
  | .yOnly => 0
  | .yuv420 => 1
  | .yuv422 => 2
  | .yuv444 => 3
  | .cmyk => 4
  | .cmykDirect => 5
  | .nComponent => 6
  | .rgb => 7
  | .rgbe => 8

/-- The bit-depth tag's number (42_pixel_format_registry.md R203). -/
def depthCode : DepthTag → BitVec 4
  | .white1 => 0
  | .bd8 => 1
  | .bd16 => 2
  | .bd16S => 3
  | .bd16F => 4
  | .bd32S => 6
  | .bd32F => 7
  | .bd5 => 8
  | .bd10 => 9
  | .bd565 => 10
  | .black1 => 15

/-- The row the source fixes: 4 channels, 32Float, 128 bits per pixel, with alpha (42_pixel_format_registry.md R205).
What the source does not give of it is open. -/
def scenarioDescriptor (c : Config) : Descriptor where
  channels := 4
  color := c.scenarioColor
  depth := .bd32F
  bpp := 128
  hasAlpha := true
  premultipliedAlpha := c.scenarioPremultiplied
  channelOrderReversed := c.scenarioReversed

/-- `Registry(g)` (42_pixel_format_registry.md R200): the row of R205, and the other rows, all of them lawful (R206). -/
def registry (c : Config) (g : Guid) : Option Descriptor :=
  if g = c.scenarioGuid then some (scenarioDescriptor c) else (c.registryRow g).map Subtype.val

/-! ## Taking a table in (60_exceptions.md R362) -/

/-- A row offered for the registry, taken in or refused as ill-formed by the laws of 42_pixel_format_registry.md R206
(60_exceptions.md R362). -/
def admitRow (d : Descriptor) : Except Refusal LawfulDescriptor :=
  if h : descriptorOk d = true then .ok ⟨d, h⟩ else .error .illFormedConfig

/-- A table of rows offered for the registry: the first row of a GUID counts, and one row that breaks a law refuses the
whole table (60_exceptions.md R362). -/
def admitRows : List (Guid × Descriptor) → Except Refusal (Guid → Option LawfulDescriptor)
  | [] => .ok fun _ => none
  | (g, d) :: rows =>
    match admitRow d, admitRows rows with
    | .error r, _ => .error r
    | _, .error r => .error r
    | .ok l, .ok table => .ok fun x => if x = g then some l else table x

/-- `c` with the table `rows` for the open rows of its registry, or `refuse(IllFormedConfig)` (60_exceptions.md R362).
The other laws R362 names hold of every `Config` (log 6). -/
def withRegistry (c : Config) (rows : List (Guid × Descriptor)) : Except Refusal Config :=
  match admitRows rows with
  | .error r => .error r
  | .ok table => .ok { c with registryRow := table }

/-- RES4 of a descriptor: `hasAlpha + 2 premultipliedAlpha + 4 channelOrderReversed` (42_pixel_format_registry.md R201). -/
def descriptorFlags (d : Descriptor) : Nat :=
  d.hasAlpha.toNat + 2 * d.premultipliedAlpha.toNat + 4 * d.channelOrderReversed.toNat

/-- A descriptor in RES0 to RES4 (42_pixel_format_registry.md R201). -/
def State.setDescriptor (s : State) (d : Descriptor) : State :=
  ((((s.setRes 0 d.channels.toNat).setRes 1 (colorCode d.color).toNat).setRes 2 (depthCode d.depth).toNat).setRes 3
    d.bpp.toNat).setRes 4 (descriptorFlags d)

/-! ## The reference table, a reading aid (42_pixel_format_registry.md R207): general knowledge, log 15 -/

/-- Grey formats of 42_pixel_format_registry.md R207 (PRESUMED, log 15). No step reads them. -/
def referenceGray : List Descriptor :=
  [⟨1, .yOnly, .white1, 1, false, false, false⟩, ⟨1, .yOnly, .bd8, 8, false, false, false⟩,
   ⟨1, .yOnly, .bd16, 16, false, false, false⟩, ⟨1, .yOnly, .bd16S, 16, false, false, false⟩,
   ⟨1, .yOnly, .bd16F, 16, false, false, false⟩, ⟨1, .yOnly, .bd32S, 32, false, false, false⟩,
   ⟨1, .yOnly, .bd32F, 32, false, false, false⟩]

/-- RGB formats of 8 bits of 42_pixel_format_registry.md R207 (PRESUMED, log 15). No step reads them. -/
def referenceRgb8 : List Descriptor :=
  [⟨3, .rgb, .bd8, 24, false, false, false⟩, ⟨3, .rgb, .bd8, 24, false, false, true⟩,
   ⟨3, .rgb, .bd8, 32, false, false, false⟩, ⟨3, .rgb, .bd8, 32, false, false, true⟩,
   ⟨4, .rgb, .bd8, 32, true, false, false⟩, ⟨4, .rgb, .bd8, 32, true, false, true⟩,
   ⟨4, .rgb, .bd8, 32, true, true, false⟩, ⟨4, .rgb, .bd8, 32, true, true, true⟩]

/-- RGB formats of 16 and 32 bits of 42_pixel_format_registry.md R207 (PRESUMED, log 15). No step reads them. -/
def referenceRgbWide : List Descriptor :=
  [⟨3, .rgb, .bd16, 48, false, false, false⟩, ⟨3, .rgb, .bd16S, 48, false, false, false⟩,
   ⟨3, .rgb, .bd16F, 48, false, false, false⟩, ⟨4, .rgb, .bd16, 64, true, false, false⟩,
   ⟨4, .rgb, .bd16, 64, true, true, false⟩, ⟨4, .rgb, .bd16S, 64, true, false, false⟩,
   ⟨4, .rgb, .bd16F, 64, true, false, false⟩, ⟨3, .rgb, .bd16S, 64, false, false, false⟩,
   ⟨3, .rgb, .bd16F, 64, false, false, false⟩, ⟨3, .rgb, .bd32S, 96, false, false, false⟩,
   ⟨3, .rgb, .bd32S, 128, false, false, false⟩, ⟨4, .rgb, .bd32S, 128, true, false, false⟩,
   ⟨3, .rgb, .bd32F, 128, false, false, false⟩, ⟨4, .rgb, .bd32F, 128, true, false, false⟩,
   ⟨4, .rgb, .bd32F, 128, true, true, false⟩]

/-- Packed, RGBE and CMYK formats of 42_pixel_format_registry.md R207 (PRESUMED, log 15). No step reads them. -/
def referenceOther : List Descriptor :=
  [⟨3, .rgb, .bd5, 16, false, false, false⟩, ⟨3, .rgb, .bd565, 16, false, false, false⟩,
   ⟨3, .rgb, .bd10, 32, false, false, false⟩, ⟨4, .rgbe, .bd8, 32, false, false, false⟩,
   ⟨4, .cmyk, .bd8, 32, false, false, false⟩, ⟨5, .cmyk, .bd8, 40, true, false, false⟩,
   ⟨4, .cmyk, .bd16, 64, false, false, false⟩, ⟨5, .cmyk, .bd16, 80, true, false, false⟩]

/-- The reference table of 42_pixel_format_registry.md R207, without the GUIDs, which the spec does not give. -/
def referenceFormats : List Descriptor := referenceGray ++ referenceRgb8 ++ referenceRgbWide ++ referenceOther

/-! ## The command -/

/-- LOOKUP_PIXEL_FORMAT (42_pixel_format_registry.md R204). -/
def performLookup (c : Config) (s : State) : Perform :=
  match registry c s.guidOperand with
  | none => raise .unknownPixelFormat s
  | some d => complete (s.setDescriptor d)

/-- The meaning of LOOKUP_PIXEL_FORMAT (42_pixel_format_registry.md R204). -/
def execLookupPixelFormat (s : State) : Host.Outcome State Fault Refusal := finish (performLookup Config.chip s)

end Sys2Proof.Machine
end

