-- ==== Sys2Proof/Machine/Packer.lean ====
section
/-! DEFINITION. The pixel format converter (46_pixel_format_converter.md): sample tuples, channel order (R292), the bytes
of one pixel (R293, R294, R300), the addresses of a region's row spans (R291), the writes of a region (R301), and the bytes
several instances' outputs share (20_memory.md R96). -/

namespace Sys2Proof.Machine

/-- `Bpp = bpp / 8` (42_pixel_format_registry.md R206). -/
def bytesPerPixel (d : Descriptor) : Nat := d.bpp.toNat / 8

/-- The canonical sample tuple of a pixel: one bit pattern of its width per channel (45_macroblock_predictor.md R276). -/
def pixelSamples (d : Descriptor) (img : Image) (i j : Nat) : List Nat :=
  (List.range d.channels.toNat).map fun k => img i j k % 2 ^ sampleBits d.depth k

/-- The number of colour channels: alpha, if present, is the last channel (46_pixel_format_converter.md R292). -/
def colorChannels (d : Descriptor) : Nat := d.channels.toNat - d.hasAlpha.toNat

/-- `memory_order(fmt, s)` (46_pixel_format_converter.md R292): the colour channels reversed when the flag says so,
alpha last. -/
def memoryOrder (d : Descriptor) (smp : List Nat) : List Nat :=
  if d.channelOrderReversed then (smp.take (colorChannels d)).reverse ++ smp.drop (colorChannels d) else smp

/-- The widths of a pixel's samples in canonical order (42_pixel_format_registry.md R203, 46 R294). -/
def sampleWidths (d : Descriptor) : List Nat := (List.range d.channels.toNat).map (sampleBits d.depth)

/-- The word of a packed pixel, from the width and value of each channel in memory order: the first channel takes the
lowest bits, each later one the next bits above it (46_pixel_format_converter.md R294; PRESUMED, log 14). -/
def packedWord : List (Nat × Nat) → Nat
  | [] => 0
  | (w, v) :: rest => v + 2 ^ w * packedWord rest

/-- `PackPixel(fmt, s)` (46_pixel_format_converter.md R300). A format below one byte per pixel has no bytes (R295). A
channel of a packed pixel keeps its own width wherever memory order puts it, so no field overlaps the next: DESIGN
CHOICE for BD565 with reversed channels and alpha, where R294 does not say whose widths 5, 6, 5 are (log 29). -/
def packPixel (d : Descriptor) (smp : List Nat) : List Byte :=
  match sampleKind d.depth with
  | .aligned n =>
    (memoryOrder d smp).flatMap (leBytes n) ++ List.replicate (bytesPerPixel d - d.channels.toNat * n) 0
  | .packed => leBytes (bytesPerPixel d) (packedWord ((memoryOrder d (sampleWidths d)).zip (memoryOrder d smp)))
  | .bit => []

/-- Where a region goes: the output base, the stride, the bytes of one row span and the number of rows
(46_pixel_format_converter.md R291). -/
structure RowSpans where
  base : Nat
  stride : Nat
  rowBytes : Nat
  rows : Nat
deriving DecidableEq, Repr

/-- The addresses of the row spans (46_pixel_format_converter.md R291). -/
def spanAddrs (sp : RowSpans) : List Nat :=
  (List.range sp.rows).flatMap fun r => (List.range sp.rowBytes).map fun k => sp.base + r * sp.stride + k

/-- An address is a byte of a row span (46_pixel_format_converter.md R291). -/
def inRowSpan (sp : RowSpans) (a : Nat) : Prop :=
  ∃ r k, r < sp.rows ∧ k < sp.rowBytes ∧ a = sp.base + r * sp.stride + k

/-- The writes of `WriteRegion` (46_pixel_format_converter.md R301): pixel `(c, r)` of the region at
`out_base + r * stride + c * Bpp`. -/
def regionCells (d : Descriptor) (pix : Image) (w h base stride : Nat) : List Host.Cell :=
  (List.range h).flatMap fun r =>
    (List.range w).flatMap fun i =>
      (packPixel d (pixelSamples d pix i r)).zipIdx.map fun bk =>
        (base + r * stride + i * bytesPerPixel d + bk.2, bk.1)

/-- Fresh draws for the bytes of the row spans (00_scope.md R14, 47_session_commands.md R334). -/
def anyCells (c : Config) (draws : Nat) (addrs : List Nat) : List Host.Cell :=
  addrs.zipIdx.map fun ak => (ak.1, c.anyByte (draws + ak.2))

/-- Every row-span byte takes a fresh draw (47_session_commands.md R334, 70_reset_and_hazards.md R392). -/
def State.scrambleSpans (c : Config) (s : State) (sp : RowSpans) : State :=
  { s with mem := s.mem.writeAll (anyCells c s.draws (spanAddrs sp)), draws := s.draws + (spanAddrs sp).length }

/-! ## Output ranges of several instances -/

/-- The addresses of a range. -/
def AddrRange.addrs (r : AddrRange) : List Nat := List.range' r.lo (r.hi - r.lo)

/-- The addresses that this and another instance's output ranges share while both are BUSY (20_memory.md R96). A source
byte is not one of them: nothing writes it while it is bound (R81, R94; log 20). -/
def State.contestedAddrs (s : State) : List Nat :=
  (s.contested.flatMap AddrRange.addrs).filter fun a => !s.isSourceByte a

/-- Every shared byte takes a fresh draw, and the race is over (20_memory.md R96; log 20). -/
def State.drawContested (c : Config) (s : State) : State :=
  { s with
    mem := s.mem.writeAll (anyCells c s.draws s.contestedAddrs)
    draws := s.draws + s.contestedAddrs.length
    contested := [] }

end Sys2Proof.Machine
end

