-- ==== Sys2Proof/Machine/Parser.lean ====
section
/-! DEFINITION. The container and header parser (41_container_header_parser.md): `ParseContainer` over the open
parameters, with the laws R171 to R173, and `Accept` (R174). -/

namespace Sys2Proof.Machine

/-- What the start of the source says of the magic signature (41_container_header_parser.md R171). -/
inductive Magic where
  | present | absent | short
deriving DecidableEq, Repr

/-- The magic check (41_container_header_parser.md R171): too short a source is `short`, whatever its bytes are. -/
def checkMagic (c : Config) (b : List Byte) : Magic :=
  match b with
  | [] => .short
  | b0 :: rest =>
    if rest.length < c.magicTail.length then .short
    else if b0 = c.magicHead ∧ c.magicTail.isPrefixOf rest then .present
    else .absent

/-- A byte range lies inside a source of `n` bytes. -/
def Extent.inside (e : Extent) (n : Nat) : Bool := decide (e.offset + e.length ≤ n)

/-- Every directory of the container lies inside the source (41_container_header_parser.md R172). -/
def directoriesInside (c : Config) (b : List Byte) : Bool :=
  (c.directoryRanges b).all fun e => Extent.inside e b.length

/-- Every range an entry points at lies inside the source, whatever the entry's tag (41_container_header_parser.md
R172). -/
def entriesInside (c : Config) (b : List Byte) (entries : List DirEntry) : Bool :=
  entries.all fun e => match c.entryRange e with
    | none => true
    | some r => Extent.inside r b.length

/-- The bytes of the source in a range, as far as the source goes. -/
def bytesAt (b : List Byte) (e : Extent) : List Byte := (b.drop e.offset).take e.length

/-- An entry with the bytes its value-or-offset points at, none when it holds its value itself
(41_container_header_parser.md R172). -/
def entryWithBytes (c : Config) (b : List Byte) (e : DirEntry) : DirEntry × List Byte :=
  (e, match c.entryRange e with
    | none => []
    | some r => bytesAt b r)

/-- The fields extracted (41_container_header_parser.md R173). An entry whose tag is not recognised has no part in it. -/
def extractFields (c : Config) (b : List Byte) (entries : List DirEntry) : Except ParseError Parsed :=
  let known := entries.filter fun e => c.knownTag e.tag
  c.extract c.profile (known.map (entryWithBytes c b)) ((c.codedRanges known).map (bytesAt b))

/-- The failure of a directory or entry outside the source (41_container_header_parser.md R172). -/
def outsideError (c : Config) (b : List Byte) : ParseError :=
  if c.outsideIsEnd b then .unexpectedEnd else .invalidFormat

/-- `ParseContainer(B)` (41_container_header_parser.md R170-R173): the magic, the directories and the entries read
generically, all of them inside the source, then the fields extracted from the entries whose tag is recognised. -/
def parseContainer (c : Config) (b : List Byte) : Except ParseError Parsed :=
  match checkMagic c b with
  | .short => .error .unexpectedEnd
  | .absent => .error .invalidFormat
  | .present =>
    if directoriesInside c b && entriesInside c b (c.readDirectory b) then extractFields c b (c.readDirectory b)
    else .error (outsideError c b)

/-- `Accept(B)` (41_container_header_parser.md R174), its checks in the rule's order. -/
def accept (c : Config) (b : List Byte) : Except Error Parsed :=
  match parseContainer c b with
  | .error .unexpectedEnd => .error .invalidFormat
  | .error .invalidFormat => .error .invalidFormat
  | .error .unsupportedFeature => .error .unsupportedFeature
  | .ok p =>
    if p.width < 1 ∨ p.height < 1 then .error .invalidFormat
    else if p.width > maxDim ∨ p.height > maxDim then .error .unsupportedFeature
    else
      match p.extents with
      | [] => .error .invalidFormat
      | first :: _ =>
        if ¬ p.extents.all (fun e => Extent.inside e b.length) then .error .invalidFormat
        else if p.codedOffset.toNat ≠ first.offset then .error .invalidFormat
        else .ok p

end Sys2Proof.Machine
end

