-- ==== Sys2Proof/Machine/Grid.lean ====
section
/-! DEFINITION. The macroblock grid, the tiles, the decode order and the covering set
(45_macroblock_predictor.md R272-R275), and the macroblocks a rectangle needs (47_session_commands.md R332). -/

namespace Sys2Proof.Machine

/-- `ceil_div(a, b)` (00_scope.md R10). -/
def ceilDiv (a b : Nat) : Nat := (a + b - 1) / b

/-- `MBC`, the number of macroblock columns (45_macroblock_predictor.md R273). -/
def mbCols (h : Header) : Nat := ceilDiv h.width mbSize

/-- `MBR`, the number of macroblock rows (45_macroblock_predictor.md R273). -/
def mbRows (h : Header) : Nat := ceilDiv h.height mbSize

/-- The intervals into which boundaries cut `[lo, n)`, in order. A boundary that does not rise, or lies outside, cuts
nothing (log 16). -/
def spans (lo : Nat) : List Nat → Nat → List (Nat × Nat)
  | [], n => if lo < n then [(lo, n)] else []
  | b :: bs, n => if lo < b ∧ b < n then (lo, b) :: spans b bs n else spans lo bs n

/-- The tiles in raster order: tile rows top to bottom, tiles left to right in each (45_macroblock_predictor.md R272). -/
def tiles (h : Header) : List Tile :=
  (spans 0 h.tiles.rows (mbRows h)).flatMap fun r =>
    (spans 0 h.tiles.cols (mbCols h)).map fun c => ⟨c.1, c.2, r.1, r.2⟩

/-- The macroblocks of a tile in raster order (45_macroblock_predictor.md R272). -/
def tileMBs (t : Tile) : List MB :=
  (List.range' t.r0 (t.r1 - t.r0)).flatMap fun j => (List.range' t.c0 (t.c1 - t.c0)).map fun i => ⟨i, j⟩

/-- `DecodeOrder(hdr)`, the default order, which this hardware takes (45_macroblock_predictor.md R272). -/
def decodeOrder (h : Header) : List MB := (tiles h).flatMap tileMBs

/-- A macroblock lies in a tile. -/
def Tile.contains (t : Tile) (m : MB) : Bool :=
  decide (t.c0 ≤ m.col) && decide (m.col < t.c1) && decide (t.r0 ≤ m.row) && decide (m.row < t.r1)

/-- `Cover(x, y, w, h)` contains a macroblock (45_macroblock_predictor.md R275). -/
def inCover (r : Rect) (m : MB) : Bool :=
  decide (r.x / mbSize ≤ m.col) && decide (m.col ≤ (r.x + r.w - 1) / mbSize)
    && decide (r.y / mbSize ≤ m.row) && decide (m.row ≤ (r.y + r.h - 1) / mbSize)

/-- `m` is `c` or comes before it in `DecodeOrder` (47_session_commands.md R332). -/
def notAfter (h : Header) (m c : MB) : Bool :=
  decide ((decodeOrder h).idxOf m ≤ (decodeOrder h).idxOf c)

/-- `Needed(x, y, w, h)` contains a macroblock: some covered macroblock of its tile is it or comes after it
(47_session_commands.md R332). -/
def needed (h : Header) (r : Rect) (m : MB) : Bool :=
  (tiles h).any fun t =>
    Tile.contains t m && (tileMBs t).any fun c => inCover r c && notAfter h m c

end Sys2Proof.Machine
end

