-- ==== Sys2Proof/Machine/Entropy.lean ====
section
/-! DEFINITION. The entropy decoder (43_entropy_decoder.md): one macroblock decoded by the reads its model makes, all of
them bounded by the first declared extent (R220, R223, 40_bitstream_reader.md R146), and where a tile's data starts
(R226). -/

namespace Sys2Proof.Machine

/-- A decoded value or feature the model rules out, as the error it raises (43_entropy_decoder.md R223; log 10). -/
def ruledOutError : RuledOut → DecodeError
  | .corrupt => .corruptStream
  | .unsupported => .unsupportedFeature

/-- The bytes of `B` as the reader sees them; a position past the end is never read (40_bitstream_reader.md R146). -/
def srcOf (b : List Byte) (i : Nat) : Byte := b.getD i 0

/-- Run the reads of a macroblock's decode from position `pos` inside extent `e` (43_entropy_decoder.md R220). -/
def runDecode (src : Nat → Byte) (e : Extent) (len : Nat) :
    DecodeProg → Nat → Except DecodeError (List (List Int) × List Int × Nat)
  | .done coeffs ctx, pos => .ok (coeffs, ctx, pos)
  | .ruledOut x, _ => .error (ruledOutError x)
  | .readBits n k, pos =>
    match boundedReadBits src e len pos n.val with
    | .error x => .error x
    | .ok (v, pos') => runDecode src e len (k v) pos'
  | .readVLC code k, pos =>
    match boundedReadVLC src e len code pos with
    | .error x => .error x
    | .ok (v, pos') => runDecode src e len (k v) pos'

/-- A block of exactly `n` values: missing ones are 0, further ones are left out. It gives every block the shape its
model declares, the law of 43_entropy_decoder.md R220 and 44_inverse_transform.md R250. -/
def fitBlock (n : Nat) (l : List Int) : List Int := (List.range n).map fun i => l.getD i 0

/-- The coefficients of every plane of a macroblock, each in its plane's shape (43_entropy_decoder.md R220). -/
def shapeCoeffs (c : Config) (h : Header) (coeffs : List (List Int)) : List (List Int) :=
  (List.range (c.numPlanes h)).map fun p => fitBlock (c.planeShape h p) (coeffs.getD p [])

/-- `DecodeMB(B, hdr, ctx, pos, mb)` (43_entropy_decoder.md R220): the macroblock's code and the position after it. -/
def decodeMB (c : Config) (b : List Byte) (h : Header) (e : Extent) (ctx : List Int) (pos : Nat) (m : MB) :
    Except DecodeError (MBCode × Nat) :=
  match runDecode (srcOf b) e b.length (c.decodeMB h ctx pos m) pos with
  | .error x => .error x
  | .ok (coeffs, ctx', pos') => .ok (⟨m, shapeCoeffs c h coeffs, ctx'⟩, pos')

/-- The first declared extent, inside which the coded image lies (43_entropy_decoder.md R220). A header that was
accepted has one (41_container_header_parser.md R174). -/
def firstExtent (h : Header) : Extent := h.extents.headD ⟨0, 0⟩

/-- A tile's data starts inside the first declared extent (43_entropy_decoder.md R226; log 11). -/
def startInside (e : Extent) (pos : Nat) : Bool := decide (8 * e.offset ≤ pos) && decide (pos < Extent.endBit e)

/-- The bit position a tile is entered at, when the previous tile ended at `prev` (43_entropy_decoder.md R226): an offset
of the index table is reached with `Seek`, which fails past the end of the source (40_bitstream_reader.md R143). -/
def enterTile (len prev : Nat) : TileEntry → Option Nat
  | .indexTable off => seek len off
  | .previousEnd => some prev

/-- Where tile `t` starts, when the previous one ended at `prev`: none outside the first declared extent, where R226 makes
the tile fail (43_entropy_decoder.md R226). -/
def tileStart (c : Config) (b : List Byte) (h : Header) (t : Tile) (prev : Nat) : Option Nat :=
  (enterTile b.length prev (c.tileStart b h t)).filter (startInside (firstExtent h))

end Sys2Proof.Machine
end

