-- ==== Sys2Proof/Machine/Transform.lean ====
section
/-! DEFINITION. Dequantisation and the inverse lapped biorthogonal transform (44_inverse_transform.md R250-R254): the
parts of `Dequant` and `InvLBT` the rules fix. Both are pure functions. -/

namespace Sys2Proof.Machine

/-- `Dequant(hdr, q, c)`: a block of the same shape (44_inverse_transform.md R250). -/
def dequantise (c : Config) (b : List Byte) (h : Header) (code : MBCode) (p : Nat) : List Int :=
  let block := code.coeffs.getD p []
  fitBlock block.length (c.dequant h (c.quantSteps b h code p) block)

/-- `InvLBT(hdr, d, nbr)` (44_inverse_transform.md R251). A block that has not the shape of its plane is the caller's
contract broken, and the model faults rather than pick a value (R253). -/
def inverseLBT (c : Config) (h : Header) (p : Nat) (d nbr : List Int) : Except Fault (List Int) :=
  if d.length = c.planeShape h p then .ok (c.invLBT h d nbr) else .error .transformDimension

end Sys2Proof.Machine
end

