-- ==== Sys2Proof/Machine/Predictor.lean ====
section
/-! DEFINITION. The macroblock predictor (45_macroblock_predictor.md R270, R271) and the reference reconstruction as the
composition of the stages (R276, R277). -/

namespace Sys2Proof.Machine

/-- What a decode ends in: the image or part of it, the error and the macroblock that raised it, or a model fault
(45_macroblock_predictor.md R276, 60_exceptions.md R361). -/
inductive Decoded (α : Type) where
  | ok (a : α)
  | fail (e : DecodeError) (m : MB)
  | fault (f : Fault)

/-- The values of plane `p` of a macroblock already reconstructed, if it is one of `done`. -/
def planeOf (done : List Recon) (m : MB) (p : Nat) : Option (List Int) :=
  (done.find? fun r => r.mb == m).map fun r => r.planes.getD p []

/-- The left and above neighbours of a macroblock in its tile (45_macroblock_predictor.md R270): absent outside the
image or the tile. -/
def neighboursOf (t : Tile) (done : List Recon) (m : MB) (p : Nat) : Neighbours where
  left := if t.c0 < m.col then planeOf done ⟨m.col - 1, m.row⟩ p else none
  above := if t.r0 < m.row then planeOf done ⟨m.col, m.row - 1⟩ p else none

/-- One plane of one macroblock: dequantise, transform, predict (45_macroblock_predictor.md R277). -/
def reconPlane (c : Config) (b : List Byte) (h : Header) (t : Tile) (done : List Recon) (code : MBCode) (p : Nat) :
    Except Fault (List Int × List Int) :=
  let d := dequantise c b h code p
  match inverseLBT c h p d (c.lapNeighbours b h code p done) with
  | .error f => .error f
  | .ok resid => .ok (d, c.predict h (c.predMode b h code p) resid (neighboursOf t done code.mb p))

/-- The planes of one macroblock, one after another. -/
def reconPlanes (c : Config) (b : List Byte) (h : Header) (t : Tile) (done : List Recon) (code : MBCode) :
    List Nat → Except Fault (List (List Int × List Int))
  | [] => .ok []
  | p :: ps =>
    match reconPlane c b h t done code p with
    | .error f => .error f
    | .ok r =>
      match reconPlanes c b h t done code ps with
      | .error f => .error f
      | .ok rs => .ok (r :: rs)

/-- One macroblock reconstructed from its code (45_macroblock_predictor.md R277). -/
def reconMB (c : Config) (b : List Byte) (h : Header) (t : Tile) (done : List Recon) (code : MBCode) : Except Fault Recon :=
  match reconPlanes c b h t done code (List.range (c.numPlanes h)) with
  | .error f => .error f
  | .ok rs => .ok ⟨code.mb, rs.map Prod.fst, rs.map Prod.snd⟩

/-- What a run of the decode has come to: everything reconstructed so far, in decode order, and the bit position after
its last macroblock, where the next tile may start (43_entropy_decoder.md R226). -/
structure Progress where
  done : List Recon
  pos : Nat
deriving DecidableEq, Repr

/-- The macroblocks of one tile, in order, each with the context and position the one before left
(43_entropy_decoder.md R221, R222). -/
def decodeTileMBs (c : Config) (b : List Byte) (h : Header) (t : Tile) :
    List MB → List Int → Progress → Decoded Progress
  | [], _, p => .ok p
  | m :: ms, ctx, p =>
    match decodeMB c b h (firstExtent h) ctx p.pos m with
    | .error e => .fail e m
    | .ok (code, pos') =>
      match reconMB c b h t p.done code with
      | .error f => .fault f
      | .ok r => decodeTileMBs c b h t ms code.ctx ⟨p.done ++ [r], pos'⟩

/-- One tile, from `InitCtx` and its entry (43_entropy_decoder.md R221, R226). When it starts outside the first
declared extent, its first macroblock fails, as all of them would. -/
def decodeTile (c : Config) (b : List Byte) (h : Header) (t : Tile) (p : Progress) : Decoded Progress :=
  match tileMBs t with
  | [] => .ok p
  | m :: ms =>
    match tileStart c b h t p.pos with
    | some pos => decodeTileMBs c b h t (m :: ms) (c.initCtx h t) ⟨p.done, pos⟩
    | none => .fail .corruptStream m

/-- The tiles in order, each told where the one before ended. -/
def decodeTiles (c : Config) (b : List Byte) (h : Header) : List Tile → Progress → Decoded Progress
  | [], p => .ok p
  | t :: ts, p =>
    match decodeTile c b h t p with
    | .ok p' => decodeTiles c b h ts p'
    | .fail e m => .fail e m
    | .fault f => .fault f

/-- The decode before its first tile. -/
def startProgress (c : Config) (b : List Byte) (h : Header) : Progress := ⟨[], c.dataStart b h⟩

/-- `RefDecode(B, hdr)` (45_macroblock_predictor.md R276) as the composition of R277 (log 8). -/
def refDecode (c : Config) (b : List Byte) (h : Header) : Decoded Image :=
  match decodeTiles c b h (tiles h) (startProgress c b h) with
  | .ok p => .ok (c.buildImage h p.done)
  | .fail e m => .fail e m
  | .fault f => .fault f

/-- `Outcome(x, y, w, h)` of a valid rectangle (47_session_commands.md R333): the region's samples by column, row and
channel of the region, or the error the command reports. -/
def regionOutcome (c : Config) (b : List Byte) (h : Header) (r : Rect) : Decoded Image :=
  match refDecode c b h with
  | .ok img => .ok (fun i j k => img (r.x + i) (r.y + j) k)
  | .fail e m =>
    if needed h r m then .fail e m
    else
      match c.partialDecode b h r with
      | some pix => .ok pix
      | none => .fail e m
  | .fault f => .fault f

end Sys2Proof.Machine
end

