-- ==== Sys2Proof/Machine/Session.lean ====
section
/-! DEFINITION. NOP and the decode-session commands (47_session_commands.md R325-R335): OPEN, GET_SIZE,
GET_PIXEL_FORMAT, COPY_REGION, CLOSE. Each `perform…` is the command's pseudocode over a configuration; each `exec…` is
that pseudocode with its completion, over the chip's configuration. -/

namespace Sys2Proof.Machine

/-- NOP (47_session_commands.md R325). -/
def performNop (s : State) : Perform := complete s

/-- OPEN's last part (47_session_commands.md R326), from a bound reader: accept the header, look its format up, open. -/
def openBound (c : Config) (s : State) : Perform :=
  match accept c s.sourceBytes with
  | .error e => raise e { s with rdr := Reader.unbound }
  | .ok p =>
    match registry c p.guid with
    | none => raise .unknownPixelFormat { s with rdr := Reader.unbound }
    | some d => complete ({ s with session := .opened { p with fmt := d } }.setCursor (codedBit p))

/-- OPEN (47_session_commands.md R326). -/
def performOpen (c : Config) (s : State) : Perform :=
  if ¬ rangeOk (s.u 0) (s.u 1) then raise .badAddress s
  else
    let s1 := if s.session.isOpen || s.rdr.bound then s.closeSession else s
    openBound c (s1.bindReader s.latch.args[0] s.latch.args[1])

/-- GET_SIZE (47_session_commands.md R327). -/
def performGetSize (s : State) : Perform :=
  match s.session.header? with
  | none => raise .sessionClosed s
  | some h => complete ((s.setRes 0 h.width).setRes 1 h.height)

/-- GET_PIXEL_FORMAT (47_session_commands.md R328). -/
def performGetPixelFormat (s : State) : Perform :=
  match s.session.header? with
  | none => raise .sessionClosed s
  | some h => complete (s.setDescriptor h.fmt)

/-- CLOSE (47_session_commands.md R330). -/
def performClose (s : State) : Perform := complete s.closeSession

/-! ## COPY_REGION -/

/-- `ValidRect(x, y, w, h)`, on signed 32-bit values with exact sums (47_session_commands.md R331). -/
def validRect (hdr : Header) (x y w h : Int) : Bool :=
  decide (w ≥ 1) && decide (h ≥ 1) && decide (x ≥ 0) && decide (y ≥ 0)
    && decide (x + w ≤ hdr.width) && decide (y + h ≤ hdr.height)

/-- A region request that has passed every check made before the decode (47_session_commands.md R329). -/
structure CopyJob where
  hdr : Header
  rect : Rect
  spans : RowSpans
deriving DecidableEq, Repr

/-- The rectangle operands of COPY_REGION (30_encoding.md R111), once they are known not to be negative. -/
def State.rectOperand (s : State) : Rect :=
  ⟨(s.sArg 0).toNat, (s.sArg 1).toNat, (s.sArg 2).toNat, (s.sArg 3).toNat⟩

/-- The row spans of COPY_REGION's operands in a given format (46_pixel_format_converter.md R291). -/
def State.spansOperand (s : State) (d : Descriptor) : RowSpans :=
  ⟨s.u 4, s.u 5, s.rectOperand.w * bytesPerPixel d, s.rectOperand.h⟩

/-- COPY_REGION's checks before the decode, in the order of 60_exceptions.md R364 (47_session_commands.md R329). -/
def copyChecks (s : State) : Except Error CopyJob :=
  match s.session.header? with
  | none => .error .sessionClosed
  | some h =>
    if ¬ validRect h (s.sArg 0) (s.sArg 1) (s.sArg 2) (s.sArg 3) then .error .invalidRegion
    else if h.fmt.bpp.toNat % 8 ≠ 0 then .error .unsupportedFeature
    else
      let sp := s.spansOperand h.fmt
      if sp.stride < sp.rowBytes ∨ s.u 6 < sp.stride * sp.rows then .error .bufferTooSmall
      else if ¬ rangeOk (s.u 4) (s.u 6) then .error .badAddress
      else if overlap (s.u 4) (s.u 6) s.rdr.base.toNat s.rdr.len.toNat then .error .badAddress
      else .ok ⟨h, s.rectOperand, sp⟩

/-- The error code of a decode failure (60_exceptions.md R360). -/
def decodeErrorCode : DecodeError → Error
  | .corruptStream => .corruptStream
  | .unexpectedEnd => .unexpectedEnd
  | .unsupportedFeature => .unsupportedFeature

/-- COPY_REGION after a decode that gave pixels (47_session_commands.md R329). -/
def copyWrite (s : State) (j : CopyJob) (pix : Image) : State :=
  { s with
    mem := s.mem.writeAll (regionCells j.hdr.fmt pix j.rect.w j.rect.h j.spans.base j.spans.stride)
    session := s.session.afterCopy }.setCursor (codedBit j.hdr.toParsed)

/-- COPY_REGION after a decode that failed (47_session_commands.md R329, R334). -/
def copyFail (c : Config) (s : State) (j : CopyJob) : State :=
  (s.scrambleSpans c j.spans).setCursor (codedBit j.hdr.toParsed)

/-- COPY_REGION (47_session_commands.md R329). -/
def performCopyRegion (c : Config) (s : State) : Except Fault Perform :=
  match copyChecks s with
  | .error e => .ok (raise e s)
  | .ok j =>
    match regionOutcome c s.sourceBytes j.hdr j.rect with
    | .ok pix => .ok (complete (copyWrite s j pix))
    | .fail e _ => .ok (raise (decodeErrorCode e) (copyFail c s j))
    | .fault f => .error f

/-! ## The meanings -/

/-- The meaning of NOP (47_session_commands.md R325). -/
def execNop (s : State) : Host.Outcome State Fault Refusal := finish (performNop s)

/-- The meaning of OPEN (47_session_commands.md R326). -/
def execOpen (s : State) : Host.Outcome State Fault Refusal := finish (performOpen Config.chip s)

/-- The meaning of GET_SIZE (47_session_commands.md R327). -/
def execGetSize (s : State) : Host.Outcome State Fault Refusal := finish (performGetSize s)

/-- The meaning of GET_PIXEL_FORMAT (47_session_commands.md R328). -/
def execGetPixelFormat (s : State) : Host.Outcome State Fault Refusal := finish (performGetPixelFormat s)

/-- The meaning of COPY_REGION (47_session_commands.md R329). -/
def execCopyRegion (s : State) : Host.Outcome State Fault Refusal :=
  match performCopyRegion Config.chip s with
  | .ok p => finish p
  | .error f => .fault f

/-- The meaning of CLOSE (47_session_commands.md R330). -/
def execClose (s : State) : Host.Outcome State Fault Refusal := finish (performClose s)

end Sys2Proof.Machine
end

