-- ==== Sys2Proof/Machine/Dispatch.lean ====
section
/-! DEFINITION. The dispatch: one arm per command of 30_encoding.md R112, each one direct call of its meaning. -/

namespace Sys2Proof.Machine

/-- The perform and completion of a command (47_session_commands.md R321). -/
def exec (i : Instr) (s : State) : Host.Outcome State Fault Refusal :=
  match i with
  | .nop => Sys2Proof.Machine.execNop s
  | .openSession => Sys2Proof.Machine.execOpen s
  | .getSize => Sys2Proof.Machine.execGetSize s
  | .getPixelFormat => Sys2Proof.Machine.execGetPixelFormat s
  | .copyRegion => Sys2Proof.Machine.execCopyRegion s
  | .close => Sys2Proof.Machine.execClose s
  | .lookupPixelFormat => Sys2Proof.Machine.execLookupPixelFormat s
  | .brBind => Sys2Proof.Machine.execBrBind s
  | .brReadBits => Sys2Proof.Machine.execBrReadBits s
  | .brAlign => Sys2Proof.Machine.execBrAlign s
  | .brSeek => Sys2Proof.Machine.execBrSeek s
  | .brTell => Sys2Proof.Machine.execBrTell s

end Sys2Proof.Machine
end

