-- ==== Sys2Proof/Machine/Flags.lean ====
section
/-! DEFINITION. The flags (10_state.md R49): the words of CTRL and STATUS as the host reads them (R33, R34), the
writes of both (R33, R35), the error codes (60_exceptions.md R360) and the interrupt request (R363). -/

namespace Sys2Proof.Machine

/-- The code of an error (60_exceptions.md R360). -/
def Error.code : Error → BitVec 4
  | .invalidFormat => 1
  | .unsupportedFeature => 2
  | .unknownPixelFormat => 3
  | .corruptStream => 4
  | .invalidRegion => 5
  | .bufferTooSmall => 6
  | .unexpectedEnd => 7
  | .sessionClosed => 8
  | .illegalCommand => 9
  | .badAddress => 10

/-- STATUS.ERR_CODE: the code of an outcome, 0 for OK (60_exceptions.md R360). -/
def errCode : Option Error → BitVec 4
  | none => 0
  | some e => e.code

/-- STATUS.SESSION (10_state.md R42). -/
def Session.code : Session → BitVec 2
  | .closed => 0
  | .opened _ => 1
  | .decoding _ => 2

/-- STATUS.BUSY, equal to `L.valid` (10_state.md R41). -/
def State.busy (s : State) : Bool := s.latch.valid

/-- STATUS.ERROR, equal to `ERR_CODE != 0` (10_state.md R34). -/
def State.errorFlag (s : State) : Bool := errCode s.err != 0

/-- The STATUS word (10_state.md R34), from bit 31 down. -/
def State.statusWord (s : State) : Word :=
  0#11 ++ BitVec.ofBool s.rdr.bound ++ 0#2 ++ s.session.code ++ 0#4 ++ errCode s.err ++ 0#4
    ++ BitVec.ofBool s.overrun ++ BitVec.ofBool s.errorFlag ++ BitVec.ofBool s.done ++ BitVec.ofBool s.busy

/-- The CTRL word (10_state.md R33). -/
def State.ctrlWord (s : State) : Word := 0#31 ++ BitVec.ofBool s.irqEn

/-- A write to CTRL: bit 0 is IRQ_EN, the others are ignored (10_state.md R33). -/
def State.ctrlWrite (s : State) (v : Word) : State := { s with irqEn := v.getLsbD 0 }

/-- A write to STATUS: 1 in bit 1 clears DONE, 1 in bit 3 clears OVERRUN, the rest is ignored (10_state.md R35). -/
def State.statusWrite (s : State) (v : Word) : State :=
  let s1 := if v.getLsbD 1 then s.acknowledge else s
  { s1 with overrun := s.overrun && !v.getLsbD 3 }

/-- `IRQ = CTRL.IRQ_EN and STATUS.DONE` (60_exceptions.md R363). -/
def State.irq (s : State) : Bool := s.irqEn && s.done

end Sys2Proof.Machine
end

