-- ==== Sys2Proof/Machine/Host.lean ====
section
/-! DEFINITION. The host's side: reads and writes of the register window (10_state.md R30-R39), reads and writes of
host memory under the duties of 20_memory.md R94, what other instances write there (R96), the reset input
(70_reset_and_hazards.md R390-R392), and the platform's address decoder (20_memory.md R90). -/

namespace Sys2Proof.Machine

/-! ## The register window -/

/-- The register at an aligned offset (10_state.md R30): the value a 32-bit read returns. -/
def State.regWord (s : State) (off : Nat) : Word :=
  if off = 0x00 then idValue
  else if off = 0x04 then s.ctrlWord
  else if off = 0x08 then s.statusWord
  else if off = 0x0C then s.cmd
  else if h : 0x10 ≤ off ∧ off < 0x30 then s.args[(off - 0x10) / 4]'(by omega)
  else if h : 0x30 ≤ off ∧ off < 0x50 then s.res[(off - 0x30) / 4]'(by omega)
  else 0

/-- A 32-bit write to the register at an aligned offset (10_state.md R30, R32-R39). -/
def State.setRegWord (s : State) (off : Nat) (v : Word) : State :=
  if off = 0x04 then s.ctrlWrite v
  else if off = 0x08 then s.statusWrite v
  else if off = 0x0C then s.onCmdWrite v
  else if h : 0x10 ≤ off ∧ off < 0x30 then { s with args := s.args.set ((off - 0x10) / 4) v (by omega) }
  else s

/-- An access the window accepts: 32 bits wide at a 4-byte-aligned offset (10_state.md R31). -/
def windowAccess (off : BitVec 8) (n : Nat) : Bool := decide (n = 4) && decide (off.toNat % 4 = 0)

/-- A host write at a window offset (10_state.md R31): little-endian, and without effect if it is not 32 bits wide
and aligned. -/
def State.regWrite (s : State) (off : BitVec 8) (data : List Byte) : State :=
  if windowAccess off data.length then s.setRegWord off.toNat (BitVec.ofNat 32 (leNat data)) else s

/-- A host read of `n` bytes at a window offset (10_state.md R31): little-endian, and 0 in every byte if it is not
32 bits wide and aligned. -/
def State.regRead (s : State) (off : BitVec 8) (n : Nat) : List Byte :=
  if windowAccess off n then leBytes 4 (s.regWord off.toNat).toNat else List.replicate n 0

/-! ## Host memory -/

/-- The command latched and not yet performed, if it is a legal one (10_state.md R41). -/
def State.runningCommand (s : State) : Option Instr :=
  if s.latch.valid then
    match decodeWord s.fetchWord with
    | .ok i => some i
    | .error _ => none
  else none

/-- A COPY_REGION is running: BUSY = 1 for it (20_memory.md R94). -/
def State.copyRunning (s : State) : Bool := s.runningCommand == some .copyRegion

/-- The row spans of a running COPY_REGION that passes its checks (70_reset_and_hazards.md R392). -/
def State.runningSpans (s : State) : Option RowSpans :=
  if s.copyRunning then
    match copyChecks s with
    | .ok j => some j.spans
    | .error _ => none
  else none

/-- An address is a byte of the output range of a running COPY_REGION (20_memory.md R94, duty (2)). -/
def State.inRunningOutput (s : State) (a : Nat) : Bool := s.copyRunning && inRange (s.u 4) (s.u 6) a

/-- A host write to an address breaks a duty of 20_memory.md R94. -/
def State.breaksDuty (s : State) (a : Nat) : Bool := s.isSourceByte a || s.inRunningOutput a

/-- A byte write to host memory by the host (20_memory.md R94). One that breaks a duty is given no move, as R94 says:
"A model gives duties (1) and (2) no host move" (93_implementation_defined.md U16; log 17). -/
def hostMemWrite (s : State) (a : Word) (b : Byte) : Host.Outcome State Fault Refusal :=
  if s.breaksDuty a.toNat then .refused .hostBreaksDuty
  else .next { s with mem := s.mem.write a.toNat b }

/-- An address is a row-span byte of the running COPY_REGION, whether its checks will pass or not
(20_memory.md R94; log 18). -/
def State.inRunningSpan (s : State) (a : Nat) : Bool :=
  match s.session.header? with
  | some h => s.copyRunning && (spanAddrs (s.spansOperand h.fmt)).contains a
  | none => false

/-- An address is a byte that another instance's output range shares, both BUSY (20_memory.md R96), and no source byte
(log 20). -/
def State.isContested (s : State) (a : Nat) : Bool :=
  (s.contested.any fun r => decide (r.lo ≤ a) && decide (a < r.hi)) && !s.isSourceByte a

/-- A byte read of host memory by the host: a row-span byte of a running COPY_REGION is a fresh draw (20_memory.md R94),
and so is a byte it shares with another instance's output (R96). -/
def hostMemRead (c : Config) (s : State) (a : Word) : State :=
  if s.inRunningSpan a.toNat || s.isContested a.toNat then { s with busData := [c.anyByte s.draws], draws := s.draws + 1 }
  else { s with busData := [s.mem.read a.toNat] }

/-! ## Other instances (20_memory.md R96; log 20) -/

/-- The part of the running COPY_REGION's output range that the range `[base, base + len)` shares. -/
def State.sharedOutput (s : State) (base len : Word) : AddrRange :=
  ⟨max base.toNat (s.u 4), min (min (base.toNat + len.toNat) (s.u 4 + s.u 6)) addrSpace⟩

/-- Another instance is BUSY for a COPY_REGION with output range `[base, base + len)`. What it shares with the output
range of a COPY_REGION running here is contested (20_memory.md R96). A range that meets the source bound here writes
nothing by that alone: it breaks no duty until a byte of the source is written (`otherWrite`). -/
def otherCopy (s : State) (base len : Word) : State :=
  if s.copyRunning then { s with contested := s.sharedOutput base len :: s.contested } else s

/-- Another instance writes a byte of its output range. If it is a byte of this instance's running output too, the byte
is contested, and what memory then holds is a fresh draw (20_memory.md R96). A byte of the source bound here has no
move: instances may share a source only while "the byte buffer itself is treated as read-only" (R96), which is the
host's duty (1) of R94 (log 17). -/
def otherWrite (c : Config) (s : State) (a : Word) (b : Byte) : Host.Outcome State Fault Refusal :=
  if s.isSourceByte a.toNat then .refused .hostBreaksDuty
  else if s.inRunningOutput a.toNat then
    .next { s with
      mem := s.mem.write a.toNat (c.anyByte s.draws)
      draws := s.draws + 1
      contested := ⟨a.toNat, a.toNat + 1⟩ :: s.contested }
  else .next { s with mem := s.mem.write a.toNat b }

/-- What a command leaves once the races of its run are settled: the contested bytes are fresh draws, whatever the
command wrote to them (20_memory.md R96). With nothing contested it changes nothing. -/
def settleRace (c : Config) : Host.Outcome State Fault Refusal → Host.Outcome State Fault Refusal
  | .next t => .next (t.drawContested c)
  | .fault f => .fault f
  | .refused r => .refused r

/-! ## Reset -/

/-- What reset leaves of memory (70_reset_and_hazards.md R392): the row spans of a COPY_REGION that had passed its
checks are free, every other byte is unchanged. -/
def State.abandonCopy (c : Config) (s : State) : State :=
  match s.runningSpans with
  | some sp => s.scrambleSpans c sp
  | none => s

/-- The reset input (70_reset_and_hazards.md R390-R392): every piece of the block's state takes its reset value. A
COPY_REGION that was running leaves the bytes it shared with another instance's output free (20_memory.md R96). The
rest of host memory and what belongs to the host, not to the block, stay (log 19). -/
def State.resetInput (c : Config) (s : State) : State :=
  let s1 := (s.abandonCopy c).drawContested c
  { State.reset with mem := s1.mem, draws := s1.draws, host := s1.host, busData := s1.busData }

/-! ## Host events -/

/-- The little-endian bytes of a 32-bit register write (10_state.md R31). -/
def wordBytes (v : Word) : List Byte := leBytes 4 v.toNat

/-- One host event that is not the block's turn. `blockTurn` and `wait` are the step's own (Machine/Step.lean); here
they change nothing. -/
def hostStep (c : Config) (e : HostEvent) (s : State) : Host.Outcome State Fault Refusal :=
  match e with
  | .regWrite off data => .next (s.regWrite off data)
  | .regRead off n => .next { s with busData := s.regRead off n }
  | .memWrite a b => hostMemWrite s a b
  | .memRead a => .next (hostMemRead c s a)
  | .otherCopy base len => .next (otherCopy s base len)
  | .otherWrite a b => otherWrite c s a b
  | .reset => .next (s.resetInput c)
  | .blockTurn => .next s
  | .wait => .next { s with busData := s.regRead 0x08 4 }
  | .moveReg src dst => .next { s.regWrite dst (s.regRead src 4) with busData := s.regRead src 4 }
  | .skipOnError n =>
    .next { s with busData := s.regRead 0x08 4, host := if s.errorFlag then s.host.drop n else s.host }

/-! ## The platform's address decoder -/

/-- `REG_BASE`, aligned to 0x100 (00_scope.md R9, 20_memory.md R90). -/
def regBase (c : Config) : Word := c.regBaseHigh ++ 0#8

/-- `N_INSTANCES`, at least 1 (00_scope.md R9, 60_exceptions.md R373). -/
def nInstances (c : Config) : Nat := c.otherInstances + 1

/-- The window offset of a host address, if the register window holds it (20_memory.md R90). -/
def windowOffset (c : Config) (a : Word) : Option (BitVec 8) :=
  if a.extractLsb' 8 24 = c.regBaseHigh then some (a.extractLsb' 0 8) else none

/-- A host access of `n` bytes that starts outside the register window, as the host-memory addresses it reaches, each
with the place of its byte. Bytes at or past `2^ADDR_W`, and bytes whose address the window holds, are left out, of a
load as of a store: DESIGN CHOICE (log 26). The spec is silent on both (20_memory.md R80, R90). -/
def memAccesses (c : Config) (a : Word) (n : Nat) : List (Nat × Word) :=
  (List.range n).filterMap fun k =>
    if a.toNat + k < addrSpace ∧ windowOffset c (a + BitVec.ofNat 32 k) = none then some (k, a + BitVec.ofNat 32 k)
    else none

/-- A host store of the bytes `data` at a bus address: one register access when it starts in the window, and otherwise
byte writes to host memory (20_memory.md R80, R90; log 26). -/
def busStore (c : Config) (a : Word) (data : List Byte) : List HostEvent :=
  match windowOffset c a with
  | some off => [.regWrite off data]
  | none => (memAccesses c a data.length).map fun x => .memWrite x.2 (data.getD x.1 0)

/-- A host load of `n` bytes at a bus address: one register access when it starts in the window, and otherwise byte
reads of host memory, one for each byte that `memAccesses` does not leave out: none past the top address `2^32 - 1`,
where the model does not wrap to address 0 (20_memory.md R80, R90; DESIGN CHOICE, log 26). -/
def busLoad (c : Config) (a : Word) (n : Nat) : List HostEvent :=
  match windowOffset c a with
  | some off => [.regRead off n]
  | none => (memAccesses c a n).map fun x => .memRead x.2

end Sys2Proof.Machine
end

