-- ==== Sys2Proof/Machine/Step.lean ====
section
/-! DEFINITION. One step of the machine: the host's next event, or the block's step (00_scope.md R18,
47_session_commands.md R321, 60_exceptions.md R365). The block fetches nothing (10_state.md R48): the word it decodes
is the one the latch holds. -/

namespace Sys2Proof.Machine

/-- `BlockStep()` (47_session_commands.md R321): enabled only when `L.valid = 1`. An idle block does nothing
(60_exceptions.md R375); races with other instances' outputs are settled as the command completes (20_memory.md R96);
an illegal word completes with IllegalCommand (30_encoding.md R113). -/
def blockStep (s : State) : Host.Outcome State Fault Refusal :=
  if s.latch.valid then
    match decodeWord s.fetchWord with
    | .ok i => settleRace Config.chip (exec i s)
    | .error _ => illegalCommand s
  else .next s

/-- One step. The host's events happen in their order; the block's step comes where the queue says, and when the queue
is empty, since an accepted command always completes (47_session_commands.md R321, 70_reset_and_hazards.md R398; log 2).
`WAIT` stays at the head of the queue until BUSY is 0 (30_encoding.md R119). -/
def step (s : State) : Host.Outcome State Fault Refusal :=
  match s.host with
  | [] => blockStep s
  | .blockTurn :: es => blockStep { s with host := es }
  | .wait :: es => if s.latch.valid then blockStep s else hostStep Config.chip .wait { s with host := es }
  | e :: es => hostStep Config.chip e { s with host := es }

/-- The state in which the host's CMD write of the word `w` has just been accepted (47_session_commands.md R320) and the
block's step comes next (log 3). -/
def State.withFetchWord (s : State) (nbits w : Nat) : State :=
  { s.latchCommand (BitVec.ofNat 32 (w % 2 ^ nbits)) with host := .blockTurn :: s.host }

end Sys2Proof.Machine
end

