-- ==== Sys2Proof/Machine/Assembler.lean ====
section
/-! DEFINITION. The assembler of 30_encoding.md R118 and R119: a line as the host events it stands for. -/

namespace Sys2Proof.Machine

/-- `W off, v` (30_encoding.md R118): one 32-bit host write of `v mod 2^32`. -/
def writeEvent (off : Nat) (v : Int) : HostEvent := .regWrite (BitVec.ofNat 8 off) (wordBytes (BitVec.ofInt 32 v))

/-- `R off` (30_encoding.md R118). -/
def readEvent (off : Nat) : HostEvent := .regRead (BitVec.ofNat 8 off) 4

/-- The CMD write and the wait that end a command's line (30_encoding.md R118). -/
def issue (i : Instr) : List HostEvent := [writeEvent 0x0C (encode i).toNat, .wait]

/-- The ARG writes of a line, in order, from register `i` up (30_encoding.md R118). -/
def argWrites (i : Nat) : List Int → List HostEvent
  | [] => []
  | v :: vs => writeEvent (0x10 + 4 * i) v :: argWrites (i + 1) vs

/-- A line `MNEMONIC a0, a1, ...` (30_encoding.md R118). -/
def commandEvents (i : Instr) (operands : List Int) : List HostEvent := argWrites 0 operands ++ issue i

/-- `COPY_ALL` after its GET_SIZE (30_encoding.md R119). -/
def copyAllTail (out stride len : Int) : List HostEvent :=
  [writeEvent 0x10 0, writeEvent 0x14 0, .moveReg 0x30 0x18, .moveReg 0x34 0x1C,
   writeEvent 0x20 out, writeEvent 0x24 stride, writeEvent 0x28 len] ++ issue .copyRegion

/-- The host events of a line (30_encoding.md R118, R119). -/
def AsmLine.events : AsmLine → List HostEvent
  | .command i operands => commandEvents i operands
  | .lookup guid => commandEvents .lookupPixelFormat ((guidWords guid).map fun w => (w.toNat : Int))
  | .write off v => [writeEvent off v]
  | .read off => [readEvent off]
  | .comment => []
  | .wait => [.wait]
  | .copyAll out stride len =>
    issue .getSize ++ .skipOnError (copyAllTail out stride len).length :: copyAllTail out stride len
  | .reopen base len => commandEvents .close [] ++ commandEvents .openSession [base, len]
  | .brSkip n => commandEvents .brReadBits [(n : Int)]
  | .ack => [writeEvent 0x08 0x0000000A]

/-- A program as the host events it stands for; none when a line is not well formed. -/
def assemble (lines : List AsmLine) : Option (List HostEvent) :=
  if lines.all AsmLine.wellFormed then some (lines.flatMap AsmLine.events) else none

/-- A mnemonic of 30_encoding.md R112, letter by letter. -/
def mnemonicOf : Instr → List Char
  | .nop => ['N', 'O', 'P']
  | .openSession => ['O', 'P', 'E', 'N']
  | .getSize => ['G', 'E', 'T', '_', 'S', 'I', 'Z', 'E']
  | .getPixelFormat => ['G', 'E', 'T', '_', 'P', 'I', 'X', 'E', 'L', '_', 'F', 'O', 'R', 'M', 'A', 'T']
  | .copyRegion => ['C', 'O', 'P', 'Y', '_', 'R', 'E', 'G', 'I', 'O', 'N']
  | .close => ['C', 'L', 'O', 'S', 'E']
  | .lookupPixelFormat =>
    ['L', 'O', 'O', 'K', 'U', 'P', '_', 'P', 'I', 'X', 'E', 'L', '_', 'F', 'O', 'R', 'M', 'A', 'T']
  | .brBind => ['B', 'R', '_', 'B', 'I', 'N', 'D']
  | .brReadBits => ['B', 'R', '_', 'R', 'E', 'A', 'D', '_', 'B', 'I', 'T', 'S']
  | .brAlign => ['B', 'R', '_', 'A', 'L', 'I', 'G', 'N']
  | .brSeek => ['B', 'R', '_', 'S', 'E', 'E', 'K']
  | .brTell => ['B', 'R', '_', 'T', 'E', 'L', 'L']

/-! ## The text of a line (30_encoding.md R118) -/

/-- The value of a hexadecimal or decimal digit. -/
def digitValue (ch : Char) : Option Nat :=
  let n := ch.toNat
  if 48 ≤ n ∧ n ≤ 57 then some (n - 48)
  else if 65 ≤ n ∧ n ≤ 70 then some (n - 55)
  else if 97 ≤ n ∧ n ≤ 102 then some (n - 87)
  else none

/-- The number a digit string writes in a base, most significant digit first. -/
def digitsValue (base : Nat) : Nat → List Char → Option Nat
  | acc, [] => some acc
  | acc, ch :: rest =>
    match digitValue ch with
    | some d => if d < base then digitsValue base (base * acc + d) rest else none
    | none => none

/-- An unsigned integer, decimal or with `0x` (30_encoding.md R118). -/
def parseNat : List Char → Option Nat
  | [] => none
  | ['0', 'x'] => none
  | '0' :: 'x' :: ds => digitsValue 16 0 ds
  | ds => digitsValue 10 0 ds

/-- An integer operand (30_encoding.md R118); a minus sign may lead, since operands are taken modulo 2^32. -/
def parseInt : List Char → Option Int
  | '-' :: ds => (parseNat ds).map fun n => -(n : Int)
  | ds => (parseNat ds).map fun n => (n : Int)

/-- A character between the words of a line: a space or a comma. -/
def isSeparator (ch : Char) : Bool := ch == ' ' || ch == ','

/-- The words of a line up to its comment; `cur` is the word being read, last character first. -/
def wordsOf (cur : List Char) : List Char → List (List Char)
  | [] => if cur.isEmpty then [] else [cur.reverse]
  | ch :: rest =>
    if ch == ';' then (if cur.isEmpty then [] else [cur.reverse])
    else if isSeparator ch then (if cur.isEmpty then wordsOf [] rest else cur.reverse :: wordsOf [] rest)
    else wordsOf (ch :: cur) rest

/-- Every word of a list, or none. -/
def mapOption {α β : Type} (f : α → Option β) : List α → Option (List β)
  | [] => some []
  | a :: rest =>
    match f a, mapOption f rest with
    | some b, some bs => some (b :: bs)
    | _, _ => none

/-- The brace that opens (123) or closes (125) a GUID literal (30_encoding.md R118). -/
def isBrace (ch : Char) : Bool := ch.toNat == 123 || ch.toNat == 125

/-- One byte of a GUID literal: one or two hexadecimal digits, the braces taken off. -/
def parseGuidByte (w : List Char) : Option Byte :=
  let ds := w.filter fun ch => !isBrace ch
  if ds.isEmpty || decide (ds.length > 2) then none else (digitsValue 16 0 ds).map fun n => BitVec.ofNat 8 n

/-- The command a mnemonic names (30_encoding.md R112). -/
def parseMnemonic (w : List Char) : Option Instr := Instr.all.find? fun i => mnemonicOf i == w

/-- A line with a mnemonic of the opcode map (30_encoding.md R118). -/
def parseCommand (w : List Char) (operands : List (List Char)) : Option AsmLine :=
  match parseMnemonic w with
  | none => none
  | some .lookupPixelFormat =>
    if operands.isEmpty then some (.command .lookupPixelFormat []) else (mapOption parseGuidByte operands).map .lookup
  | some i => (mapOption parseInt operands).map (.command i)

/-- The reading of a line of text under 30_encoding.md R118 and R119; none for any other text. -/
def parseLine (text : List Char) : Option AsmLine :=
  match wordsOf [] text with
  | [] => some .comment
  | [['W'], off, v] =>
    match parseNat off, parseInt v with
    | some o, some x => some (.write o x)
    | _, _ => none
  | [['R'], off] => (parseNat off).map .read
  | [['W', 'A', 'I', 'T']] => some .wait
  | [['A', 'C', 'K']] => some .ack
  | [['B', 'R', '_', 'S', 'K', 'I', 'P'], n] => (parseNat n).map .brSkip
  | [['R', 'E', 'O', 'P', 'E', 'N'], base, len] =>
    match parseInt base, parseInt len with
    | some x, some y => some (.reopen x y)
    | _, _ => none
  | [['C', 'O', 'P', 'Y', '_', 'A', 'L', 'L'], out, stride, len] =>
    match parseInt out, parseInt stride, parseInt len with
    | some x, some y, some z => some (.copyAll x y z)
    | _, _, _ => none
  | w :: operands => parseCommand w operands

end Sys2Proof.Machine
end

