-- ==== Sys2Proof/Safety.lean ====
section
/-! DEFINITION. What the claims speak of: the invariants that every step keeps (47_session_commands.md R323), the
conditions under which a command runs, what a command may change, and runs of commands. -/

namespace Sys2Proof

open Machine

/-! ## Invariants -/

/-- R323 (3) and (5) of the reader, and that its source lies inside host memory (20_memory.md R83). -/
def ReaderInv (r : Reader) : Prop :=
  r.bitpos.toNat ≤ 8 * r.len.toNat ∧ r.base.toNat + r.len.toNat ≤ addrSpace ∧ (r.bound = false → r = Reader.unbound)

/-- What OPEN's checks leave true of a stored header over a source of `len` bytes (41_container_header_parser.md R174,
42_pixel_format_registry.md R206). -/
def HeaderInv (h : Header) (len : Nat) : Prop :=
  (1 ≤ h.width ∧ h.width ≤ maxDim) ∧ (1 ≤ h.height ∧ h.height ≤ maxDim) ∧
  (∀ e ∈ h.extents, e.offset + e.length ≤ len) ∧
  (∃ e, h.extents.head? = some e ∧ h.codedOffset.toNat = e.offset) ∧ descriptorOk h.fmt = true

/-- The command frame between steps (47_session_commands.md R320, R321): while BUSY, DONE is 0 and ERR_CODE is 0
(10_state.md R34), and the latch holds the word that CMD reads back, with its OP (10_state.md R36, R41). -/
def FrameInv (s : State) : Prop :=
  (s.latch.valid = true → s.done = false ∧ s.err = none) ∧ s.cmd = s.latch.word ∧ s.latch.op = opField s.latch.word

/-- An address is one that another instance's output shares with the running one, both BUSY (20_memory.md R96), and is
no source byte (log 20). -/
def Contested (s : State) (a : Nat) : Prop := (∃ r ∈ s.contested, r.lo ≤ a ∧ a < r.hi) ∧ s.isSourceByte a = false

/-- What another instance can share: nothing unless a COPY_REGION is running here, and then addresses of host memory in
its output range (20_memory.md R96). -/
def RaceInv (s : State) : Prop :=
  (s.copyRunning = false → s.contested = []) ∧
  ∀ r ∈ s.contested, ∀ a, r.lo ≤ a → a < r.hi → a < addrSpace ∧ s.u 4 ≤ a ∧ a < s.u 4 + s.u 6

/-- The invariants of 47_session_commands.md R323 with those of the frame (10_state.md R34, R36, R41), of the source's
range (20_memory.md R83), of the accepted header (41_container_header_parser.md R174) and its descriptor
(42_pixel_format_registry.md R206), of races (20_memory.md R96), and with the model's own canonical form of memory
(log 1). (2) of R323, no header without a session, is the type `Session` itself. -/
def MachineInv (s : State) : Prop :=
  s.mem.wf = true ∧ ReaderInv s.rdr ∧ FrameInv s ∧ RaceInv s ∧
  (∀ h, s.session.header? = some h → s.rdr.bound = true ∧ HeaderInv h s.rdr.len.toNat)

/-- The stored header is what the chip's parser and registry give for the bytes now bound (10_state.md R44: "Parsed once
per session; read-only thereafter"; 20_memory.md R97). -/
def HeaderOfSource (s : State) : Prop :=
  ∀ h, s.session.header? = some h →
    accept Config.chip s.sourceBytes = .ok h.toParsed ∧ registry Config.chip h.guid = some h.fmt

/-! ## When COPY_REGION reaches the decode -/

/-- The checks COPY_REGION makes before the decode all pass, for a session with header `h`
(47_session_commands.md R329). -/
def CopyReaches (h : Header) (s : State) : Prop :=
  s.session.header? = some h ∧
  (1 ≤ s.sArg 2 ∧ 1 ≤ s.sArg 3 ∧ 0 ≤ s.sArg 0 ∧ 0 ≤ s.sArg 1 ∧
    s.sArg 0 + s.sArg 2 ≤ h.width ∧ s.sArg 1 + s.sArg 3 ≤ h.height) ∧
  h.fmt.bpp.toNat % 8 = 0 ∧
  (s.sArg 2).toNat * bytesPerPixel h.fmt ≤ s.u 5 ∧ s.u 5 * (s.sArg 3).toNat ≤ s.u 6 ∧
  s.u 4 + s.u 6 ≤ addrSpace ∧
  ¬ (0 < s.u 6 ∧ 0 < s.rdr.len.toNat ∧ s.u 4 < s.rdr.base.toNat + s.rdr.len.toNat ∧ s.rdr.base.toNat < s.u 4 + s.u 6)

/-- An address is a byte of a row span of COPY_REGION's operands, in the format of header `h`
(46_pixel_format_converter.md R291). -/
def CopySpan (h : Header) (s : State) (a : Nat) : Prop :=
  ∃ r k, r < (s.sArg 3).toNat ∧ k < (s.sArg 2).toNat * bytesPerPixel h.fmt ∧ a = s.u 4 + r * s.u 5 + k

/-- The rectangle of COPY_REGION's operands, which are not negative once its checks pass. -/
def copyRect (s : State) : Rect := ⟨(s.sArg 0).toNat, (s.sArg 1).toNat, (s.sArg 2).toNat, (s.sArg 3).toNat⟩

/-! ## What a command changes -/

/-- The state the completion leaves (47_session_commands.md R321) when the pseudocode left `s` and raised `e`. -/
def completed (s : State) (e : Option Error) : State :=
  { s with err := e, done := true, latch := { s.latch with valid := false } }

/-- No session and no source bound: what `CloseSession()` leaves (47_session_commands.md R330). -/
def closedState (s : State) : State := { s with session := .closed, rdr := Reader.unbound }

/-- `s` with the cursor at bit `p` (10_state.md R43). -/
def cursorAt (s : State) (p : Nat) : State := { s with rdr := { s.rdr with bitpos := BitVec.ofNat 35 p } }

/-- RES0 to RES4 for a descriptor, RES5 to RES7 as in `r` (42_pixel_format_registry.md R201). -/
def descriptorRes (r : Vector Word 8) (d : Descriptor) : Vector Word 8 :=
  #v[d.channels, (colorCode d.color).setWidth 32, (depthCode d.depth).setWidth 32, d.bpp,
    0#29 ++ BitVec.ofBool d.channelOrderReversed ++ BitVec.ofBool d.premultipliedAlpha ++ BitVec.ofBool d.hasAlpha,
    r[5], r[6], r[7]]

/-- What no command writes: the host's registers, the latch but for its valid bit, OVERRUN, the host's queue, and what
other instances share (10_state.md R33-R37, R41, 20_memory.md R96). -/
def HostSideKept (s t : State) : Prop :=
  t.irqEn = s.irqEn ∧ t.overrun = s.overrun ∧ t.cmd = s.cmd ∧ t.args = s.args ∧ t.latch.op = s.latch.op ∧
  t.latch.word = s.latch.word ∧ t.latch.args = s.latch.args ∧ t.host = s.host ∧ t.busData = s.busData ∧
  t.contested = s.contested

/-! ## Runs of commands -/

/-- Commands one after another, each with its own latched arguments (47_session_commands.md R320, R321): the host writes
the ARG registers, issues the command and waits. None when a command does not complete. -/
def runCommands : List (Instr × Vector Word 8) → State → Option State
  | [], s => some s
  | (i, a) :: rest, s =>
    match exec i ({ s with args := a }.latchCommand (encode i)) with
    | .next t => runCommands rest t
    | .fault _ => none
    | .refused _ => none

/-- A run of `k` steps with no fault and no refusal. -/
def SafeRun (k : Nat) (s : State) : Prop := ∃ t, Host.Core.run core k s = .next t

end Sys2Proof
end

