-- ==== Sys2Proof/Certificates/Slice0/Obligations.lean ====
section
/-! DEFINITION. The statements about the model, for the provers. Each one's docstring says which rule of spec/ it
formalises. Where a statement speaks of the open parameters it says so: over the chip's own configuration
`Config.chip`, which is uninterpreted, or over every configuration `c`. -/

open Sys2Proof Sys2Proof.Machine

/-! ## Encoding -/

/-- 30_encoding.md R112: the twelve words of the opcode map, each decoded to its command. -/
def Obligations.TableWordsDecodeToTheirCommands : Prop :=
  decodeWord 0x00000000 = .ok .nop ∧ decodeWord 0x00000001 = .ok .openSession ∧
  decodeWord 0x00000002 = .ok .getSize ∧ decodeWord 0x00000003 = .ok .getPixelFormat ∧
  decodeWord 0x00000004 = .ok .copyRegion ∧ decodeWord 0x00000005 = .ok .close ∧
  decodeWord 0x00000006 = .ok .lookupPixelFormat ∧ decodeWord 0x00000010 = .ok .brBind ∧
  decodeWord 0x00000011 = .ok .brReadBits ∧ decodeWord 0x00000012 = .ok .brAlign ∧
  decodeWord 0x00000013 = .ok .brSeek ∧ decodeWord 0x00000014 = .ok .brTell

/-- 30_encoding.md R110, R112, R115: decoding the bytes of a command's word gives the command back, with the bytes
after it, and every byte list that decodes to a command begins with exactly that command's word. -/
def Obligations.DecodeAndEncodeAgree : Prop :=
  (∀ (i : Instr) (rest : List Byte), i.wellFormed = true → decode (encodeBytes i ++ rest) = .ok (i, rest)) ∧
  (∀ (bs : List Byte) (i : Instr) (rest : List Byte), decode bs = .ok (i, rest) → bs = encodeBytes i ++ rest) ∧
  (∀ (w : Word) (i : Instr), decodeWord w = .ok i ↔ w = encode i)

/-- 30_encoding.md R113: which words are illegal, that an idle block accepts and latches them like any word, and that
their block step, wherever the host's queue (log 2) puts it, changes STATUS alone and completes with IllegalCommand. -/
def Obligations.IllegalWordsChangeStatusAlone : Prop :=
  ∀ w : Word,
    ((∃ e, decodeWord w = .error e) ↔
      w.toNat / 256 ≠ 0 ∨ (0x07 ≤ w.toNat % 256 ∧ w.toNat % 256 ≤ 0x0F) ∨ 0x15 ≤ w.toNat % 256) ∧
    (∀ s : State, s.latch.valid = false → (s.onCmdWrite w).busy = true ∧ (s.onCmdWrite w).latch.word = w) ∧
    (∀ s : State, s.latch.valid = true → s.latch.word = w → (∃ e, decodeWord w = .error e) →
      (s.host = [] → step s = .next (completed s (some .illegalCommand))) ∧
      (∀ es, s.host = .blockTurn :: es → step s = .next (completed { s with host := es } (some .illegalCommand))) ∧
      (∀ es, s.host = .wait :: es → step s = .next (completed s (some .illegalCommand))))

/-! ## The step -/

/-- 47_session_commands.md R321: when a command is latched, the block's step is the perform and completion of the
command its word decodes to. What the step adds is the host's queue (log 2): the mark `blockTurn` is taken off, and
`WAIT` stays at its head; and the settling of races with other instances (20_memory.md R96), which is nothing when
nothing is contested. -/
def Obligations.StepRunsTheLatchedCommand : Prop :=
  ∀ (s : State) (i : Instr), s.latch.valid = true → decodeWord s.latch.word = .ok i → i.wellFormed = true →
    (s.host = [] → step s = settleRace Config.chip (exec i s)) ∧
    (∀ es, s.host = .blockTurn :: es → step s = settleRace Config.chip (exec i { s with host := es })) ∧
    (∀ es, s.host = .wait :: es → step s = settleRace Config.chip (exec i s)) ∧
    (s.contested = [] → settleRace Config.chip (exec i s) = exec i s)

/-- 60_exceptions.md R375: a block that is not BUSY does nothing, and R119's `WAIT` is over as soon as BUSY reads 0
(the host's last read is then the STATUS word). -/
def Obligations.IdleBlockDoesNothing : Prop :=
  ∀ s : State, s.latch.valid = false →
    (s.host = [] → step s = .next s) ∧
    (∀ es, s.host = .blockTurn :: es → step s = .next { s with host := es }) ∧
    (∀ es, s.host = .wait :: es → step s = .next { s with host := es, busData := wordBytes s.statusWord })

/-- 60_exceptions.md R361, 44_inverse_transform.md R253: no step of any state records a model fault. -/
def Obligations.NoStepFaults : Prop := ∀ (s : State) (f : Fault), step s ≠ .fault f

/-- 20_memory.md R94, R96: the only step the model refuses is a host memory write that breaks a duty, or a byte that
another instance writes into the source bound here (log 17). The chip's commands are never refused. -/
def Obligations.StepRefusesOnlyABrokenDuty : Prop :=
  ∀ (s : State) (r : Refusal), step s = .refused r →
    r = .hostBreaksDuty ∧
    ((∃ a b es, s.host = .memWrite a b :: es ∧ s.breaksDuty a.toNat = true) ∨
      (∃ a b es, s.host = .otherWrite a b :: es ∧ s.isSourceByte a.toNat = true))

/-- 47_session_commands.md R323, with the invariants of the frame (10_state.md R34, R36, R41), of the source's range
(20_memory.md R83), of the accepted header and its descriptor (41_container_header_parser.md R174,
42_pixel_format_registry.md R206) and of races (20_memory.md R96), and with the canonical form of memory, which is the
model's own (log 1): `MachineInv` of Safety.lean. Every step keeps them, from every state that has them. -/
def Obligations.EveryStepKeepsTheInvariants : Prop :=
  ∀ s t : State, MachineInv s → step s = .next t → MachineInv t

/-- 10_state.md R44, 20_memory.md R97: while a session is open, the stored header stays what the parser and the registry
give for the bytes of the bound source. -/
def Obligations.StoredHeaderStaysThatOfTheSource : Prop :=
  ∀ s t : State, MachineInv s → HeaderOfSource s → step s = .next t → HeaderOfSource t

/-- The state after reset has the invariants (47_session_commands.md R323). -/
def Obligations.ResetHasTheInvariants : Prop := MachineInv State.reset ∧ HeaderOfSource State.reset

/-! ## Reset -/

/-- 70_reset_and_hazards.md R391: the reset values, and that the reset input of an idle block gives them, host memory
unchanged. The premise that nothing is contested holds of every idle block that a step can reach (`MachineInv`). -/
def Obligations.ResetLeavesTheValuesOfTheSpec : Prop :=
  (let s := State.reset
  s.regWord 0x00 = 0x4A585244#32 ∧ s.ctrlWord = 0#32 ∧ s.statusWord = 0#32 ∧ s.cmd = 0#32 ∧
  (∀ i : Fin 8, s.args[i] = 0#32) ∧ (∀ i : Fin 8, s.res[i] = 0#32) ∧
  s.latch.valid = false ∧ s.latch.op = 0#8 ∧ s.latch.word = 0#32 ∧ (∀ i : Fin 8, s.latch.args[i] = 0#32) ∧
  s.session = .closed ∧ s.rdr = ⟨false, 0#32, 0#32, 0#35⟩ ∧ s.irq = false) ∧
  (∀ (s : State) (es : List HostEvent), s.host = .reset :: es → s.latch.valid = false → s.contested = [] →
    step s = .next { State.reset with mem := s.mem, draws := s.draws, host := es, busData := s.busData })

/-- 70_reset_and_hazards.md R392 and the table of R391: the reset input, at any moment, gives every piece of the
block's state its reset value; host memory changes at most on the row spans of a COPY_REGION that was running and had
passed its checks, and on the bytes it shared with another instance's output (20_memory.md R96). -/
def Obligations.ResetInputAbandonsTheCommand : Prop :=
  ∀ (s : State) (es : List HostEvent), s.host = .reset :: es →
    ∃ t, step s = .next t ∧
      t = { State.reset with mem := t.mem, draws := t.draws, host := es, busData := s.busData } ∧
      (∀ a, ¬ Contested s a → (∀ h, s.latch.valid = true → decodeWord s.latch.word = .ok .copyRegion →
        CopyReaches h s → ¬ CopySpan h s a) → t.mem.read a = s.mem.read a)

/-! ## The register window -/

/-- 10_state.md R34 with the codes of 60_exceptions.md R360 and 10_state.md R42: every field of the STATUS word, and zero
in every reserved bit; and that a host read at 0x08 returns it at any moment, while BUSY too. -/
def Obligations.StatusWordHasTheFieldsOfTheSpec : Prop :=
  (∀ s : State,
    s.statusWord.getLsbD 0 = s.latch.valid ∧ s.statusWord.getLsbD 1 = s.done ∧
    s.statusWord.getLsbD 2 = decide (s.err ≠ none) ∧ s.statusWord.getLsbD 3 = s.overrun ∧
    s.statusWord.extractLsb' 4 4 = 0 ∧
    s.statusWord.extractLsb' 8 4 = (match s.err with
      | none => 0
      | some .invalidFormat => 1
      | some .unsupportedFeature => 2
      | some .unknownPixelFormat => 3
      | some .corruptStream => 4
      | some .invalidRegion => 5
      | some .bufferTooSmall => 6
      | some .unexpectedEnd => 7
      | some .sessionClosed => 8
      | some .illegalCommand => 9
      | some .badAddress => 10) ∧
    s.statusWord.extractLsb' 12 4 = 0 ∧
    s.statusWord.extractLsb' 16 2 = (match s.session with
      | .closed => 0
      | .opened _ => 1
      | .decoding _ => 2) ∧
    s.statusWord.extractLsb' 18 2 = 0 ∧ s.statusWord.getLsbD 20 = s.rdr.bound ∧
    s.statusWord.extractLsb' 21 11 = 0) ∧
  (∀ (s : State) (es : List HostEvent), s.host = .regRead 0x08 4 :: es →
    step s = .next { s with host := es, busData := wordBytes s.statusWord })

/-- 10_state.md R35: a write to STATUS clears DONE by bit 1 and OVERRUN by bit 3, and changes nothing else, ERR_CODE
not either. -/
def Obligations.StatusWriteClearsDoneAndOverrunAlone : Prop :=
  ∀ (s : State) (v : Word) (es : List HostEvent), s.host = .regWrite 0x08 (wordBytes v) :: es →
    step s = .next { s with host := es, done := s.done && !v.getLsbD 1, overrun := s.overrun && !v.getLsbD 3 }

/-- 10_state.md R33: a write to CTRL sets IRQ_EN from bit 0, at any moment, and changes nothing else; CTRL reads back as
that bit alone, enables the interrupt by it, and is 0 after reset. -/
def Obligations.CtrlHoldsTheInterruptEnableAlone : Prop :=
  (∀ (s : State) (v : Word) (es : List HostEvent), s.host = .regWrite 0x04 (wordBytes v) :: es →
    step s = .next { s with host := es, irqEn := v.getLsbD 0 }) ∧
  (∀ (s : State) (i : Nat), (s.regWord 0x04).getLsbD i = (decide (i = 0) && s.irqEn)) ∧
  (∀ s : State, s.irqEn = false → s.irq = false) ∧ State.reset.regWord 0x04 = 0

/-- 10_state.md R31: an aligned 32-bit write carries the register value with byte `k` as bits `8k+7 : 8k`; an access that
is not 32 bits wide or not aligned writes nothing and reads 0 in every byte; an aligned 32-bit read gives the same byte
order; and no read changes anything but the data it returns. -/
def Obligations.WindowTakesAlignedWordsOnly : Prop :=
  (∀ (s : State) (off : BitVec 8) (b0 b1 b2 b3 : Byte) (es : List HostEvent),
    s.host = .regWrite off [b0, b1, b2, b3] :: es → off.toNat % 4 = 0 →
    step s = .next ({ s with host := es }.setRegWord off.toNat (b3 ++ b2 ++ b1 ++ b0))) ∧
  (∀ (s : State) (off : BitVec 8) (data : List Byte) (es : List HostEvent),
    s.host = .regWrite off data :: es → data.length ≠ 4 ∨ off.toNat % 4 ≠ 0 → step s = .next { s with host := es }) ∧
  (∀ (s : State) (off : BitVec 8) (n : Nat) (es : List HostEvent), s.host = .regRead off n :: es →
    step s = .next { s with
      host := es
      busData :=
        if n = 4 ∧ off.toNat % 4 = 0 then
          [(s.regWord off.toNat).extractLsb' 0 8, (s.regWord off.toNat).extractLsb' 8 8,
            (s.regWord off.toNat).extractLsb' 16 8, (s.regWord off.toNat).extractLsb' 24 8]
        else List.replicate n 0 })

/-- 10_state.md R37: a write to ARG `i` changes that register alone, while BUSY too: the latched copy stays; and the
register reads back at its offset. -/
def Obligations.ArgWriteChangesOneRegister : Prop :=
  (∀ (s : State) (i : Fin 8) (v : Word) (es : List HostEvent),
    s.host = .regWrite (BitVec.ofNat 8 (0x10 + 4 * i.val)) (wordBytes v) :: es →
    step s = .next { s with host := es, args := s.args.set i v }) ∧
  (∀ (s : State) (i : Fin 8), s.regWord (0x10 + 4 * i.val) = s.args[i])

/-- 10_state.md R32, R39: writes to ID and to the reserved offsets change nothing, and so do writes to RES0 to RES7; ID
reads its constant in every state, the reserved offsets read 0, and each RES register reads at its offset. -/
def Obligations.ReadOnlyOffsetsIgnoreWrites : Prop :=
  (∀ (s : State) (off : BitVec 8) (data : List Byte) (es : List HostEvent),
    s.host = .regWrite off data :: es → off = 0x00 ∨ 0x30 ≤ off.toNat → step s = .next { s with host := es }) ∧
  (∀ s : State, s.regWord 0x00 = 0x4A585244#32) ∧
  (∀ (s : State) (off : Nat), 0x50 ≤ off → off ≤ 0xFC → s.regWord off = 0) ∧
  (∀ (s : State) (i : Fin 8), s.regWord (0x30 + 4 * i.val) = s.res[i])

/-- 47_session_commands.md R320: a CMD write while the block is idle latches the word and all eight ARG registers and
clears DONE and ERR_CODE; while BUSY it is dropped, sets OVERRUN and changes nothing else. 10_state.md R36: CMD reads
back as the word last accepted. -/
def Obligations.CmdWriteIsAcceptedOrDropped : Prop :=
  (∀ (s : State) (v : Word) (es : List HostEvent), s.host = .regWrite 0x0C (wordBytes v) :: es →
    (s.latch.valid = false → step s = .next { s with
      host := es, cmd := v, done := false, err := none
      latch := { valid := true, op := BitVec.ofNat 8 v.toNat, word := v, args := s.args } }) ∧
    (s.latch.valid = true → step s = .next { s with host := es, overrun := true })) ∧
  (∀ s : State, s.regWord 0x0C = s.cmd)

/-! ## Host memory -/

/-- 20_memory.md R94: a host write to a source byte while a reader is bound, or to the output range of a running
COPY_REGION, has no move; any other host write changes that byte alone. A host read changes nothing but what it
returns: the byte memory holds, or a fresh draw for a row-span byte of a running COPY_REGION (whether its checks will
pass or not: log 18) and for a byte shared with another instance's output (R96). -/
def Obligations.HostWritesKeepTheirDuties : Prop :=
  (∀ (s : State) (a : Word) (b : Byte) (es : List HostEvent), s.host = .memWrite a b :: es →
    let source := s.rdr.bound = true ∧ s.rdr.base.toNat ≤ a.toNat ∧ a.toNat < s.rdr.base.toNat + s.rdr.len.toNat
    let output := s.latch.valid = true ∧ decodeWord s.latch.word = .ok .copyRegion ∧
      s.u 4 ≤ a.toNat ∧ a.toNat < s.u 4 + s.u 6
    (source ∨ output → step s = .refused .hostBreaksDuty) ∧
    (¬ source → ¬ output → s.mem.wf = true →
      ∃ t, step s = .next t ∧ t = { s with host := es, mem := t.mem } ∧ t.mem.read a.toNat = b ∧
        ∀ x, x ≠ a.toNat → t.mem.read x = s.mem.read x)) ∧
  (∀ (s : State) (a : Word) (es : List HostEvent), s.host = .memRead a :: es →
    let free := Contested s a.toNat ∨ (s.latch.valid = true ∧ decodeWord s.latch.word = .ok .copyRegion ∧
      ∃ h, s.session.header? = some h ∧ CopySpan h s a.toNat)
    (free → step s = .next { s with host := es, busData := [Config.chip.anyByte s.draws], draws := s.draws + 1 }) ∧
    (¬ free → step s = .next { s with host := es, busData := [s.mem.read a.toNat] }))

/-- 20_memory.md R96 (log 20): the bytes in which another instance's output range meets the one of a COPY_REGION running
here are contested from then on, but for source bytes, which no command writes (R81); a byte the other one writes there is a fresh draw, and one it writes elsewhere is that
byte; and when the command is done every contested byte is a draw, whatever the command wrote to it, while every other
byte is what the command left. -/
def Obligations.SharedOutputBytesAreFree : Prop :=
  (∀ (s : State) (base len : Word) (es : List HostEvent), s.host = .otherCopy base len :: es →
    s.latch.valid = true → decodeWord s.latch.word = .ok .copyRegion →
    ∃ t, step s = .next t ∧ t = { s with host := es, contested := t.contested } ∧
      ∀ a, Contested t a ↔ Contested s a ∨ (a < addrSpace ∧ (base.toNat ≤ a ∧ a < base.toNat + len.toNat) ∧
        (s.u 4 ≤ a ∧ a < s.u 4 + s.u 6) ∧
        ¬ (s.rdr.bound = true ∧ s.rdr.base.toNat ≤ a ∧ a < s.rdr.base.toNat + s.rdr.len.toNat))) ∧
  (∀ (s : State) (a : Word) (b : Byte) (es : List HostEvent), s.host = .otherWrite a b :: es → s.mem.wf = true →
    ¬ (s.rdr.bound = true ∧ s.rdr.base.toNat ≤ a.toNat ∧ a.toNat < s.rdr.base.toNat + s.rdr.len.toNat) →
    let shared := s.latch.valid = true ∧ decodeWord s.latch.word = .ok .copyRegion ∧
      s.u 4 ≤ a.toNat ∧ a.toNat < s.u 4 + s.u 6
    ∃ t, step s = .next t ∧
      t = { s with host := es, mem := t.mem, draws := t.draws, contested := t.contested } ∧
      (∀ x, x ≠ a.toNat → t.mem.read x = s.mem.read x) ∧
      (shared → t.mem.read a.toNat = Config.chip.anyByte s.draws ∧ t.draws = s.draws + 1 ∧
        ∀ x, Contested t x ↔ Contested s x ∨ x = a.toNat) ∧
      (¬ shared → t.mem.read a.toNat = b ∧ t.draws = s.draws ∧ t.contested = s.contested)) ∧
  (∀ s u : State, MachineInv s → s.host = [] → s.latch.valid = true → decodeWord s.latch.word = .ok .copyRegion →
    exec .copyRegion s = .next u →
    ∃ t, step s = .next t ∧ t = { u with mem := t.mem, draws := t.draws, contested := [] } ∧
      ∀ a, (¬ Contested s a → t.mem.read a = u.mem.read a) ∧
        (Contested s a → ∃ n, u.draws ≤ n ∧ n < t.draws ∧ t.mem.read a = Config.chip.anyByte n))

/-- Two memories in canonical form that read the same everywhere are equal data (the model's own form of the memory of
20_memory.md R80; log 1). -/
def Obligations.CanonicalMemoriesAreEqualData : Prop :=
  ∀ m m' : Memory, m.wf = true → m'.wf = true → (∀ a, m.read a = m'.read a) → m = m'

/-! ## Session commands -/

/-- 47_session_commands.md R325: NOP completes with OK in every state and changes nothing but the frame's STATUS
fields. -/
def Obligations.NopOnlyCompletes : Prop :=
  decodeWord 0x00000000 = .ok .nop ∧ ∀ s : State, exec .nop s = .next (completed s none)

/-- 47_session_commands.md R330: CLOSE succeeds in every state, closes the session and unbinds the reader. -/
def Obligations.CloseReleasesSessionAndReader : Prop :=
  decodeWord 0x00000005 = .ok .close ∧ ∀ s : State, exec .close s = .next (completed (closedState s) none)

/-- 47_session_commands.md R327: GET_SIZE in an open session writes the header's width and height to RES0 and RES1 and
nothing else; without a session it completes with SessionClosed and changes nothing else. -/
def Obligations.GetSizeReportsTheHeader : Prop :=
  decodeWord 0x00000002 = .ok .getSize ∧
  (∀ (s : State) (h : Header), s.session.header? = some h →
    exec .getSize s = .next (completed { s with
      res := (s.res.set 0 (BitVec.ofNat 32 h.width)).set 1 (BitVec.ofNat 32 h.height) } none)) ∧
  (∀ s : State, s.session = .closed → exec .getSize s = .next (completed s (some .sessionClosed)))

/-- 47_session_commands.md R328: GET_PIXEL_FORMAT in an open session writes the stored descriptor to RES0 to RES4 and
nothing else; without a session it completes with SessionClosed and changes nothing else. The numbers in RES1 and RES2
are those of 42_pixel_format_registry.md R202 and R203 (from general knowledge: log 15, PRESUMED). -/
def Obligations.GetPixelFormatReportsTheDescriptor : Prop :=
  decodeWord 0x00000003 = .ok .getPixelFormat ∧
  (∀ (s : State) (h : Header), s.session.header? = some h →
    exec .getPixelFormat s = .next (completed { s with res := descriptorRes s.res h.fmt } none)) ∧
  (∀ (s : State) (h : Header), s.session.header? = some h → ∃ t, exec .getPixelFormat s = .next t ∧
      t.res[1] = (match h.fmt.color with
        | .yOnly => 0
        | .yuv420 => 1
        | .yuv422 => 2
        | .yuv444 => 3
        | .cmyk => 4
        | .cmykDirect => 5
        | .nComponent => 6
        | .rgb => 7
        | .rgbe => 8) ∧
      t.res[2] = (match h.fmt.depth with
        | .white1 => 0
        | .bd8 => 1
        | .bd16 => 2
        | .bd16S => 3
        | .bd16F => 4
        | .bd32S => 6
        | .bd32F => 7
        | .bd5 => 8
        | .bd10 => 9
        | .bd565 => 10
        | .black1 => 15)) ∧
  (∀ s : State, s.session = .closed → exec .getPixelFormat s = .next (completed s (some .sessionClosed)))

/-- 47_session_commands.md R326: OPEN, over the chip's parser and registry. A range that passes the end of host memory
gives BadAddress and changes nothing else. Otherwise the bytes given to the parser are those of the operand range; a
failure leaves no session and no bound reader; success stores the header with its format and puts the cursor at
`8 * coded_offset`. An empty source is InvalidFormat. -/
def Obligations.OpenFollowsParserAndRegistry : Prop :=
  decodeWord 0x00000001 = .ok .openSession ∧
  (∀ s : State, addrSpace < s.u 0 + s.u 1 → exec .openSession s = .next (completed s (some .badAddress))) ∧
  (∀ s : State, s.u 0 + s.u 1 ≤ addrSpace →
    exec .openSession s = .next
      (match accept Config.chip ((List.range (s.u 1)).map fun i => s.mem.read (s.u 0 + i)) with
      | .error e => completed (closedState s) (some e)
      | .ok p =>
        match registry Config.chip p.guid with
        | none => completed (closedState s) (some .unknownPixelFormat)
        | some d => completed { s with
            session := .opened { p with fmt := d }
            rdr := ⟨true, s.latch.args[0], s.latch.args[1], BitVec.ofNat 35 (8 * p.codedOffset.toNat)⟩ } none)) ∧
  (∀ s : State, s.u 1 = 0 → exec .openSession s = .next (completed (closedState s) (some .invalidFormat)))

/-- 47_session_commands.md R326 and 41_container_header_parser.md R174, over every configuration, for an operand range
inside host memory: the code each failing check gives, in the order of R174, a truncated container being InvalidFormat;
UnknownPixelFormat when the header passes and the registry lacks its format; and otherwise OPEN's pseudocode completes
with the session opened. A failure leaves no session and no bound reader. -/
def Obligations.OpenOfAnAcceptedSourceOpens : Prop :=
  ∀ (c : Config) (s : State), s.u 0 + s.u 1 ≤ addrSpace →
    let parsed := parseContainer c ((List.range (s.u 1)).map fun i => s.mem.read (s.u 0 + i))
    let fails := fun e => performOpen c s = raise e (closedState s)
    (parsed = .error .unexpectedEnd → fails .invalidFormat) ∧
    (parsed = .error .invalidFormat → fails .invalidFormat) ∧
    (parsed = .error .unsupportedFeature → fails .unsupportedFeature) ∧
    ∀ p : Parsed, parsed = .ok p →
      let positive := 1 ≤ p.width ∧ 1 ≤ p.height
      let small := p.width ≤ 2147483647 ∧ p.height ≤ 2147483647
      let inside := ∀ e ∈ p.extents, e.offset + e.length ≤ s.u 1
      let first := ∃ e, p.extents.head? = some e ∧ e.offset = p.codedOffset.toNat
      (¬ positive → fails .invalidFormat) ∧
      (positive → ¬ small → fails .unsupportedFeature) ∧
      (positive → small → p.extents = [] → fails .invalidFormat) ∧
      (positive → small → ¬ inside → fails .invalidFormat) ∧
      (positive → small → inside → ¬ first → fails .invalidFormat) ∧
      (positive → small → inside → first → registry c p.guid = none → fails .unknownPixelFormat) ∧
      (∀ d, positive → small → inside → first → registry c p.guid = some d →
        performOpen c s = complete { s with
          session := .opened { p with fmt := d }
          rdr := ⟨true, s.latch.args[0], s.latch.args[1], BitVec.ofNat 35 (8 * p.codedOffset.toNat)⟩ })

/-- 41_container_header_parser.md R172, over every configuration: when the magic is present, a directory, or a range an
entry points at, that is not inside the source fails the parse with InvalidFormat or UnexpectedEnd; and entries with an
unrecognised tag, whose ranges are inside, change nothing: the parse goes by the recognised ones. R172 says only that such
an entry "does not make the parse fail"; that it changes nothing at all is the model's reading, which extracts the fields
from the recognised entries alone (log 12, DEDUCED, unsafe). -/
def Obligations.DirectoryEntriesAreReadGenerically : Prop :=
  ∀ (c : Config) (b : List Byte), checkMagic c b = .present →
    ((∃ r ∈ c.directoryRanges b, b.length < r.offset + r.length) ∨
        (∃ e ∈ c.readDirectory b, ∃ r, c.entryRange e = some r ∧ b.length < r.offset + r.length) →
      parseContainer c b = .error .invalidFormat ∨ parseContainer c b = .error .unexpectedEnd) ∧
    (∀ entries : List DirEntry,
      (∀ e ∈ c.readDirectory b ++ entries, ∀ r, c.entryRange e = some r → r.offset + r.length ≤ b.length) →
      entries.filter (fun e => c.knownTag e.tag) = (c.readDirectory b).filter (fun e => c.knownTag e.tag) →
      parseContainer { c with readDirectory := fun _ => entries } b = parseContainer c b)

/-- 47_session_commands.md R322: the session state after every command and every host event, by the table. -/
def Obligations.SessionMovesOnlyByTheTable : Prop :=
  (∀ (s t : State) (i : Instr), exec i s = .next t →
    match i with
    | .openSession =>
      (t.err = some .badAddress → t.session = s.session) ∧
      (t.err ≠ none → t.err ≠ some .badAddress → t.session = .closed) ∧
      (t.err = none → ∃ h, t.session = .opened h)
    | .copyRegion =>
      (t.err ≠ none → t.session = s.session) ∧
      (t.err = none → ∃ h, s.session.header? = some h ∧ t.session = .decoding h)
    | .close => t.session = .closed
    | .brBind => (t.err = none → t.session = .closed) ∧ (t.err ≠ none → t.session = s.session)
    | .nop | .getSize | .getPixelFormat | .lookupPixelFormat | .brReadBits | .brAlign | .brSeek | .brTell =>
      t.session = s.session) ∧
  (∀ (s t : State) (es : List HostEvent), s.host = .reset :: es → step s = .next t → t.session = .closed) ∧
  (∀ (s t : State) (e : HostEvent) (es : List HostEvent), s.host = e :: es → e ≠ .reset → e ≠ .blockTurn → e ≠ .wait →
    step s = .next t → t.session = s.session)

/-- 47_session_commands.md R338: GET_SIZE and GET_PIXEL_FORMAT report the same after any run of commands that holds no
OPEN, CLOSE or BR_BIND, successful or not. -/
def Obligations.HeaderQueriesAreStable : Prop :=
  ∀ (cmds : List (Instr × Vector Word 8)) (s t : State) (h : Header), s.session.header? = some h →
    (∀ x ∈ cmds, x.1 ≠ .openSession ∧ x.1 ≠ .close ∧ x.1 ≠ .brBind) → runCommands cmds s = some t →
    (∃ u, exec .getSize t = .next u ∧ u.err = none ∧
      u.res[0] = BitVec.ofNat 32 h.width ∧ u.res[1] = BitVec.ofNat 32 h.height) ∧
    (∃ u, exec .getPixelFormat t = .next u ∧ u.err = none ∧ u.res = descriptorRes t.res h.fmt)

/-! ## COPY_REGION -/

/-- 60_exceptions.md R364 and 47_session_commands.md R329: COPY_REGION's checks before the decode, each one made only
when those before it pass, and none of them changing anything but the frame's STATUS fields. -/
def Obligations.CopyRegionChecksInOrder : Prop :=
  (∀ s : State, s.session = .closed → exec .copyRegion s = .next (completed s (some .sessionClosed))) ∧
  ∀ (s : State) (h : Header), s.session.header? = some h →
    let valid := 1 ≤ s.sArg 2 ∧ 1 ≤ s.sArg 3 ∧ 0 ≤ s.sArg 0 ∧ 0 ≤ s.sArg 1 ∧
      s.sArg 0 + s.sArg 2 ≤ h.width ∧ s.sArg 1 + s.sArg 3 ≤ h.height
    let whole := h.fmt.bpp.toNat % 8 = 0
    let large := (s.sArg 2).toNat * (h.fmt.bpp.toNat / 8) ≤ s.u 5 ∧ s.u 5 * (s.sArg 3).toNat ≤ s.u 6
    let inSpace := s.u 4 + s.u 6 ≤ addrSpace
    let overlaps := 0 < s.u 6 ∧ 0 < s.rdr.len.toNat ∧ s.u 4 < s.rdr.base.toNat + s.rdr.len.toNat ∧
      s.rdr.base.toNat < s.u 4 + s.u 6
    (¬ valid → exec .copyRegion s = .next (completed s (some .invalidRegion))) ∧
    (valid → ¬ whole → exec .copyRegion s = .next (completed s (some .unsupportedFeature))) ∧
    (valid → whole → ¬ large → exec .copyRegion s = .next (completed s (some .bufferTooSmall))) ∧
    (valid → whole → large → ¬ inSpace → exec .copyRegion s = .next (completed s (some .badAddress))) ∧
    (valid → whole → large → inSpace → overlaps → exec .copyRegion s = .next (completed s (some .badAddress)))

/-- 47_session_commands.md R329, R333, R334, R335, over the chip's parameters: when the checks pass, COPY_REGION
completes. The decode's outcome says whether it completes with OK, moving the session to Decoding, or with the decode's
error, the session staying; no third outcome exists. Either way the cursor is at `8 * coded_offset`, memory outside the
row spans is unchanged, and nothing else changes. The stored descriptor keeps its laws in every state that a step can
reach (`MachineInv`). -/
def Obligations.CopyRegionCompletesWithTheOutcome : Prop :=
  ∀ (s : State) (h : Header), descriptorOk h.fmt = true → CopyReaches h s →
    ∃ t, exec .copyRegion s = .next t ∧
      (∀ a, ¬ CopySpan h s a → t.mem.read a = s.mem.read a) ∧
      match regionOutcome Config.chip s.sourceBytes h (copyRect s) with
      | .ok _ => t = completed { cursorAt s (8 * h.codedOffset.toNat) with mem := t.mem, session := .decoding h } none
      | .fail e _ => t = completed { cursorAt s (8 * h.codedOffset.toNat) with mem := t.mem, draws := t.draws }
          (some (decodeErrorCode e))
      | .fault _ => False

/-- 47_session_commands.md R333, R334, over every configuration: when the decode fails with `e` at macroblock `m`,
COPY_REGION reports `e` if the rectangle needs `m`; if it does not, the outcome is PartialDecode's: the same `e`, or
success with the pixels it gives. A failure leaves the session and every byte outside the row spans. -/
def Obligations.FailedDecodeFollowsPartialDecode : Prop :=
  ∀ (c : Config) (s : State) (h : Header) (e : DecodeError) (m : MB), s.mem.wf = true → descriptorOk h.fmt = true →
    CopyReaches h s → refDecode c s.sourceBytes h = .fail e m →
    let reported := ∃ t, performCopyRegion c s = .ok (raise
        (match e with
        | .corruptStream => .corruptStream
        | .unexpectedEnd => .unexpectedEnd
        | .unsupportedFeature => .unsupportedFeature) t) ∧
      t.session = s.session ∧ ∀ a, ¬ CopySpan h s a → t.mem.read a = s.mem.read a
    (needed h (copyRect s) m = true → reported) ∧
    (needed h (copyRect s) m = false → c.partialDecode s.sourceBytes h (copyRect s) = none → reported) ∧
    (∀ pix, needed h (copyRect s) m = false → c.partialDecode s.sourceBytes h (copyRect s) = some pix →
      ∃ t, performCopyRegion c s = .ok (complete t) ∧ t.session = .decoding h ∧
        ∀ i r k, i < (s.sArg 2).toNat → r < (s.sArg 3).toNat → k < bytesPerPixel h.fmt →
          t.mem.read (s.u 4 + r * s.u 5 + i * bytesPerPixel h.fmt + k) =
            (packPixel h.fmt (pixelSamples h.fmt pix i r)).getD k 0)

/-- 46_pixel_format_converter.md R291, R301 and 47_session_commands.md R329, over every configuration: when the decode
gives pixels, COPY_REGION's pseudocode completes, and byte `k` of pixel `(i, r)` of the region stands at
`out_base + r * stride + i * Bpp + k`. -/
def Obligations.CopiedPixelsStandAtTheirAddresses : Prop :=
  ∀ (c : Config) (s : State) (h : Header) (pix : Image), s.mem.wf = true → descriptorOk h.fmt = true →
    CopyReaches h s → regionOutcome c s.sourceBytes h (copyRect s) = .ok pix →
    ∃ t, performCopyRegion c s = .ok (complete t) ∧ t.session = .decoding h ∧
      ∀ i r k, i < (s.sArg 2).toNat → r < (s.sArg 3).toNat → k < bytesPerPixel h.fmt →
        t.mem.read (s.u 4 + r * s.u 5 + i * bytesPerPixel h.fmt + k) =
          (packPixel h.fmt (pixelSamples h.fmt pix i r)).getD k 0

/-- 46_pixel_format_converter.md R298 and 20_memory.md R82: however COPY_REGION ends, a byte outside its row spans is
unchanged: the padding after each row, the rest of the output range, and everything outside it. The stored descriptor
keeps its laws in every state that a step can reach (`MachineInv`). -/
def Obligations.CopyRegionWritesRowSpansAlone : Prop :=
  ∀ (s t : State) (a : Nat), (∀ h, s.session.header? = some h → descriptorOk h.fmt = true) → exec .copyRegion s = .next t →
    (∀ h, s.session.header? = some h → ¬ CopySpan h s a) → t.mem.read a = s.mem.read a

/-- 45_macroblock_predictor.md R279, 47_session_commands.md R339: when `RefDecode` gives an image, every COPY_REGION that
passes its checks over the same source and header writes the image's pixels, so a full copy and the copies of
quadrants, at the addresses of the same pixels, give the same bytes. -/
def Obligations.CopiesOfOneImageStitch : Prop :=
  ∀ (c : Config) (b : List Byte) (h : Header) (img : Image) (s1 s2 : State),
    refDecode c b h = .ok img → descriptorOk h.fmt = true → s1.mem.wf = true → s2.mem.wf = true →
    s1.sourceBytes = b → s2.sourceBytes = b → CopyReaches h s1 → CopyReaches h s2 →
    ∃ t1 t2, performCopyRegion c s1 = .ok (complete t1) ∧ performCopyRegion c s2 = .ok (complete t2) ∧
      ∀ x y i1 r1 i2 r2 k : Nat,
        (copyRect s1).x + i1 = x → (copyRect s1).y + r1 = y → i1 < (copyRect s1).w → r1 < (copyRect s1).h →
        (copyRect s2).x + i2 = x → (copyRect s2).y + r2 = y → i2 < (copyRect s2).w → r2 < (copyRect s2).h →
        k < bytesPerPixel h.fmt →
        t1.mem.read (s1.u 4 + r1 * s1.u 5 + i1 * bytesPerPixel h.fmt + k) =
            (packPixel h.fmt (pixelSamples h.fmt img x y)).getD k 0 ∧
        t2.mem.read (s2.u 4 + r2 * s2.u 5 + i2 * bytesPerPixel h.fmt + k) =
            t1.mem.read (s1.u 4 + r1 * s1.u 5 + i1 * bytesPerPixel h.fmt + k)

/-- 47_session_commands.md R336: two COPY_REGION commands with the same operands, header and source bytes complete with
the same code, and when it is OK, with the same bytes in the row spans, whatever else the two states hold. -/
def Obligations.CopyRegionIsIdempotent : Prop :=
  ∀ (s1 s2 : State) (h : Header), s1.session.header? = some h → s2.session.header? = some h →
    s1.latch.args = s2.latch.args → s1.rdr.base = s2.rdr.base → s1.rdr.len = s2.rdr.len →
    s1.sourceBytes = s2.sourceBytes → s1.mem.wf = true → s2.mem.wf = true → descriptorOk h.fmt = true →
    ∃ t1 t2, exec .copyRegion s1 = .next t1 ∧ exec .copyRegion s2 = .next t2 ∧ t1.err = t2.err ∧
      (t1.err = none → ∀ a, CopySpan h s1 a → t1.mem.read a = t2.mem.read a)

/-! ## What every command keeps -/

/-- 10_state.md R37, R38, R49 and 60_exceptions.md R366: every command completes with DONE = 1 and BUSY = 0, writes
none of the host's registers, and writes no RES register when it fails. -/
def Obligations.FailedCommandsWriteNoResult : Prop :=
  ∀ (s : State) (i : Instr), ∃ t, exec i s = .next t ∧ t.done = true ∧ t.latch.valid = false ∧ HostSideKept s t ∧
    (t.err ≠ none → t.res = s.res)

/-- 20_memory.md R82: no command but COPY_REGION writes host memory. -/
def Obligations.OnlyCopyRegionWritesMemory : Prop :=
  ∀ (s t : State) (i : Instr), i ≠ .copyRegion → exec i s = .next t → t.mem = s.mem ∧ t.draws = s.draws

/-- 60_exceptions.md R363: IRQ is IRQ_EN and DONE. It rises at every completion, whatever the code, falls at the
acceptance of the next command, at a write of 1 to STATUS bit 1 and at reset, and clearing IRQ_EN lowers it without
clearing DONE. -/
def Obligations.InterruptFollowsCompletion : Prop :=
  (∀ s : State, s.irq = (s.irqEn && s.done)) ∧
  (∀ (s t : State) (i : Instr), exec i s = .next t → t.irq = s.irqEn) ∧
  (∀ (s : State) (v : Word), s.latch.valid = false → (s.onCmdWrite v).irq = false) ∧
  (∀ (s : State) (v : Word), v.getLsbD 1 = true → (s.statusWrite v).irq = false ∧ (s.statusWrite v).err = s.err) ∧
  (∀ (s : State) (v : Word), v.getLsbD 0 = false → (s.ctrlWrite v).irq = false ∧ (s.ctrlWrite v).done = s.done) ∧
  (∀ (s t : State) (es : List HostEvent), s.host = .reset :: es → step s = .next t → t.irq = false)

/-- 20_memory.md R81, 40_bitstream_reader.md R147: a command reads no byte of host memory outside the bound source, and
OPEN none outside the range it binds. Two states that differ only in other bytes complete alike, with the same
registers, session, reader and draws; and each byte of memory is either left as it was in both, or written with the same
value in both. -/
def Obligations.CommandsReadTheSourceAlone : Prop :=
  ∀ (s : State) (m : Memory) (i : Instr), s.mem.wf = true → m.wf = true →
    (∀ h, s.session.header? = some h → descriptorOk h.fmt = true) →
    (i ≠ .openSession → ∀ a, s.rdr.base.toNat ≤ a → a < s.rdr.base.toNat + s.rdr.len.toNat →
      m.read a = s.mem.read a) →
    (i = .openSession → ∀ a, s.u 0 ≤ a → a < s.u 0 + s.u 1 → m.read a = s.mem.read a) →
    ∃ t m', exec i s = .next t ∧ exec i { s with mem := m } = .next { t with mem := m' } ∧
      ∀ a, (t.mem.read a = s.mem.read a ∧ m'.read a = m.read a) ∨ m'.read a = t.mem.read a

/-! ## Registry -/

/-- 42_pixel_format_registry.md R204: LOOKUP_PIXEL_FORMAT in every state, over the chip's registry: UnknownPixelFormat
with RES unchanged, or the descriptor in RES0 to RES4; nothing else changes. The numbers in RES1 and RES2 are those of
R202 and R203 (from general knowledge: log 15, PRESUMED). -/
def Obligations.LookupReportsTheRegistry : Prop :=
  decodeWord 0x00000006 = .ok .lookupPixelFormat ∧
  (∀ s : State, exec .lookupPixelFormat s = .next
    (match registry Config.chip s.guidOperand with
    | none => completed s (some .unknownPixelFormat)
    | some d => completed { s with res := descriptorRes s.res d } none)) ∧
  (∀ (s : State) (d : Descriptor), registry Config.chip s.guidOperand = some d →
    ∃ t, exec .lookupPixelFormat s = .next t ∧
      t.res[1] = (match d.color with
        | .yOnly => 0
        | .yuv420 => 1
        | .yuv422 => 2
        | .yuv444 => 3
        | .cmyk => 4
        | .cmykDirect => 5
        | .nComponent => 6
        | .rgb => 7
        | .rgbe => 8) ∧
      t.res[2] = (match d.depth with
        | .white1 => 0
        | .bd8 => 1
        | .bd16 => 2
        | .bd16S => 3
        | .bd16F => 4
        | .bd32S => 6
        | .bd32F => 7
        | .bd5 => 8
        | .bd10 => 9
        | .bd565 => 10
        | .black1 => 15))

/-- 42_pixel_format_registry.md R205: there is a GUID operand whose lookup reports 4 channels, 32Float, 128 bits per pixel
and alpha, whatever else the registry holds. -/
def Obligations.RegistryHoldsTheScenarioRow : Prop :=
  ∃ a : Vector Word 8, ∀ s : State, s.latch.args = a →
    ∃ t, exec .lookupPixelFormat s = .next t ∧ t.err = none ∧ t.res[0] = 4 ∧ t.res[2] = 7 ∧ t.res[3] = 128 ∧
      t.res[4].getLsbD 0 = true

/-- 42_pixel_format_registry.md R206: every descriptor the registry gives keeps the six laws, in every configuration. -/
def Obligations.RegistryDescriptorsKeepTheirLaws : Prop :=
  ∀ (c : Config) (g : Guid) (d : Descriptor), registry c g = some d →
    bytesPerPixel d = d.bpp.toNat / 8 ∧
    (1 ≤ d.channels.toNat ∧ 1 ≤ d.bpp.toNat) ∧
    (d.premultipliedAlpha = true → d.hasAlpha = true) ∧
    (d.hasAlpha = true → 2 ≤ d.channels.toNat) ∧
    ((d.depth = .bd8 → d.bpp.toNat % 8 = 0 ∧ d.channels.toNat * 8 ≤ d.bpp.toNat) ∧
      (d.depth = .bd16 ∨ d.depth = .bd16S ∨ d.depth = .bd16F →
        d.bpp.toNat % 8 = 0 ∧ d.channels.toNat * 16 ≤ d.bpp.toNat) ∧
      (d.depth = .bd32S ∨ d.depth = .bd32F → d.bpp.toNat % 8 = 0 ∧ d.channels.toNat * 32 ≤ d.bpp.toNat)) ∧
    (d.depth = .white1 ∨ d.depth = .black1 → d.channels.toNat = 1 ∧ d.bpp.toNat = 1) ∧
    ((d.depth = .bd5 ∨ d.depth = .bd565 → d.bpp.toNat = 16 ∧ d.channels.toNat = 3) ∧
      (d.depth = .bd10 → d.bpp.toNat = 32 ∧ d.channels.toNat = 3))

/-- 60_exceptions.md R362 with 42_pixel_format_registry.md R206: a table for the registry with a row that breaks a law
is refused as an ill-formed configuration; one whose rows all keep the laws is taken in, and the registry then gives its
rows, the first one of a GUID, but at the GUID of the row that R205 fixes. -/
def Obligations.IllFormedRegistriesAreRefused : Prop :=
  ∀ (c : Config) (rows : List (Guid × Descriptor)),
    ((∃ r ∈ rows, descriptorOk r.2 = false) → withRegistry c rows = .error .illFormedConfig) ∧
    ((∀ r ∈ rows, descriptorOk r.2 = true) → ∃ c', withRegistry c rows = .ok c' ∧
      c' = { c with registryRow := c'.registryRow } ∧
      ∀ g, g ≠ c.scenarioGuid → registry c' g = (rows.find? fun r => r.1 == g).map Prod.snd)

/-- 30_encoding.md R111: a GUID packed into ARG0 to ARG3, byte `k` in byte `k mod 4` of ARG `k / 4`, is the operand
read back, in stored order. -/
def Obligations.GuidOperandIsThePackedGuid : Prop :=
  ∀ (s : State) (g : Guid),
    (∀ k : Fin 4, s.latch.args[k.val]'(by omega) =
      g[4 * k.val + 3]'(by omega) ++ g[4 * k.val + 2]'(by omega) ++ g[4 * k.val + 1]'(by omega) ++ g[4 * k.val]'(by omega)) →
    s.guidOperand = g

/-! ## Reader commands -/

/-- 40_bitstream_reader.md R150: BR_BIND binds the range at bit 0 and closes any session; a range that passes the end
of host memory gives BadAddress and changes nothing. -/
def Obligations.BrBindBindsTheRange : Prop :=
  decodeWord 0x00000010 = .ok .brBind ∧
  ∀ s : State,
    (s.u 0 + s.u 1 ≤ addrSpace → exec .brBind s = .next (completed { s with
      session := .closed, rdr := ⟨true, s.latch.args[0], s.latch.args[1], 0⟩ } none)) ∧
    (addrSpace < s.u 0 + s.u 1 → exec .brBind s = .next (completed s (some .badAddress)))

/-- 40_bitstream_reader.md R151 with R140 and R141: BR_READ_BITS puts the next `n` bits in RES0, the first bit read the
most significant, moves the cursor by `n`, and changes nothing else. Without a bound source it is SessionClosed, with
more than 32 bits IllegalCommand, with more bits than remain UnexpectedEnd, and then nothing else changes. -/
def Obligations.BrReadBitsReturnsTheNextBits : Prop :=
  decodeWord 0x00000011 = .ok .brReadBits ∧
  ∀ s : State,
    (s.rdr.bound = false → exec .brReadBits s = .next (completed s (some .sessionClosed))) ∧
    (s.rdr.bound = true → 32 < s.u 0 → exec .brReadBits s = .next (completed s (some .illegalCommand))) ∧
    (s.rdr.bound = true → s.u 0 ≤ 32 → 8 * s.rdr.len.toNat < s.rdr.bitpos.toNat + s.u 0 →
      exec .brReadBits s = .next (completed s (some .unexpectedEnd))) ∧
    (s.rdr.bound = true → s.u 0 ≤ 32 → s.rdr.bitpos.toNat + s.u 0 ≤ 8 * s.rdr.len.toNat →
      ∃ v : Word,
        exec .brReadBits s =
          .next (completed { cursorAt s (s.rdr.bitpos.toNat + s.u 0) with res := s.res.set 0 v } none) ∧
        (∀ j, j < s.u 0 → v.getLsbD (s.u 0 - 1 - j) =
          (s.mem.read (s.rdr.base.toNat + (s.rdr.bitpos.toNat + j) / 8)).getLsbD (7 - (s.rdr.bitpos.toNat + j) % 8)) ∧
        (∀ j, s.u 0 ≤ j → v.getLsbD j = false))

/-- 40_bitstream_reader.md R152: BR_ALIGN moves the cursor to the next multiple of 8, or leaves it where it is one, and
never past the end; without a bound source it is SessionClosed and changes nothing else. -/
def Obligations.BrAlignDiscardsThePartialByte : Prop :=
  decodeWord 0x00000012 = .ok .brAlign ∧
  ∀ s : State,
    (s.rdr.bound = false → exec .brAlign s = .next (completed s (some .sessionClosed))) ∧
    (s.rdr.bound = true → s.rdr.bitpos.toNat ≤ 8 * s.rdr.len.toNat →
      ∃ p, exec .brAlign s = .next (completed (cursorAt s p) none) ∧ p % 8 = 0 ∧ s.rdr.bitpos.toNat ≤ p ∧
        p < s.rdr.bitpos.toNat + 8 ∧ p ≤ 8 * s.rdr.len.toNat)

/-- 40_bitstream_reader.md R153: BR_SEEK puts the cursor at a byte offset up to and including the length; beyond it,
UnexpectedEnd; without a bound source, SessionClosed; and then nothing else changes. -/
def Obligations.BrSeekMovesWithinTheSource : Prop :=
  decodeWord 0x00000013 = .ok .brSeek ∧
  ∀ s : State,
    (s.rdr.bound = false → exec .brSeek s = .next (completed s (some .sessionClosed))) ∧
    (s.rdr.bound = true → s.u 0 ≤ s.rdr.len.toNat →
      exec .brSeek s = .next (completed (cursorAt s (8 * s.u 0)) none)) ∧
    (s.rdr.bound = true → s.rdr.len.toNat < s.u 0 → exec .brSeek s = .next (completed s (some .unexpectedEnd)))

/-- 40_bitstream_reader.md R154: BR_TELL reports the byte offset and the bit in the byte, and moves nothing; without a
bound source it is SessionClosed. -/
def Obligations.BrTellReportsTheCursor : Prop :=
  decodeWord 0x00000014 = .ok .brTell ∧
  ∀ s : State,
    (s.rdr.bound = false → exec .brTell s = .next (completed s (some .sessionClosed))) ∧
    (s.rdr.bound = true → exec .brTell s = .next (completed { s with
      res := (s.res.set 0 (BitVec.ofNat 32 (s.rdr.bitpos.toNat / 8))).set 1 (BitVec.ofNat 32 (s.rdr.bitpos.toNat % 8)) }
      none))

/-- 40_bitstream_reader.md R145: `ReadVLC` returns the symbol of the codeword the stream holds, if it fits before the
limit; otherwise `endErr` when the limit cuts a codeword off, and CorruptStream when no codeword begins so. -/
def Obligations.ReadVlcFollowsThePrefixCode : Prop :=
  ∀ (src : Nat → Byte) (code : VlcCode) (limit pos : Nat) (endErr : DecodeError), pos ≤ limit →
    let bitsAre := fun (w : List Bool) (n : Nat) => ∀ j, j < n → w[j]? = some (streamBit src (pos + j))
    (∀ w sym, (w, sym) ∈ code.val → pos + w.length ≤ limit → bitsAre w w.length →
      readVLC src code limit endErr pos = .ok (sym, pos + w.length)) ∧
    ((∀ e ∈ code.val, pos + e.1.length ≤ limit → ¬ bitsAre e.1 e.1.length) →
      ((∃ e ∈ code.val, limit < pos + e.1.length ∧ bitsAre e.1 (limit - pos)) →
        readVLC src code limit endErr pos = .error endErr) ∧
      ((∀ e ∈ code.val, limit < pos + e.1.length → ¬ bitsAre e.1 (limit - pos)) →
        readVLC src code limit endErr pos = .error .corruptStream))

/-! ## The decode -/

/-- 40_bitstream_reader.md R146 with 43_entropy_decoder.md R223 and 45_macroblock_predictor.md R277: when every declared
extent lies inside the source, as OPEN ensures, no decode fails with UnexpectedEnd, in any configuration: running past
the declared bounds is CorruptStream. It rests on two readings of the model: RefDecode is the composition of its stages
(log 8, DEDUCED, unsafe), and a stage's own failures are CorruptStream and UnsupportedFeature (log 10, DEDUCED,
unsafe). -/
def Obligations.DecodeNeverRunsOffTheSource : Prop :=
  ∀ (c : Config) (b : List Byte) (h : Header), (∀ e ∈ h.extents, e.offset + e.length ≤ b.length) →
    ∀ m, refDecode c b h ≠ .fail .unexpectedEnd m

/-- 45_macroblock_predictor.md R272, R276 (3), over the composition of R277 (log 8): the macroblock a failing decode
names is one of the image's, and the first one that fails: the tiles before its tile decode, the macroblocks of its tile
before it decode, these are all the macroblocks before it in DecodeOrder, and it is there that the decode fails, with
that error. Its tile is entered where 43_entropy_decoder.md R226 says: at a byte offset of an index table, reached with
`Seek`, or where the tile before it ended (for the first tile an open position: log 30); when that is not inside the
first extent, the error is CorruptStream at the tile's first macroblock (log 11). -/
def Obligations.FailingMacroblockIsOfTheImage : Prop :=
  ∀ (c : Config) (b : List Byte) (h : Header) (e : DecodeError) (m : MB), refDecode c b h = .fail e m →
    (m.col < mbCols h ∧ m.row < mbRows h) ∧
    ∃ ts t ts' ms ms' p, tiles h = ts ++ t :: ts' ∧ tileMBs t = ms ++ m :: ms' ∧
      (decodeOrder h).take ((decodeOrder h).idxOf m) = ts.flatMap tileMBs ++ ms ∧
      decodeTiles c b h ts ⟨[], c.dataStart b h⟩ = .ok p ∧
      (let start := match c.tileStart b h t with
        | .indexTable off => 8 * off
        | .previousEnd => p.pos
      let inside := (∀ off, c.tileStart b h t = .indexTable off → off ≤ b.length) ∧
        8 * (firstExtent h).offset ≤ start ∧ start < 8 * ((firstExtent h).offset + (firstExtent h).length)
      (¬ inside ∧ ms = [] ∧ e = .corruptStream) ∨
        (inside ∧ (∃ p', decodeTileMBs c b h t ms (c.initCtx h t) ⟨p.done, start⟩ = .ok p') ∧
          decodeTileMBs c b h t (ms ++ [m]) (c.initCtx h t) ⟨p.done, start⟩ = .fail e m))

/-- 45_macroblock_predictor.md R272: `DecodeOrder` lists every macroblock of the grid exactly once, tiles in raster order
and the macroblocks of each tile in raster order, so that the left and above neighbours of a macroblock in its tile
come before it. It holds whatever boundaries the header gives, since the model lets one that does not rise or lies
outside the grid cut nothing (log 16, DESIGN CHOICE, unsafe). -/
def Obligations.DecodeOrderListsEveryMacroblockOnce : Prop :=
  ∀ h : Header,
    (decodeOrder h).Nodup ∧
    (∀ m : MB, m ∈ decodeOrder h ↔ m.col < mbCols h ∧ m.row < mbRows h) ∧
    (∀ t ∈ tiles h, ∀ u ∈ tiles h, t.r0 < u.r0 ∨ (t.r0 = u.r0 ∧ t.c0 < u.c0) → ∀ m ∈ tileMBs t, ∀ n ∈ tileMBs u,
      (decodeOrder h).idxOf m < (decodeOrder h).idxOf n) ∧
    (∀ t ∈ tiles h, ∀ m ∈ tileMBs t, ∀ n ∈ tileMBs t, m.row < n.row ∨ (m.row = n.row ∧ m.col < n.col) →
      (decodeOrder h).idxOf m < (decodeOrder h).idxOf n) ∧
    (∀ t ∈ tiles h, ∀ m ∈ tileMBs t,
      (t.c0 < m.col → (decodeOrder h).idxOf ⟨m.col - 1, m.row⟩ < (decodeOrder h).idxOf m) ∧
      (t.r0 < m.row → (decodeOrder h).idxOf ⟨m.col, m.row - 1⟩ < (decodeOrder h).idxOf m))

/-- 47_session_commands.md R332 with 45_macroblock_predictor.md R275: a macroblock is needed exactly when some macroblock
of its tile that holds a pixel of the rectangle is it or comes after it in DecodeOrder. -/
def Obligations.CoveredMacroblocksAreNeeded : Prop :=
  ∀ (h : Header) (r : Rect) (m : MB), 1 ≤ r.w → 1 ≤ r.h → r.x + r.w ≤ h.width → r.y + r.h ≤ h.height →
    (needed h r m = true ↔
      ∃ t ∈ tiles h, m ∈ tileMBs t ∧ ∃ n ∈ tileMBs t,
        (∃ x y, r.x ≤ x ∧ x < r.x + r.w ∧ r.y ≤ y ∧ y < r.y + r.h ∧ n = ⟨x / 16, y / 16⟩) ∧
        (decodeOrder h).idxOf m ≤ (decodeOrder h).idxOf n)

/-! ## The pixel format converter -/

/-- 46_pixel_format_converter.md R293: a pixel of byte-aligned samples takes exactly `Bpp` bytes: byte `k` of the
sample at place `j` of memory order at `j * sw/8 + k`, least significant first, and zeros after the last sample. -/
def Obligations.AlignedPixelIsLittleEndianAndPadded : Prop :=
  ∀ (d : Descriptor) (smp : List Nat) (n : Nat), descriptorOk d = true → smp.length = d.channels.toNat →
    (d.depth = .bd8 ∧ n = 1) ∨ ((d.depth = .bd16 ∨ d.depth = .bd16S ∨ d.depth = .bd16F) ∧ n = 2) ∨
      ((d.depth = .bd32S ∨ d.depth = .bd32F) ∧ n = 4) →
    (packPixel d smp).length = d.bpp.toNat / 8 ∧
    (∀ j k, j < d.channels.toNat → k < n →
      (packPixel d smp)[j * n + k]? = some (BitVec.ofNat 8 ((memoryOrder d smp).getD j 0 / 256 ^ k))) ∧
    (∀ q, d.channels.toNat * n ≤ q → q < d.bpp.toNat / 8 → (packPixel d smp)[q]? = some 0)

/-- 46_pixel_format_converter.md R294, in the default layout (a layout from general knowledge, log 14): a packed pixel is
one little-endian word of `bpp` bits, the channel first in memory order in the lowest bits, the widths 5, 5, 5 (BD5),
10, 10, 10 (BD10) and 5, 6, 5 (BD565). Where reversed channels with alpha put the 6-bit channel of BD565 first, the
widths from the lowest bits up are 6, 5, 5: the model's choice (log 29, DESIGN CHOICE). -/
def Obligations.PackedPixelStartsAtTheLowestBits : Prop :=
  ∀ (d : Descriptor) (smp : List Nat) (v0 v1 v2 w0 w1 w2 : Nat), descriptorOk d = true →
    (let moved := d.channelOrderReversed = true ∧ d.hasAlpha = true
    (d.depth = .bd5 ∧ w0 = 5 ∧ w1 = 5 ∧ w2 = 5) ∨ (d.depth = .bd10 ∧ w0 = 10 ∧ w1 = 10 ∧ w2 = 10) ∨
      (d.depth = .bd565 ∧ ¬ moved ∧ w0 = 5 ∧ w1 = 6 ∧ w2 = 5) ∨
      (d.depth = .bd565 ∧ moved ∧ w0 = 6 ∧ w1 = 5 ∧ w2 = 5)) →
    memoryOrder d smp = [v0, v1, v2] → v0 < 2 ^ w0 → v1 < 2 ^ w1 → v2 < 2 ^ w2 →
    (packPixel d smp).length = d.bpp.toNat / 8 ∧
    leNat (packPixel d smp) = v0 + 2 ^ w0 * v1 + 2 ^ (w0 + w1) * v2

/-- 46_pixel_format_converter.md R292: memory order is the canonical order, or with the flag the colour channels
reversed, with alpha last in both. -/
def Obligations.ReversedFormatsKeepAlphaLast : Prop :=
  ∀ (d : Descriptor) (colors : List Nat) (alpha : Nat),
    (d.channelOrderReversed = false → ∀ smp, memoryOrder d smp = smp) ∧
    (d.channelOrderReversed = true → d.hasAlpha = false → colors.length = d.channels.toNat →
      memoryOrder d colors = colors.reverse) ∧
    (d.channelOrderReversed = true → d.hasAlpha = true → colors.length + 1 = d.channels.toNat →
      memoryOrder d (colors ++ [alpha]) = colors.reverse ++ [alpha])
end

