-- ==== Sys2Proof/Laws/State.lean ====
section
/-! SUPPORT. One lemma per field and update of State, true by rfl, so that later proofs do not unfold an update. -/

namespace Sys2Proof.Machine

/-! ## closeSession -/

@[simp] theorem State.closeSession_irqEn (s : State) : s.closeSession.irqEn = s.irqEn := rfl
@[simp] theorem State.closeSession_done (s : State) : s.closeSession.done = s.done := rfl
@[simp] theorem State.closeSession_overrun (s : State) : s.closeSession.overrun = s.overrun := rfl
@[simp] theorem State.closeSession_err (s : State) : s.closeSession.err = s.err := rfl
@[simp] theorem State.closeSession_cmd (s : State) : s.closeSession.cmd = s.cmd := rfl
@[simp] theorem State.closeSession_args (s : State) : s.closeSession.args = s.args := rfl
@[simp] theorem State.closeSession_res (s : State) : s.closeSession.res = s.res := rfl
@[simp] theorem State.closeSession_latch (s : State) : s.closeSession.latch = s.latch := rfl
@[simp] theorem State.closeSession_session (s : State) : s.closeSession.session = .closed := rfl
@[simp] theorem State.closeSession_rdr (s : State) : s.closeSession.rdr = Reader.unbound := rfl
@[simp] theorem State.closeSession_mem (s : State) : s.closeSession.mem = s.mem := rfl
@[simp] theorem State.closeSession_host (s : State) : s.closeSession.host = s.host := rfl
@[simp] theorem State.closeSession_busData (s : State) : s.closeSession.busData = s.busData := rfl
@[simp] theorem State.closeSession_draws (s : State) : s.closeSession.draws = s.draws := rfl
@[simp] theorem State.closeSession_contested (s : State) : s.closeSession.contested = s.contested := rfl

/-! ## bindReader -/

@[simp] theorem State.bindReader_irqEn (s : State) (b l : Word) : (s.bindReader b l).irqEn = s.irqEn := rfl
@[simp] theorem State.bindReader_done (s : State) (b l : Word) : (s.bindReader b l).done = s.done := rfl
@[simp] theorem State.bindReader_overrun (s : State) (b l : Word) : (s.bindReader b l).overrun = s.overrun := rfl
@[simp] theorem State.bindReader_err (s : State) (b l : Word) : (s.bindReader b l).err = s.err := rfl
@[simp] theorem State.bindReader_cmd (s : State) (b l : Word) : (s.bindReader b l).cmd = s.cmd := rfl
@[simp] theorem State.bindReader_args (s : State) (b l : Word) : (s.bindReader b l).args = s.args := rfl
@[simp] theorem State.bindReader_res (s : State) (b l : Word) : (s.bindReader b l).res = s.res := rfl
@[simp] theorem State.bindReader_latch (s : State) (b l : Word) : (s.bindReader b l).latch = s.latch := rfl
@[simp] theorem State.bindReader_session (s : State) (b l : Word) : (s.bindReader b l).session = s.session := rfl
@[simp] theorem State.bindReader_rdr (s : State) (b l : Word) : (s.bindReader b l).rdr = ⟨true, b, l, 0⟩ := rfl
@[simp] theorem State.bindReader_mem (s : State) (b l : Word) : (s.bindReader b l).mem = s.mem := rfl
@[simp] theorem State.bindReader_host (s : State) (b l : Word) : (s.bindReader b l).host = s.host := rfl
@[simp] theorem State.bindReader_busData (s : State) (b l : Word) : (s.bindReader b l).busData = s.busData := rfl
@[simp] theorem State.bindReader_draws (s : State) (b l : Word) : (s.bindReader b l).draws = s.draws := rfl
@[simp] theorem State.bindReader_contested (s : State) (b l : Word) : (s.bindReader b l).contested = s.contested := rfl

/-! ## setCursor -/

@[simp] theorem State.setCursor_irqEn (s : State) (p : Nat) : (s.setCursor p).irqEn = s.irqEn := rfl
@[simp] theorem State.setCursor_done (s : State) (p : Nat) : (s.setCursor p).done = s.done := rfl
@[simp] theorem State.setCursor_overrun (s : State) (p : Nat) : (s.setCursor p).overrun = s.overrun := rfl
@[simp] theorem State.setCursor_err (s : State) (p : Nat) : (s.setCursor p).err = s.err := rfl
@[simp] theorem State.setCursor_cmd (s : State) (p : Nat) : (s.setCursor p).cmd = s.cmd := rfl
@[simp] theorem State.setCursor_args (s : State) (p : Nat) : (s.setCursor p).args = s.args := rfl
@[simp] theorem State.setCursor_res (s : State) (p : Nat) : (s.setCursor p).res = s.res := rfl
@[simp] theorem State.setCursor_latch (s : State) (p : Nat) : (s.setCursor p).latch = s.latch := rfl
@[simp] theorem State.setCursor_session (s : State) (p : Nat) : (s.setCursor p).session = s.session := rfl
@[simp] theorem State.setCursor_rdr (s : State) (p : Nat) : (s.setCursor p).rdr = { s.rdr with bitpos := BitVec.ofNat 35 p } := rfl
@[simp] theorem State.setCursor_mem (s : State) (p : Nat) : (s.setCursor p).mem = s.mem := rfl
@[simp] theorem State.setCursor_host (s : State) (p : Nat) : (s.setCursor p).host = s.host := rfl
@[simp] theorem State.setCursor_busData (s : State) (p : Nat) : (s.setCursor p).busData = s.busData := rfl
@[simp] theorem State.setCursor_draws (s : State) (p : Nat) : (s.setCursor p).draws = s.draws := rfl
@[simp] theorem State.setCursor_contested (s : State) (p : Nat) : (s.setCursor p).contested = s.contested := rfl

/-! ## setRes -/

@[simp] theorem State.setRes_irqEn (s : State) (i : Fin 8) (v : Nat) : (s.setRes i v).irqEn = s.irqEn := rfl
@[simp] theorem State.setRes_done (s : State) (i : Fin 8) (v : Nat) : (s.setRes i v).done = s.done := rfl
@[simp] theorem State.setRes_overrun (s : State) (i : Fin 8) (v : Nat) : (s.setRes i v).overrun = s.overrun := rfl
@[simp] theorem State.setRes_err (s : State) (i : Fin 8) (v : Nat) : (s.setRes i v).err = s.err := rfl
@[simp] theorem State.setRes_cmd (s : State) (i : Fin 8) (v : Nat) : (s.setRes i v).cmd = s.cmd := rfl
@[simp] theorem State.setRes_args (s : State) (i : Fin 8) (v : Nat) : (s.setRes i v).args = s.args := rfl
@[simp] theorem State.setRes_res (s : State) (i : Fin 8) (v : Nat) : (s.setRes i v).res = s.res.set i (BitVec.ofNat 32 v) := rfl
@[simp] theorem State.setRes_latch (s : State) (i : Fin 8) (v : Nat) : (s.setRes i v).latch = s.latch := rfl
@[simp] theorem State.setRes_session (s : State) (i : Fin 8) (v : Nat) : (s.setRes i v).session = s.session := rfl
@[simp] theorem State.setRes_rdr (s : State) (i : Fin 8) (v : Nat) : (s.setRes i v).rdr = s.rdr := rfl
@[simp] theorem State.setRes_mem (s : State) (i : Fin 8) (v : Nat) : (s.setRes i v).mem = s.mem := rfl
@[simp] theorem State.setRes_host (s : State) (i : Fin 8) (v : Nat) : (s.setRes i v).host = s.host := rfl
@[simp] theorem State.setRes_busData (s : State) (i : Fin 8) (v : Nat) : (s.setRes i v).busData = s.busData := rfl
@[simp] theorem State.setRes_draws (s : State) (i : Fin 8) (v : Nat) : (s.setRes i v).draws = s.draws := rfl
@[simp] theorem State.setRes_contested (s : State) (i : Fin 8) (v : Nat) : (s.setRes i v).contested = s.contested := rfl

/-! ## completeWith -/

@[simp] theorem State.completeWith_irqEn (s : State) (e : Option Error) : (s.completeWith e).irqEn = s.irqEn := rfl
@[simp] theorem State.completeWith_done (s : State) (e : Option Error) : (s.completeWith e).done = true := rfl
@[simp] theorem State.completeWith_overrun (s : State) (e : Option Error) : (s.completeWith e).overrun = s.overrun := rfl
@[simp] theorem State.completeWith_err (s : State) (e : Option Error) : (s.completeWith e).err = e := rfl
@[simp] theorem State.completeWith_cmd (s : State) (e : Option Error) : (s.completeWith e).cmd = s.cmd := rfl
@[simp] theorem State.completeWith_args (s : State) (e : Option Error) : (s.completeWith e).args = s.args := rfl
@[simp] theorem State.completeWith_res (s : State) (e : Option Error) : (s.completeWith e).res = s.res := rfl
@[simp] theorem State.completeWith_latch (s : State) (e : Option Error) : (s.completeWith e).latch = { s.latch with valid := false } := rfl
@[simp] theorem State.completeWith_session (s : State) (e : Option Error) : (s.completeWith e).session = s.session := rfl
@[simp] theorem State.completeWith_rdr (s : State) (e : Option Error) : (s.completeWith e).rdr = s.rdr := rfl
@[simp] theorem State.completeWith_mem (s : State) (e : Option Error) : (s.completeWith e).mem = s.mem := rfl
@[simp] theorem State.completeWith_host (s : State) (e : Option Error) : (s.completeWith e).host = s.host := rfl
@[simp] theorem State.completeWith_busData (s : State) (e : Option Error) : (s.completeWith e).busData = s.busData := rfl
@[simp] theorem State.completeWith_draws (s : State) (e : Option Error) : (s.completeWith e).draws = s.draws := rfl
@[simp] theorem State.completeWith_contested (s : State) (e : Option Error) : (s.completeWith e).contested = s.contested := rfl

/-! ## acknowledge -/

@[simp] theorem State.acknowledge_irqEn (s : State) : s.acknowledge.irqEn = s.irqEn := rfl
@[simp] theorem State.acknowledge_done (s : State) : s.acknowledge.done = false := rfl
@[simp] theorem State.acknowledge_overrun (s : State) : s.acknowledge.overrun = s.overrun := rfl
@[simp] theorem State.acknowledge_err (s : State) : s.acknowledge.err = s.err := rfl
@[simp] theorem State.acknowledge_cmd (s : State) : s.acknowledge.cmd = s.cmd := rfl
@[simp] theorem State.acknowledge_args (s : State) : s.acknowledge.args = s.args := rfl
@[simp] theorem State.acknowledge_res (s : State) : s.acknowledge.res = s.res := rfl
@[simp] theorem State.acknowledge_latch (s : State) : s.acknowledge.latch = s.latch := rfl
@[simp] theorem State.acknowledge_session (s : State) : s.acknowledge.session = s.session := rfl
@[simp] theorem State.acknowledge_rdr (s : State) : s.acknowledge.rdr = s.rdr := rfl
@[simp] theorem State.acknowledge_mem (s : State) : s.acknowledge.mem = s.mem := rfl
@[simp] theorem State.acknowledge_host (s : State) : s.acknowledge.host = s.host := rfl
@[simp] theorem State.acknowledge_busData (s : State) : s.acknowledge.busData = s.busData := rfl
@[simp] theorem State.acknowledge_draws (s : State) : s.acknowledge.draws = s.draws := rfl
@[simp] theorem State.acknowledge_contested (s : State) : s.acknowledge.contested = s.contested := rfl

/-! ## latchCommand -/

@[simp] theorem State.latchCommand_irqEn (s : State) (v : Word) : (s.latchCommand v).irqEn = s.irqEn := rfl
@[simp] theorem State.latchCommand_done (s : State) (v : Word) : (s.latchCommand v).done = false := rfl
@[simp] theorem State.latchCommand_overrun (s : State) (v : Word) : (s.latchCommand v).overrun = s.overrun := rfl
@[simp] theorem State.latchCommand_err (s : State) (v : Word) : (s.latchCommand v).err = none := rfl
@[simp] theorem State.latchCommand_cmd (s : State) (v : Word) : (s.latchCommand v).cmd = v := rfl
@[simp] theorem State.latchCommand_args (s : State) (v : Word) : (s.latchCommand v).args = s.args := rfl
@[simp] theorem State.latchCommand_res (s : State) (v : Word) : (s.latchCommand v).res = s.res := rfl
@[simp] theorem State.latchCommand_latch (s : State) (v : Word) : (s.latchCommand v).latch = ⟨true, v.extractLsb' 0 8, v, s.args⟩ := rfl
@[simp] theorem State.latchCommand_session (s : State) (v : Word) : (s.latchCommand v).session = s.session := rfl
@[simp] theorem State.latchCommand_rdr (s : State) (v : Word) : (s.latchCommand v).rdr = s.rdr := rfl
@[simp] theorem State.latchCommand_mem (s : State) (v : Word) : (s.latchCommand v).mem = s.mem := rfl
@[simp] theorem State.latchCommand_host (s : State) (v : Word) : (s.latchCommand v).host = s.host := rfl
@[simp] theorem State.latchCommand_busData (s : State) (v : Word) : (s.latchCommand v).busData = s.busData := rfl
@[simp] theorem State.latchCommand_draws (s : State) (v : Word) : (s.latchCommand v).draws = s.draws := rfl
@[simp] theorem State.latchCommand_contested (s : State) (v : Word) : (s.latchCommand v).contested = s.contested := rfl

/-! ## ctrlWrite -/

@[simp] theorem State.ctrlWrite_irqEn (s : State) (v : Word) : (s.ctrlWrite v).irqEn = v.getLsbD 0 := rfl
@[simp] theorem State.ctrlWrite_done (s : State) (v : Word) : (s.ctrlWrite v).done = s.done := rfl
@[simp] theorem State.ctrlWrite_overrun (s : State) (v : Word) : (s.ctrlWrite v).overrun = s.overrun := rfl
@[simp] theorem State.ctrlWrite_err (s : State) (v : Word) : (s.ctrlWrite v).err = s.err := rfl
@[simp] theorem State.ctrlWrite_cmd (s : State) (v : Word) : (s.ctrlWrite v).cmd = s.cmd := rfl
@[simp] theorem State.ctrlWrite_args (s : State) (v : Word) : (s.ctrlWrite v).args = s.args := rfl
@[simp] theorem State.ctrlWrite_res (s : State) (v : Word) : (s.ctrlWrite v).res = s.res := rfl
@[simp] theorem State.ctrlWrite_latch (s : State) (v : Word) : (s.ctrlWrite v).latch = s.latch := rfl
@[simp] theorem State.ctrlWrite_session (s : State) (v : Word) : (s.ctrlWrite v).session = s.session := rfl
@[simp] theorem State.ctrlWrite_rdr (s : State) (v : Word) : (s.ctrlWrite v).rdr = s.rdr := rfl
@[simp] theorem State.ctrlWrite_mem (s : State) (v : Word) : (s.ctrlWrite v).mem = s.mem := rfl
@[simp] theorem State.ctrlWrite_host (s : State) (v : Word) : (s.ctrlWrite v).host = s.host := rfl
@[simp] theorem State.ctrlWrite_busData (s : State) (v : Word) : (s.ctrlWrite v).busData = s.busData := rfl
@[simp] theorem State.ctrlWrite_draws (s : State) (v : Word) : (s.ctrlWrite v).draws = s.draws := rfl
@[simp] theorem State.ctrlWrite_contested (s : State) (v : Word) : (s.ctrlWrite v).contested = s.contested := rfl

/-! ## scrambleSpans -/

@[simp] theorem State.scrambleSpans_irqEn (s : State) (c : Config) (sp : RowSpans) : (s.scrambleSpans c sp).irqEn = s.irqEn := rfl
@[simp] theorem State.scrambleSpans_done (s : State) (c : Config) (sp : RowSpans) : (s.scrambleSpans c sp).done = s.done := rfl
@[simp] theorem State.scrambleSpans_overrun (s : State) (c : Config) (sp : RowSpans) : (s.scrambleSpans c sp).overrun = s.overrun := rfl
@[simp] theorem State.scrambleSpans_err (s : State) (c : Config) (sp : RowSpans) : (s.scrambleSpans c sp).err = s.err := rfl
@[simp] theorem State.scrambleSpans_cmd (s : State) (c : Config) (sp : RowSpans) : (s.scrambleSpans c sp).cmd = s.cmd := rfl
@[simp] theorem State.scrambleSpans_args (s : State) (c : Config) (sp : RowSpans) : (s.scrambleSpans c sp).args = s.args := rfl
@[simp] theorem State.scrambleSpans_res (s : State) (c : Config) (sp : RowSpans) : (s.scrambleSpans c sp).res = s.res := rfl
@[simp] theorem State.scrambleSpans_latch (s : State) (c : Config) (sp : RowSpans) : (s.scrambleSpans c sp).latch = s.latch := rfl
@[simp] theorem State.scrambleSpans_session (s : State) (c : Config) (sp : RowSpans) : (s.scrambleSpans c sp).session = s.session := rfl
@[simp] theorem State.scrambleSpans_rdr (s : State) (c : Config) (sp : RowSpans) : (s.scrambleSpans c sp).rdr = s.rdr := rfl
@[simp] theorem State.scrambleSpans_mem (s : State) (c : Config) (sp : RowSpans) : (s.scrambleSpans c sp).mem = s.mem.writeAll (anyCells c s.draws (spanAddrs sp)) := rfl
@[simp] theorem State.scrambleSpans_host (s : State) (c : Config) (sp : RowSpans) : (s.scrambleSpans c sp).host = s.host := rfl
@[simp] theorem State.scrambleSpans_busData (s : State) (c : Config) (sp : RowSpans) : (s.scrambleSpans c sp).busData = s.busData := rfl
@[simp] theorem State.scrambleSpans_draws (s : State) (c : Config) (sp : RowSpans) : (s.scrambleSpans c sp).draws = s.draws + (spanAddrs sp).length := rfl
@[simp] theorem State.scrambleSpans_contested (s : State) (c : Config) (sp : RowSpans) : (s.scrambleSpans c sp).contested = s.contested := rfl

/-! ## setDescriptor -/

@[simp] theorem State.setDescriptor_irqEn (s : State) (d : Descriptor) : (s.setDescriptor d).irqEn = s.irqEn := rfl
@[simp] theorem State.setDescriptor_done (s : State) (d : Descriptor) : (s.setDescriptor d).done = s.done := rfl
@[simp] theorem State.setDescriptor_overrun (s : State) (d : Descriptor) : (s.setDescriptor d).overrun = s.overrun := rfl
@[simp] theorem State.setDescriptor_err (s : State) (d : Descriptor) : (s.setDescriptor d).err = s.err := rfl
@[simp] theorem State.setDescriptor_cmd (s : State) (d : Descriptor) : (s.setDescriptor d).cmd = s.cmd := rfl
@[simp] theorem State.setDescriptor_args (s : State) (d : Descriptor) : (s.setDescriptor d).args = s.args := rfl
@[simp] theorem State.setDescriptor_latch (s : State) (d : Descriptor) : (s.setDescriptor d).latch = s.latch := rfl
@[simp] theorem State.setDescriptor_session (s : State) (d : Descriptor) : (s.setDescriptor d).session = s.session := rfl
@[simp] theorem State.setDescriptor_rdr (s : State) (d : Descriptor) : (s.setDescriptor d).rdr = s.rdr := rfl
@[simp] theorem State.setDescriptor_mem (s : State) (d : Descriptor) : (s.setDescriptor d).mem = s.mem := rfl
@[simp] theorem State.setDescriptor_host (s : State) (d : Descriptor) : (s.setDescriptor d).host = s.host := rfl
@[simp] theorem State.setDescriptor_busData (s : State) (d : Descriptor) : (s.setDescriptor d).busData = s.busData := rfl
@[simp] theorem State.setDescriptor_draws (s : State) (d : Descriptor) : (s.setDescriptor d).draws = s.draws := rfl
@[simp] theorem State.setDescriptor_contested (s : State) (d : Descriptor) : (s.setDescriptor d).contested = s.contested := rfl

/-! ## Outcomes of a pseudocode -/

@[simp] theorem complete_state (s : State) : (complete s).state = s := rfl
@[simp] theorem complete_err (s : State) : (complete s).err = none := rfl
@[simp] theorem raise_state (e : Error) (s : State) : (raise e s).state = s := rfl
@[simp] theorem raise_err (e : Error) (s : State) : (raise e s).err = some e := rfl

@[simp] theorem Session.header?_closed : Session.header? .closed = none := rfl
@[simp] theorem Session.header?_opened (h : Header) : Session.header? (.opened h) = some h := rfl
@[simp] theorem Session.header?_decoding (h : Header) : Session.header? (.decoding h) = some h := rfl

/-! ## drawContested -/

@[simp] theorem State.drawContested_irqEn (s : State) (c : Config) : (s.drawContested c).irqEn = s.irqEn := rfl
@[simp] theorem State.drawContested_done (s : State) (c : Config) : (s.drawContested c).done = s.done := rfl
@[simp] theorem State.drawContested_overrun (s : State) (c : Config) : (s.drawContested c).overrun = s.overrun := rfl
@[simp] theorem State.drawContested_err (s : State) (c : Config) : (s.drawContested c).err = s.err := rfl
@[simp] theorem State.drawContested_cmd (s : State) (c : Config) : (s.drawContested c).cmd = s.cmd := rfl
@[simp] theorem State.drawContested_args (s : State) (c : Config) : (s.drawContested c).args = s.args := rfl
@[simp] theorem State.drawContested_res (s : State) (c : Config) : (s.drawContested c).res = s.res := rfl
@[simp] theorem State.drawContested_latch (s : State) (c : Config) : (s.drawContested c).latch = s.latch := rfl
@[simp] theorem State.drawContested_session (s : State) (c : Config) : (s.drawContested c).session = s.session := rfl
@[simp] theorem State.drawContested_rdr (s : State) (c : Config) : (s.drawContested c).rdr = s.rdr := rfl
@[simp] theorem State.drawContested_host (s : State) (c : Config) : (s.drawContested c).host = s.host := rfl
@[simp] theorem State.drawContested_busData (s : State) (c : Config) : (s.drawContested c).busData = s.busData := rfl
@[simp] theorem State.drawContested_mem (s : State) (c : Config) : (s.drawContested c).mem = s.mem.writeAll (anyCells c s.draws s.contestedAddrs) := rfl
@[simp] theorem State.drawContested_draws (s : State) (c : Config) : (s.drawContested c).draws = s.draws + s.contestedAddrs.length := rfl
@[simp] theorem State.drawContested_contested (s : State) (c : Config) : (s.drawContested c).contested = [] := rfl

end Sys2Proof.Machine
end

