-- ==== Sys2Proof/Laws/Ops.lean ====
section
/-! SUPPORT. The shared operations, each with the one lemma that says what it does: the range predicates, the command
frame, and the pseudocode of a command with its completion. -/

namespace Sys2Proof.Machine

@[simp] theorem rangeOk_iff (base len : Nat) : rangeOk base len = true ↔ base + len ≤ addrSpace := by
  simp [rangeOk]

@[simp] theorem overlap_iff (a la b lb : Nat) :
    overlap a la b lb = true ↔ 0 < la ∧ 0 < lb ∧ a < b + lb ∧ b < a + la := by
  simp [overlap, and_assoc]

/-- The completion, field by field (47_session_commands.md R321). -/
theorem completeWith_eq_completed (s : State) (e : Option Error) : s.completeWith e = completed s e := rfl

theorem finish_complete (s : State) : finish (complete s) = .next (completed s none) := rfl

theorem finish_raise (e : Error) (s : State) : finish (raise e s) = .next (completed s (some e)) := rfl

/-- A pseudocode with its completion answers a next state, always. -/
theorem finish_next {p : Perform} {t : State} : finish p = .next t ↔ t = completed p.state p.err := by
  constructor
  · intro h
    cases h
    rfl
  · rintro rfl
    rfl

@[simp] theorem Session.isOpen_closed : Session.isOpen .closed = false := rfl
@[simp] theorem Session.isOpen_opened (h : Header) : Session.isOpen (.opened h) = true := rfl
@[simp] theorem Session.isOpen_decoding (h : Header) : Session.isOpen (.decoding h) = true := rfl

theorem Session.header?_eq_none {x : Session} : x.header? = none ↔ x = .closed := by
  cases x <;> simp

theorem Session.isOpen_eq_false {x : Session} : x.isOpen = false ↔ x = .closed := by
  cases x <;> simp

@[simp] theorem Session.afterCopy_header? (x : Session) : x.afterCopy.header? = x.header? := by
  cases x <;> rfl

theorem Session.afterCopy_of_open {x : Session} {h : Header} (hx : x.header? = some h) : x.afterCopy = .decoding h := by
  cases x <;> simp_all [Session.afterCopy]

@[simp] theorem State.bindReader_closeSession (s : State) (b l : Word) :
    s.closeSession.bindReader b l = { s with session := .closed, rdr := ⟨true, b, l, 0⟩ } := rfl

/-- Closing a session only if one is open, before a bind, leaves the session closed either way
(40_bitstream_reader.md R150). -/
theorem State.bind_after_close (s : State) (x : Bool) (hx : x = false → s.session = .closed) (b l : Word) :
    (if x then s.closeSession else s).bindReader b l = { s with session := .closed, rdr := ⟨true, b, l, 0⟩ } := by
  cases x with
  | true => rfl
  | false =>
    have h := hx rfl
    cases s
    cases h
    rfl

/-- The pseudocode of a command over the chip's configuration (47_session_commands.md R321). -/
def performOf : Instr → State → Except Fault Perform
  | .nop, s => .ok (performNop s)
  | .openSession, s => .ok (performOpen Config.chip s)
  | .getSize, s => .ok (performGetSize s)
  | .getPixelFormat, s => .ok (performGetPixelFormat s)
  | .copyRegion, s => performCopyRegion Config.chip s
  | .close, s => .ok (performClose s)
  | .lookupPixelFormat, s => .ok (performLookup Config.chip s)
  | .brBind, s => .ok (performBrBind s)
  | .brReadBits, s => .ok (performBrReadBits s)
  | .brAlign, s => .ok (performBrAlign s)
  | .brSeek, s => .ok (performBrSeek s)
  | .brTell, s => .ok (performBrTell s)

/-- Every meaning is its pseudocode with the completion (47_session_commands.md R321). -/
theorem exec_eq_performOf (i : Instr) (s : State) :
    exec i s = match performOf i s with
      | .ok p => finish p
      | .error f => .fault f := by
  cases i <;> rfl

/-- What a command that answers a next state did. -/
theorem exec_next {i : Instr} {s t : State} (h : exec i s = .next t) :
    ∃ p, performOf i s = .ok p ∧ t = completed p.state p.err := by
  rw [exec_eq_performOf] at h
  split at h
  · rename_i p hp
    exact ⟨p, hp, finish_next.mp h⟩
  · cases h

end Sys2Proof.Machine
end

