-- ==== Sys2Proof/Laws/Commands.lean ====
section
/-! SUPPORT. One lemma per command that says everything its pseudocode can do. -/

namespace Sys2Proof.Machine

/-- The result registers of a descriptor, all at once (42_pixel_format_registry.md R201). -/
theorem setDescriptor_eq (s : State) (d : Descriptor) :
    s.setDescriptor d = { s with res := descriptorRes s.res d } := by
  have hf : BitVec.ofNat 32 (descriptorFlags d) = 0#29 ++ BitVec.ofBool d.channelOrderReversed
      ++ BitVec.ofBool d.premultipliedAlpha ++ BitVec.ofBool d.hasAlpha := by
    unfold descriptorFlags
    cases d.channelOrderReversed <;> cases d.premultipliedAlpha <;> cases d.hasAlpha <;> rfl
  unfold State.setDescriptor State.setRes descriptorRes
  rw [← hf]
  simp only [State.mk.injEq, true_and, and_true]
  apply Vector.ext
  intro i hi
  simp only [Vector.getElem_set]
  interval_cases i <;> simp

/-- BR_BIND (40_bitstream_reader.md R150). -/
theorem performBrBind_eq (s : State) : performBrBind s =
    if s.u 0 + s.u 1 ≤ addrSpace then
      complete { s with session := .closed, rdr := ⟨true, s.latch.args[0], s.latch.args[1], 0⟩ }
    else raise .badAddress s := by
  unfold performBrBind
  by_cases h : s.u 0 + s.u 1 ≤ addrSpace
  · simp only [rangeOk_iff, h, not_true_eq_false, if_false, if_true]
    rw [State.bind_after_close s _ fun hx => Session.isOpen_eq_false.mp hx]
  · simp [h]

/-- OPEN up to its parse (47_session_commands.md R326). -/
theorem performOpen_eq (c : Config) (s : State) : performOpen c s =
    if s.u 0 + s.u 1 ≤ addrSpace then
      openBound c { s with session := .closed, rdr := ⟨true, s.latch.args[0], s.latch.args[1], 0⟩ }
    else raise .badAddress s := by
  unfold performOpen
  by_cases h : s.u 0 + s.u 1 ≤ addrSpace
  · simp only [rangeOk_iff, h, not_true_eq_false, if_false, if_true]
    rw [State.bind_after_close s _ fun hx => Session.isOpen_eq_false.mp (Bool.or_eq_false_iff.mp hx).1]
  · simp [h]

/-- What `Accept` lets through (41_container_header_parser.md R174). -/
theorem accept_ok {c : Config} {b : List Byte} {p : Parsed} (h : accept c b = .ok p) :
    parseContainer c b = .ok p ∧ (1 ≤ p.width ∧ p.width ≤ maxDim) ∧ (1 ≤ p.height ∧ p.height ≤ maxDim) ∧
      (∀ e ∈ p.extents, e.offset + e.length ≤ b.length) ∧
      (∃ e, p.extents.head? = some e ∧ p.codedOffset.toNat = e.offset) := by
  unfold accept at h
  split at h
  · cases h
  · cases h
  · cases h
  · rename_i q hq
    split at h
    · cases h
    · split at h
      · cases h
      · split at h
        · cases h
        · rename_i first rest he
          split at h
          · cases h
          · split at h
            · cases h
            · rename_i h1 h2 h3 h4
              cases h
              simp only [not_or, Nat.not_lt, not_not, List.all_eq_true, Extent.inside, decide_eq_true_eq] at h1 h2 h3
              refine ⟨hq, by omega, by omega, h3, first, by simp [he], ?_⟩
              simpa using h4

/-- A source without a byte is too short for any magic signature (41_container_header_parser.md R171). -/
theorem accept_nil (c : Config) : accept c [] = .error .invalidFormat := rfl

/-- Every row the registry gives keeps the laws (42_pixel_format_registry.md R206). -/
theorem registry_ok {c : Config} {g : Guid} {d : Descriptor} (h : registry c g = some d) : descriptorOk d = true := by
  unfold registry at h
  split at h
  · cases h
    simp [descriptorOk, scenarioDescriptor, depthLaw, sampleBits]
  · obtain ⟨l, _, rfl⟩ := Option.map_eq_some_iff.mp h
    exact l.2

/-- What OPEN does after it has bound the reader (47_session_commands.md R326). -/
theorem openBound_cases (c : Config) (s : State) :
    (∃ e, accept c s.sourceBytes = .error e ∧ openBound c s = raise e { s with rdr := Reader.unbound }) ∨
    (∃ p, accept c s.sourceBytes = .ok p ∧ registry c p.guid = none ∧
      openBound c s = raise .unknownPixelFormat { s with rdr := Reader.unbound }) ∨
    (∃ p d, accept c s.sourceBytes = .ok p ∧ registry c p.guid = some d ∧
      openBound c s = complete ({ s with session := .opened { p with fmt := d } }.setCursor (codedBit p))) := by
  unfold openBound
  cases ha : accept c s.sourceBytes with
  | error e => exact .inl ⟨e, rfl, rfl⟩
  | ok p =>
    cases hr : registry c p.guid with
    | none => exact .inr (.inl ⟨p, rfl, hr, by simp only [hr]⟩)
    | some d => exact .inr (.inr ⟨p, d, rfl, hr, by simp only [hr]⟩)

/-- BR_READ_BITS (40_bitstream_reader.md R151). -/
theorem performBrReadBits_cases (s : State) :
    (s.rdr.bound = false ∧ performBrReadBits s = raise .sessionClosed s) ∨
    (s.rdr.bound = true ∧ 32 < s.u 0 ∧ performBrReadBits s = raise .illegalCommand s) ∨
    (s.rdr.bound = true ∧ s.u 0 ≤ 32 ∧ 8 * s.rdr.len.toNat < s.cursor + s.u 0 ∧
      performBrReadBits s = raise .unexpectedEnd s) ∨
    (s.rdr.bound = true ∧ s.u 0 ≤ 32 ∧ s.cursor + s.u 0 ≤ 8 * s.rdr.len.toNat ∧
      performBrReadBits s =
        complete ((s.setCursor (s.cursor + s.u 0)).setRes 0 (peek s.srcByte s.cursor (s.u 0)))) := by
  unfold performBrReadBits readBits maxReadBits
  cases hb : s.rdr.bound with
  | false => simp
  | true =>
    by_cases hn : s.u 0 > 32
    · simp [hn, Nat.not_le.mpr hn]
    · by_cases hl : s.cursor + s.u 0 > 8 * s.rdr.len.toNat
      · simp [hn, hl, Nat.not_le.mpr hl, Nat.le_of_not_lt hn]
      · simp [hn, hl, Nat.le_of_not_lt hn, Nat.le_of_not_lt hl]

/-- BR_SEEK (40_bitstream_reader.md R153). -/
theorem performBrSeek_cases (s : State) :
    (s.rdr.bound = false ∧ performBrSeek s = raise .sessionClosed s) ∨
    (s.rdr.bound = true ∧ s.rdr.len.toNat < s.u 0 ∧ performBrSeek s = raise .unexpectedEnd s) ∨
    (s.rdr.bound = true ∧ s.u 0 ≤ s.rdr.len.toNat ∧ performBrSeek s = complete (s.setCursor (8 * s.u 0))) := by
  unfold performBrSeek seek
  cases hb : s.rdr.bound with
  | false => simp
  | true =>
    by_cases hl : s.u 0 > s.rdr.len.toNat
    · simp [hl, Nat.not_le.mpr hl]
    · simp [hl, Nat.le_of_not_lt hl]

/-- The validity of a rectangle (47_session_commands.md R331). -/
theorem validRect_iff (hdr : Header) (x y w h : Int) : validRect hdr x y w h = true ↔
    1 ≤ w ∧ 1 ≤ h ∧ 0 ≤ x ∧ 0 ≤ y ∧ x + w ≤ hdr.width ∧ y + h ≤ hdr.height := by
  simp [validRect, and_assoc]

/-- COPY_REGION reaches its decode exactly when its checks pass, and then with the operands' rectangle and spans
(47_session_commands.md R329). -/
theorem copyChecks_ok {s : State} {j : CopyJob} : copyChecks s = .ok j ↔
    ∃ h, CopyReaches h s ∧ j = ⟨h, copyRect s, s.spansOperand h.fmt⟩ := by
  constructor
  · intro hj
    unfold copyChecks at hj
    split at hj
    · cases hj
    · rename_i h hh
      split at hj
      · cases hj
      · split at hj
        · cases hj
        · dsimp only at hj
          split at hj
          · cases hj
          · split at hj
            · cases hj
            · split at hj
              · cases hj
              · rename_i h1 h2 h3 h4 h5
                cases hj
                simp only [validRect_iff, rangeOk_iff, overlap_iff, not_not, not_or, Nat.not_lt] at h1 h2 h3 h4 h5
                exact ⟨h, ⟨hh, h1, h2, h3.1, h3.2, h4, h5⟩, rfl⟩
  · rintro ⟨h, ⟨hh, h1, h2, h3, h4, h5, h6⟩, rfl⟩
    unfold copyChecks
    simp only [hh]
    rw [if_neg (by rw [validRect_iff]; exact not_not.mpr h1), if_neg (not_not.mpr h2)]
    rw [if_neg (by exact not_or.mpr ⟨Nat.not_lt.mpr h3, Nat.not_lt.mpr h4⟩),
      if_neg (by rw [rangeOk_iff]; exact not_not.mpr h5), if_neg (by rw [overlap_iff]; exact h6)]
    rfl

/-- COPY_REGION: a check that fails, or the decode's outcome (47_session_commands.md R329). -/
theorem performCopyRegion_cases (c : Config) (s : State) :
    (∃ e, copyChecks s = .error e ∧ performCopyRegion c s = .ok (raise e s)) ∨
    (∃ h, CopyReaches h s ∧
      performCopyRegion c s =
        match regionOutcome c s.sourceBytes h (copyRect s) with
        | .ok pix => .ok (complete (copyWrite s ⟨h, copyRect s, s.spansOperand h.fmt⟩ pix))
        | .fail e _ => .ok (raise (decodeErrorCode e) (copyFail c s ⟨h, copyRect s, s.spansOperand h.fmt⟩))
        | .fault f => .error f) := by
  unfold performCopyRegion
  cases hc : copyChecks s with
  | error e => exact .inl ⟨e, rfl, rfl⟩
  | ok j =>
    obtain ⟨h, hr, rfl⟩ := copyChecks_ok.mp hc
    exact .inr ⟨h, hr, rfl⟩

end Sys2Proof.Machine
end

