-- ==== Sys2Proof/Laws/Encoding.lean ====
section
/-! SUPPORT. The byte order of words and the fields of a command word: a word is its two fields, and the bytes of the
bus give it back. -/

namespace Sys2Proof

/-- A command word is its reserved field over its opcode (30_encoding.md R110). -/
theorem word_fields (w : Word) : w = rsvField w ++ opField w := by
  apply BitVec.eq_of_getLsbD_eq
  intro i hi
  simp only [rsvField, opField, BitVec.getLsbD_append, BitVec.getLsbD_extractLsb']
  by_cases h : i < 8
  · simp [h]
  · rw [show 8 + (i - 8) = i by omega]
    simp [h, show i - 8 < 24 by omega]

theorem rsvField_toNat (w : Word) : (rsvField w).toNat = w.toNat / 256 := by
  have := w.isLt
  simp only [rsvField, BitVec.extractLsb'_toNat, Nat.shiftRight_eq_div_pow]
  omega

theorem opField_toNat (w : Word) : (opField w).toNat = w.toNat % 256 := by
  simp [opField, BitVec.extractLsb'_toNat]

/-- Every row of the opcode map is the opcode of its command. -/
theorem opcodeTable_op {r : OpcodeRow} (h : r ∈ opcodeTable) : r.op = opcodeOf r.command := by
  simp only [opcodeTable, List.mem_cons, List.not_mem_nil, or_false] at h
  rcases h with rfl | rfl | rfl | rfl | rfl | rfl | rfl | rfl | rfl | rfl | rfl | rfl <;> rfl

/-- The opcode map has no opcode twice. -/
theorem opcodeTable_distinct : (opcodeTable.map OpcodeRow.op).Nodup := by decide

@[simp] theorem leBytes_length (n v : Nat) : (leBytes n v).length = n := by
  induction n generalizing v with
  | zero => rfl
  | succ n ih => simp [leBytes, ih]

/-- Byte `k` of `LE(v, n)` is `v[8k+7 : 8k]` (46_pixel_format_converter.md R300). -/
theorem leBytes_getElem? {n v k : Nat} (h : k < n) : (leBytes n v)[k]? = some (BitVec.ofNat 8 (v / 256 ^ k)) := by
  induction n generalizing v k with
  | zero => omega
  | succ n ih =>
    cases k with
    | zero => simp [leBytes]
    | succ k => simp [leBytes, ih (show k < n by omega), Nat.div_div_eq_div_mul, Nat.pow_succ, Nat.mul_comm]

/-- The number `n` bytes hold, once more: what `leBytes` writes `leNat` reads (00_scope.md R13). -/
theorem leNat_leBytes (n v : Nat) : leNat (leBytes n v) = v % 256 ^ n := by
  induction n generalizing v with
  | zero => simp [leBytes, leNat, Nat.mod_one]
  | succ n ih =>
    rw [leBytes, leNat, ih, BitVec.toNat_ofNat, show 256 ^ (n + 1) = 256 * 256 ^ n by ring, Nat.mod_mul]

/-- Four bytes, lowest address first, as the word they make (10_state.md R31). -/
theorem ofNat_leNat_four (b0 b1 b2 b3 : Byte) : BitVec.ofNat 32 (leNat [b0, b1, b2, b3]) = b3 ++ b2 ++ b1 ++ b0 := by
  apply BitVec.eq_of_toNat_eq
  simp only [leNat, BitVec.toNat_append, BitVec.toNat_ofNat]
  have h0 := b0.isLt
  have h1 := b1.isLt
  have h2 := b2.isLt
  have h3 := b3.isLt
  rw [← Nat.shiftLeft_add_eq_or_of_lt (by omega), ← Nat.shiftLeft_add_eq_or_of_lt (by omega),
    ← Nat.shiftLeft_add_eq_or_of_lt (by omega)]
  simp only [Nat.shiftLeft_eq]
  omega

namespace Machine

@[simp] theorem wordBytes_length (v : Word) : (wordBytes v).length = 4 := leBytes_length 4 _

/-- The bytes the bus carries give the word back (10_state.md R31). -/
@[simp] theorem leNat_wordBytes (v : Word) : BitVec.ofNat 32 (leNat (wordBytes v)) = v := by
  apply BitVec.eq_of_toNat_eq
  rw [wordBytes, leNat_leBytes, BitVec.toNat_ofNat]
  have := v.isLt
  omega

/-- Byte `k` of a word on the bus is bits `8k+7 : 8k` (10_state.md R31). -/
theorem wordBytes_eq (v : Word) :
    wordBytes v = [v.extractLsb' 0 8, v.extractLsb' 8 8, v.extractLsb' 16 8, v.extractLsb' 24 8] := by
  simp only [wordBytes, leBytes, List.cons.injEq, and_true]
  refine ⟨?_, ?_, ?_, ?_⟩ <;> apply BitVec.eq_of_toNat_eq <;>
    simp [BitVec.extractLsb'_toNat, Nat.shiftRight_eq_div_pow, Nat.div_div_eq_div_mul]

/-- An aligned 32-bit host write reaches its register (10_state.md R31). -/
theorem State.regWrite_word {s : State} {off : BitVec 8} {v : Word} (h : off.toNat % 4 = 0) :
    s.regWrite off (wordBytes v) = s.setRegWord off.toNat v := by
  simp [State.regWrite, windowAccess, h]

/-- Any other host write reaches none (10_state.md R31). -/
theorem State.regWrite_other {s : State} {off : BitVec 8} {data : List Byte}
    (h : data.length ≠ 4 ∨ off.toNat % 4 ≠ 0) : s.regWrite off data = s := by
  have : windowAccess off data.length = false := by
    simp only [windowAccess, Bool.and_eq_false_iff, decide_eq_false_iff_not]
    exact h
  simp [State.regWrite, this]

/-- The bits of the STATUS word, one field after another from bit 0 (10_state.md R34). -/
theorem State.statusWord_getLsbD (s : State) (i : Nat) : s.statusWord.getLsbD i =
    if i < 1 then s.busy else if i < 2 then s.done else if i < 3 then s.errorFlag else if i < 4 then s.overrun
    else if i < 8 then false else if i < 12 then (errCode s.err).getLsbD (i - 8) else if i < 16 then false
    else if i < 18 then s.session.code.getLsbD (i - 16) else if i < 20 then false
    else if i < 21 then s.rdr.bound else false := by
  change BitVec.getLsbD (w := 11 + 1 + 2 + 2 + 4 + 4 + 4 + 1 + 1 + 1 + 1) _ i = _
  unfold State.statusWord
  simp only [BitVec.getLsbD_append, BitVec.getLsbD_zero, BitVec.getLsbD_ofBool]
  by_cases h : i < 21
  · interval_cases i <;> simp
  · simp only [show ¬ i < 1 by omega, show ¬ i < 2 by omega, show ¬ i < 3 by omega, show ¬ i < 4 by omega,
      show ¬ i < 8 by omega, show ¬ i < 12 by omega, show ¬ i < 16 by omega, show ¬ i < 18 by omega,
      show ¬ i < 20 by omega, show ¬ i < 21 by omega, show ¬ i - 1 < 1 by omega, show ¬ i - 1 - 1 < 1 by omega,
      show ¬ i - 1 - 1 - 1 < 1 by omega, show ¬ i - 1 - 1 - 1 - 1 < 4 by omega,
      show ¬ i - 1 - 1 - 1 - 1 - 4 < 4 by omega, show ¬ i - 1 - 1 - 1 - 1 - 4 - 4 < 4 by omega,
      show ¬ i - 1 - 1 - 1 - 1 - 4 - 4 - 4 < 2 by omega, show ¬ i - 1 - 1 - 1 - 1 - 4 - 4 - 4 - 2 < 2 by omega,
      show ¬ i - 1 - 1 - 1 - 1 - 4 - 4 - 4 - 2 - 2 < 1 by omega, if_false]

/-- The bits of the CTRL word (10_state.md R33). -/
theorem State.ctrlWord_getLsbD (s : State) (i : Nat) : s.ctrlWord.getLsbD i = (decide (i = 0) && s.irqEn) := by
  change BitVec.getLsbD (w := 31 + 1) _ i = _
  unfold State.ctrlWord
  simp only [BitVec.getLsbD_append, BitVec.getLsbD_zero, BitVec.getLsbD_ofBool]
  by_cases h : i = 0 <;> simp [h]

end Machine

end Sys2Proof
end

