-- ==== Sys2Proof/Laws/Memory.lean ====
section
/-! SUPPORT. Host memory: a byte read after a byte write, and that every memory operation keeps the canonical form. -/

namespace Sys2Proof.Machine

@[simp] theorem Memory.read_nil (a : Nat) : Memory.read [] a = unlistedByte := rfl

theorem Memory.wfFrom_cons {lo k : Nat} {b : Byte} {m : Memory} :
    Memory.wfFrom lo ((k, b) :: m) = true ↔
      lo ≤ k ∧ k < addrSpace ∧ b ≠ unlistedByte ∧ Memory.wfFrom (k + 1) m = true := by
  simp [Memory.wfFrom, and_assoc]

/-- The canonical form from an address up holds from every lower address up. -/
theorem Memory.wfFrom_mono {lo lo' : Nat} {m : Memory} (h : lo' ≤ lo) (hm : Memory.wfFrom lo m = true) :
    Memory.wfFrom lo' m = true := by
  cases m with
  | nil => rfl
  | cons c m =>
    obtain ⟨k, b⟩ := c
    rw [Memory.wfFrom_cons] at hm ⊢
    exact ⟨by omega, hm.2⟩

/-- Below the addresses a canonical memory lists, it reads as unlisted. -/
theorem Memory.read_below {lo a : Nat} {m : Memory} (hm : Memory.wfFrom lo m = true) (ha : a < lo) :
    m.read a = unlistedByte := by
  induction m generalizing lo with
  | nil => rfl
  | cons c m ih =>
    obtain ⟨k, b⟩ := c
    rw [Memory.wfFrom_cons] at hm
    have hk : k ≠ a := by omega
    simp [Memory.read, hk, ih hm.2.2.2 (by omega)]

/-- A write leaves every other address alone, whatever form the memory has. -/
theorem Memory.read_write_other {m : Memory} {a x : Nat} {v : Byte} (h : x ≠ a) :
    (m.write a v).read x = m.read x := by
  have h' : a ≠ x := fun e => h e.symm
  induction m with
  | nil => by_cases hv : v = unlistedByte <;> simp [Memory.write, Memory.read, hv, h']
  | cons c m ih =>
    obtain ⟨k, b⟩ := c
    unfold Memory.write
    split
    · split <;> simp [Memory.read, h']
    · split
      · rename_i hk
        subst hk
        split <;> simp [Memory.read, h']
      · simp [Memory.read, ih]

/-- A canonical memory reads back the byte just written. -/
theorem Memory.read_write_self {m : Memory} {a : Nat} {v : Byte} (hm : m.wf = true) : (m.write a v).read a = v := by
  unfold Memory.wf at hm
  generalize 0 = lo at hm
  induction m generalizing lo with
  | nil => by_cases hv : v = unlistedByte <;> simp [Memory.write, Memory.read, hv]
  | cons c m ih =>
    obtain ⟨k, b⟩ := c
    have hc := hm
    rw [Memory.wfFrom_cons] at hc
    unfold Memory.write
    split
    · rename_i hak
      split
      · rename_i hv
        rw [hv]
        exact Memory.read_below (lo := k) (Memory.wfFrom_cons.mpr ⟨le_refl k, hc.2⟩) hak
      · simp [Memory.read]
    · split
      · rename_i hk
        subst hk
        split
        · rename_i hv
          rw [hv]
          exact Memory.read_below hc.2.2.2 (by omega)
        · simp [Memory.read]
      · rename_i hk
        have hka : k ≠ a := fun e => hk e.symm
        simp [Memory.read, hka, ih (k + 1) hc.2.2.2]

/-- A write inside the address space keeps the canonical form, from any address at or below it. -/
theorem Memory.wfFrom_write {lo a : Nat} {m : Memory} {v : Byte} (hm : Memory.wfFrom lo m = true) (hlo : lo ≤ a)
    (ha : a < addrSpace) : Memory.wfFrom lo (m.write a v) = true := by
  induction m generalizing lo with
  | nil =>
    by_cases hv : v = unlistedByte
    · simp [Memory.write, hv, Memory.wfFrom]
    · simp [Memory.write, hv, Memory.wfFrom, hlo, ha]
  | cons c m ih =>
    obtain ⟨k, b⟩ := c
    have hc := Memory.wfFrom_cons.mp hm
    unfold Memory.write
    split
    · split
      · exact hm
      · rename_i hak hv
        rw [Memory.wfFrom_cons, Memory.wfFrom_cons]
        exact ⟨hlo, ha, hv, by omega, hc.2⟩
    · split
      · rename_i hk
        subst hk
        split
        · exact Memory.wfFrom_mono (by omega) hc.2.2.2
        · rename_i hv
          rw [Memory.wfFrom_cons]
          exact ⟨hlo, ha, hv, hc.2.2.2⟩
      · rw [Memory.wfFrom_cons]
        exact ⟨hc.1, hc.2.1, hc.2.2.1, ih hc.2.2.2 (by omega)⟩

/-- Every byte write inside the address space keeps the canonical form. -/
theorem Memory.wf_write {m : Memory} {a : Nat} {v : Byte} (hm : m.wf = true) (ha : a < addrSpace) :
    (m.write a v).wf = true :=
  Memory.wfFrom_write hm (Nat.zero_le a) ha

@[simp] theorem Memory.writeAll_nil (m : Memory) : m.writeAll [] = m := rfl

@[simp] theorem Memory.writeAll_cons (m : Memory) (c : Host.Cell) (cs : List Host.Cell) :
    m.writeAll (c :: cs) = (m.write c.1 c.2).writeAll cs := rfl

/-- A list of writes inside the address space keeps the canonical form. -/
theorem Memory.wf_writeAll {m : Memory} {cs : List Host.Cell} (hm : m.wf = true) (ha : ∀ c ∈ cs, c.1 < addrSpace) :
    (m.writeAll cs).wf = true := by
  induction cs generalizing m with
  | nil => exact hm
  | cons c cs ih =>
    rw [Memory.writeAll_cons]
    exact ih (Memory.wf_write hm (ha c List.mem_cons_self)) fun x hx => ha x (List.mem_cons_of_mem c hx)

/-- A list of writes leaves alone every address it does not name. -/
theorem Memory.read_writeAll_other {m : Memory} {cs : List Host.Cell} {x : Nat} (h : ∀ c ∈ cs, c.1 ≠ x) :
    (m.writeAll cs).read x = m.read x := by
  induction cs generalizing m with
  | nil => rfl
  | cons c cs ih =>
    rw [Memory.writeAll_cons, ih fun y hy => h y (List.mem_cons_of_mem c hy)]
    exact Memory.read_write_other (h c List.mem_cons_self).symm

/-- When the addresses of a list of writes differ, each address reads the byte written to it. -/
theorem Memory.read_writeAll_mem {m : Memory} {cs : List Host.Cell} {a : Nat} {v : Byte} (hm : m.wf = true)
    (hs : ∀ c ∈ cs, c.1 < addrSpace) (hd : (cs.map Prod.fst).Nodup) (hc : (a, v) ∈ cs) :
    (m.writeAll cs).read a = v := by
  induction cs generalizing m with
  | nil => cases hc
  | cons c cs ih =>
    rw [List.map_cons, List.nodup_cons] at hd
    rw [Memory.writeAll_cons]
    rcases List.mem_cons.mp hc with rfl | hc
    · rw [Memory.read_writeAll_other, Memory.read_write_self hm]
      intro y hy e
      exact hd.1 (List.mem_map.mpr ⟨y, hy, e⟩)
    · exact ih (Memory.wf_write hm (hs c List.mem_cons_self)) (fun y hy => hs y (List.mem_cons_of_mem c hy)) hd.2 hc

/-- When every write of a list to an address writes the same byte, and there is one, the address reads that byte. -/
theorem Memory.read_writeAll_of_all {m : Memory} {cs : List Host.Cell} {a : Nat} {v : Byte} (hm : m.wf = true)
    (hs : ∀ c ∈ cs, c.1 < addrSpace) (hv : ∀ c ∈ cs, c.1 = a → c.2 = v) (hc : ∃ c ∈ cs, c.1 = a) :
    (m.writeAll cs).read a = v := by
  induction cs generalizing m with
  | nil => simp at hc
  | cons c cs ih =>
    rw [Memory.writeAll_cons]
    by_cases hr : ∃ y ∈ cs, y.1 = a
    · exact ih (Memory.wf_write hm (hs c List.mem_cons_self)) (fun y hy => hs y (List.mem_cons_of_mem c hy))
        (fun y hy => hv y (List.mem_cons_of_mem c hy)) hr
    · obtain ⟨y, hy, rfl⟩ := hc
      rcases List.mem_cons.mp hy with rfl | hy
      · rw [Memory.read_writeAll_other fun z hz e => hr ⟨z, hz, e⟩, Memory.read_write_self hm]
        exact hv y List.mem_cons_self rfl
      · exact absurd ⟨y, hy, rfl⟩ hr

/-- An address that a list of writes names reads as one of the bytes written to it. -/
theorem Memory.read_writeAll_some {m : Memory} {cs : List Host.Cell} {a : Nat} (hm : m.wf = true)
    (hs : ∀ c ∈ cs, c.1 < addrSpace) (hc : ∃ c ∈ cs, c.1 = a) : ∃ c ∈ cs, c.1 = a ∧ (m.writeAll cs).read a = c.2 := by
  induction cs generalizing m with
  | nil => simp at hc
  | cons c cs ih =>
    rw [Memory.writeAll_cons]
    by_cases hr : ∃ y ∈ cs, y.1 = a
    · obtain ⟨y, hy, h1, h2⟩ := ih (Memory.wf_write hm (hs c List.mem_cons_self))
        (fun y hy => hs y (List.mem_cons_of_mem c hy)) hr
      exact ⟨y, List.mem_cons_of_mem c hy, h1, h2⟩
    · obtain ⟨y, hy, rfl⟩ := hc
      rcases List.mem_cons.mp hy with rfl | hy
      · exact ⟨y, List.mem_cons_self, rfl, by
          rw [Memory.read_writeAll_other fun z hz e => hr ⟨z, hz, e⟩, Memory.read_write_self hm]⟩
      · exact absurd ⟨y, hy, rfl⟩ hr

/-- An address that a list of writes names reads alike whatever memory held before. -/
theorem Memory.read_writeAll_congr {m m' : Memory} {cs : List Host.Cell} {a : Nat} (hm : m.wf = true)
    (hm' : m'.wf = true) (hs : ∀ c ∈ cs, c.1 < addrSpace) (hc : ∃ c ∈ cs, c.1 = a) :
    (m'.writeAll cs).read a = (m.writeAll cs).read a := by
  induction cs generalizing m m' with
  | nil => simp at hc
  | cons c cs ih =>
    rw [Memory.writeAll_cons, Memory.writeAll_cons]
    have hc0 := hs c List.mem_cons_self
    by_cases hr : ∃ y ∈ cs, y.1 = a
    · exact ih (Memory.wf_write hm hc0) (Memory.wf_write hm' hc0) (fun y hy => hs y (List.mem_cons_of_mem c hy)) hr
    · obtain ⟨y, hy, rfl⟩ := hc
      rcases List.mem_cons.mp hy with rfl | hy
      · rw [Memory.read_writeAll_other fun z hz e => hr ⟨z, hz, e⟩,
          Memory.read_writeAll_other fun z hz e => hr ⟨z, hz, e⟩, Memory.read_write_self hm, Memory.read_write_self hm']
      · exact absurd ⟨y, hy, rfl⟩ hr

end Sys2Proof.Machine
end

