-- ==== Sys2Proof/Laws/Packer.lean ====
section
/-! SUPPORT. The pixel format converter: the bytes of a pixel, and the cells that a region writes. -/

namespace Sys2Proof.Machine

@[simp] theorem memoryOrder_length (d : Descriptor) (smp : List Nat) : (memoryOrder d smp).length = smp.length := by
  unfold memoryOrder
  split
  · simp only [List.length_append, List.length_reverse, List.length_take, List.length_drop]
    omega
  · rfl

@[simp] theorem pixelSamples_length (d : Descriptor) (img : Image) (i j : Nat) :
    (pixelSamples d img i j).length = d.channels.toNat := by simp [pixelSamples]

theorem flatMap_leBytes_length (n : Nat) (l : List Nat) : (l.flatMap (leBytes n)).length = l.length * n := by
  induction l with
  | nil => simp
  | cons v l ih =>
    rw [List.flatMap_cons, List.length_append, ih, leBytes_length, List.length_cons]
    ring

/-- The samples of a byte-aligned format fit its pixel (42_pixel_format_registry.md R206). -/
theorem aligned_fits {d : Descriptor} {n : Nat} (hd : descriptorOk d = true) (hk : sampleKind d.depth = .aligned n) :
    d.channels.toNat * n ≤ bytesPerPixel d := by
  unfold descriptorOk at hd
  simp only [Bool.and_eq_true] at hd
  have hl := hd.2
  unfold depthLaw at hl
  unfold bytesPerPixel
  cases hdep : d.depth <;> rw [hdep] at hk hl <;> simp [sampleKind] at hk <;> subst hk <;>
    simp [sampleBits] at hl <;> omega

/-- A format of whole bytes per pixel is not a 1-bit one (46_pixel_format_converter.md R295). -/
theorem sampleKind_of_whole {d : Descriptor} (hd : descriptorOk d = true) (hw : d.bpp.toNat % 8 = 0) :
    sampleKind d.depth ≠ .bit := by
  unfold descriptorOk at hd
  simp only [Bool.and_eq_true] at hd
  have hl := hd.2
  unfold depthLaw at hl
  intro hk
  cases hdep : d.depth <;> rw [hdep] at hk hl <;> simp [sampleKind] at hk <;>
    (simp at hl; rw [hl.2] at hw; simp at hw)

/-- A pixel takes exactly `Bpp` bytes (46_pixel_format_converter.md R300). -/
theorem packPixel_length {d : Descriptor} {smp : List Nat} (hd : descriptorOk d = true)
    (hk : sampleKind d.depth ≠ .bit) (hs : smp.length = d.channels.toNat) :
    (packPixel d smp).length = bytesPerPixel d := by
  unfold packPixel
  cases hkind : sampleKind d.depth with
  | bit => exact absurd hkind hk
  | packed => simp
  | aligned n =>
    have := aligned_fits hd hkind
    simp only [List.length_append, flatMap_leBytes_length, memoryOrder_length, List.length_replicate, hs]
    omega

/-- The cells of a region: byte `k` of pixel `(i, r)` at its address (46_pixel_format_converter.md R291, R301). -/
theorem mem_regionCells {d : Descriptor} {pix : Image} {w h base stride : Nat} {x : Host.Cell} :
    x ∈ regionCells d pix w h base stride ↔ ∃ r i k, r < h ∧ i < w ∧
      (packPixel d (pixelSamples d pix i r))[k]? = some x.2 ∧ x.1 = base + r * stride + i * bytesPerPixel d + k := by
  obtain ⟨a, v⟩ := x
  simp only [regionCells, List.mem_flatMap, List.mem_range, List.mem_map, List.mem_zipIdx_iff_getElem?, Prod.exists,
    Prod.mk.injEq]
  constructor
  · rintro ⟨r, hr, i, hi, b, k, hk, rfl, rfl⟩
    exact ⟨r, i, k, hr, hi, hk, rfl⟩
  · rintro ⟨r, i, k, hr, hi, hk, rfl⟩
    exact ⟨r, hr, i, hi, v, k, hk, rfl, rfl⟩

/-- Which addresses take a draw (47_session_commands.md R334). -/
theorem mem_anyCells {c : Config} {n : Nat} {l : List Nat} {x : Host.Cell} (h : x ∈ anyCells c n l) : x.1 ∈ l := by
  simp only [anyCells, List.mem_map, Prod.exists] at h
  obtain ⟨a, k, hk, rfl⟩ := h
  exact List.mem_of_getElem? (List.mem_zipIdx_iff_getElem?.mp hk)

/-- Every address asked for takes one. -/
theorem anyCells_covers {c : Config} {n : Nat} {l : List Nat} {a : Nat} (h : a ∈ l) : ∃ x ∈ anyCells c n l, x.1 = a := by
  obtain ⟨k, hk, rfl⟩ := List.getElem_of_mem h
  exact ⟨(l[k], c.anyByte (n + k)), List.mem_map.mpr ⟨(l[k], k), List.mem_zipIdx_iff_getElem?.mpr
    (List.getElem?_eq_getElem hk), rfl⟩, rfl⟩

theorem mem_spanAddrs {sp : RowSpans} {a : Nat} : a ∈ spanAddrs sp ↔ inRowSpan sp a := by
  simp only [spanAddrs, List.mem_flatMap, List.mem_range, List.mem_map, inRowSpan]
  constructor
  · rintro ⟨r, hr, k, hk, rfl⟩
    exact ⟨r, k, hr, hk, rfl⟩
  · rintro ⟨r, k, hr, hk, rfl⟩
    exact ⟨r, hr, k, hk, rfl⟩

/-- `i` pixels in and `k` bytes further are inside a row span (46_pixel_format_converter.md R291). -/
theorem pixel_in_row {i w n k : Nat} (hi : i < w) (hk : k < n) : i * n + k < w * n := by
  have h1 : i * n + n ≤ w * n := by
    rw [← Nat.succ_mul]
    exact Nat.mul_le_mul_right n hi
  omega

/-- A byte of a row span is one pixel's and one byte of it (46_pixel_format_converter.md R291). -/
theorem pixel_unique {n i j k l : Nat} (hk : k < n) (hl : l < n) (h : i * n + k = j * n + l) : i = j ∧ k = l := by
  have hn : 0 < n := by omega
  have h1 : (i * n + k) / n = i := by
    rw [Nat.mul_comm, Nat.mul_add_div hn, Nat.div_eq_of_lt hk, Nat.add_zero]
  have h2 : (j * n + l) / n = j := by
    rw [Nat.mul_comm, Nat.mul_add_div hn, Nat.div_eq_of_lt hl, Nat.add_zero]
  have h3 : i = j := by rw [← h1, ← h2, h]
  subst h3
  exact ⟨rfl, by omega⟩

/-- A row span lies inside the output range (46_pixel_format_converter.md R291, 20_memory.md R82). -/
theorem row_in_range {r rows stride rowBytes k : Nat} (hr : r < rows) (hk : k < rowBytes) (hs : rowBytes ≤ stride) :
    r * stride + k < stride * rows := by
  rw [Nat.mul_comm stride rows]
  have := pixel_in_row hr (show k < stride by omega)
  exact this

/-- When the checks pass, every row-span byte is an address of host memory (47_session_commands.md R329). -/
theorem copySpan_lt {h : Header} {s : State} (hr : CopyReaches h s) {a : Nat} (ha : CopySpan h s a) : a < addrSpace := by
  obtain ⟨r, k, h1, h2, rfl⟩ := ha
  obtain ⟨_, _, _, h3, h4, h5, _⟩ := hr
  have := row_in_range h1 h2 h3
  omega

/-- The spans COPY_REGION uses are those of its operands (46_pixel_format_converter.md R291). -/
theorem inRowSpan_spansOperand {h : Header} {s : State} {a : Nat} :
    inRowSpan (s.spansOperand h.fmt) a ↔ CopySpan h s a := Iff.rfl

end Sys2Proof.Machine
end

