-- ==== Sys2Proof/Laws/Reader.lean ====
section
/-! SUPPORT. The reader's primitives: what `peek` holds, where the reads leave the cursor, and how bounded reads fail. -/

namespace Sys2Proof.Machine

/-- `peek(p, k)` is a value of `k` bits (40_bitstream_reader.md R141). -/
theorem peek_lt (src : Nat → Byte) (p k : Nat) : peek src p k < 2 ^ k := by
  induction k with
  | zero => simp [peek]
  | succ k ih =>
    have hb : (streamBit src (p + k)).toNat ≤ 1 := Bool.toNat_le _
    simp only [peek, Nat.pow_succ]
    omega

/-- Two reads in a row are one read of both lengths (40_bitstream_reader.md R140). -/
theorem peek_add (src : Nat → Byte) (p m n : Nat) :
    peek src p (m + n) = 2 ^ n * peek src p m + peek src (p + m) n := by
  induction n with
  | zero => simp [peek]
  | succ n ih =>
    rw [← Nat.add_assoc, peek, ih, peek, Nat.pow_succ, Nat.add_assoc p m n]
    ring

/-- The first bit read is the most significant (40_bitstream_reader.md R140). -/
theorem peek_testBit (src : Nat → Byte) (p : Nat) {n j : Nat} (h : j < n) :
    (peek src p n).testBit (n - 1 - j) = streamBit src (p + j) := by
  induction n with
  | zero => omega
  | succ n ih =>
    by_cases hj : j = n
    · subst hj
      have hb : (streamBit src (p + j)).toNat ≤ 1 := Bool.toNat_le _
      rw [show j + 1 - 1 - j = 0 by omega, Nat.testBit_zero, peek]
      cases streamBit src (p + j) <;> simp
    · rw [show n + 1 - 1 - j = (n - 1 - j) + 1 by omega, Nat.testBit_succ, peek]
      have hb : (streamBit src (p + n)).toNat ≤ 1 := Bool.toNat_le _
      rw [show (2 * peek src p n + (streamBit src (p + n)).toNat) / 2 = peek src p n by omega]
      exact ih (by omega)

/-- Sources that agree on every byte give the same bits. -/
theorem peek_congr {src src' : Nat → Byte} {p n : Nat} (h : ∀ i, p / 8 ≤ i → 8 * i < p + n → src i = src' i) :
    peek src p n = peek src' p n := by
  induction n with
  | zero => rfl
  | succ n ih =>
    have e : streamBit src (p + n) = streamBit src' (p + n) := by
      unfold streamBit
      rw [h ((p + n) / 8) (Nat.div_le_div_right (by omega)) (by omega)]
    rw [peek, peek, e, ih fun i h1 h2 => h i h1 (by omega)]

theorem codeValue_nil : codeValue [] = 0 := rfl

/-- A codeword's value bit by bit, its last bit the least significant (40_bitstream_reader.md R145). -/
theorem codeValue_append_one (c : List Bool) (b : Bool) : codeValue (c ++ [b]) = 2 * codeValue c + b.toNat := by
  simp [codeValue]

/-- The stream holds a codeword at a position exactly when the bits agree (40_bitstream_reader.md R145). -/
theorem peek_eq_codeValue (src : Nat → Byte) (pos : Nat) (w : List Bool) :
    peek src pos w.length = codeValue w ↔ ∀ j, j < w.length → w[j]? = some (streamBit src (pos + j)) := by
  induction w using List.reverseRecOn with
  | nil => simp [peek, codeValue_nil]
  | append_singleton w b ih =>
    rw [codeValue_append_one, List.length_append, List.length_singleton, peek]
    constructor
    · intro h j hj
      have hb : (streamBit src (pos + w.length)).toNat ≤ 1 := Bool.toNat_le _
      have hb' : b.toNat ≤ 1 := Bool.toNat_le _
      have h1 : peek src pos w.length = codeValue w := by omega
      have h2 : (streamBit src (pos + w.length)).toNat = b.toNat := by omega
      by_cases hl : j < w.length
      · rw [List.getElem?_append_left hl]
        exact ih.mp h1 j hl
      · have hj' : j = w.length := by omega
        subst hj'
        have h3 : b = streamBit src (pos + w.length) := by
          cases b <;> cases h4 : streamBit src (pos + w.length) <;> simp [h4] at h2 ⊢
        simpa using h3
    · intro h
      have h1 : peek src pos w.length = codeValue w := by
        refine ih.mpr fun j hj => ?_
        have := h j (by omega)
        rwa [List.getElem?_append_left hj] at this
      have h2 := h w.length (by omega)
      simp only [List.getElem?_concat_length, Option.some.injEq] at h2
      rw [h1, h2]

/-- The first bits of a codeword's value are the value of its first bits (40_bitstream_reader.md R145). -/
theorem codeValue_take (c : List Bool) {r : Nat} (h : r ≤ c.length) :
    codeValue c / 2 ^ (c.length - r) = codeValue (c.take r) := by
  induction c using List.reverseRecOn with
  | nil => simp [codeValue_nil]
  | append_singleton c b ih =>
    rw [List.length_append, List.length_singleton] at h ⊢
    by_cases hr : r = c.length + 1
    · subst hr
      rw [List.take_of_length_le (by simp)]
      simp
    · have hr' : r ≤ c.length := by omega
      have hb : b.toNat ≤ 1 := Bool.toNat_le _
      rw [List.take_append_of_le_length hr', ← ih hr', codeValue_append_one,
        show c.length + 1 - r = (c.length - r) + 1 by omega, Nat.pow_succ', ← Nat.div_div_eq_div_mul]
      congr 1
      omega

/-- A bounded `ReadBits` that succeeds stays within the limit (40_bitstream_reader.md R146). -/
theorem boundedReadBits_ok {src : Nat → Byte} {e : Extent} {len pos n v pos' : Nat}
    (h : boundedReadBits src e len pos n = .ok (v, pos')) :
    v = peek src pos n ∧ pos' = pos + n ∧ pos + n ≤ readLimit e len := by
  unfold boundedReadBits at h
  split at h
  · cases h
  · rename_i hl
    cases h
    exact ⟨rfl, rfl, Nat.le_of_not_lt hl⟩

/-- How `ReadVLC` ends: at a codeword inside the limit, or with one of two errors (40_bitstream_reader.md R145). -/
theorem readVLC_cases (src : Nat → Byte) (code : VlcCode) (limit : Nat) (endErr : DecodeError) (pos : Nat) :
    (∃ e ∈ code.val, e.1.length ≤ limit - pos ∧ peek src pos e.1.length = codeValue e.1 ∧
      readVLC src code limit endErr pos = .ok (e.2, pos + e.1.length)) ∨
    ((∀ e ∈ code.val, codewordMatches src pos (limit - pos) e.1 = false) ∧
      (∃ e ∈ code.val, codewordCutOff src pos (limit - pos) e.1 = true) ∧
      readVLC src code limit endErr pos = .error endErr) ∨
    ((∀ e ∈ code.val, codewordMatches src pos (limit - pos) e.1 = false) ∧
      (∀ e ∈ code.val, codewordCutOff src pos (limit - pos) e.1 = false) ∧
      readVLC src code limit endErr pos = .error .corruptStream) := by
  unfold readVLC
  cases hf : code.val.find? fun e => codewordMatches src pos (limit - pos) e.1 with
  | some e =>
    have hm := List.find?_some hf
    simp only [codewordMatches, Bool.and_eq_true, decide_eq_true_eq, beq_iff_eq] at hm
    exact .inl ⟨e, List.mem_of_find?_eq_some hf, hm.1, hm.2, by simp only [hf]⟩
  | none =>
    have hn : ∀ e ∈ code.val, codewordMatches src pos (limit - pos) e.1 = false := by
      intro e he
      simpa using List.find?_eq_none.mp hf e he
    cases ha : code.val.any fun e => codewordCutOff src pos (limit - pos) e.1 with
    | true => exact .inr (.inl ⟨hn, List.any_eq_true.mp ha, by simp [hf, ha]⟩)
    | false => exact .inr (.inr ⟨hn, fun e he => by simpa using List.any_eq_false.mp ha e he, by simp [hf, ha]⟩)

/-- While the extent lies inside the source, no decode of a macroblock reports UnexpectedEnd
(40_bitstream_reader.md R146, 43_entropy_decoder.md R223). -/
theorem runDecode_error {src : Nat → Byte} {e : Extent} {len : Nat} (he : Extent.endBit e ≤ 8 * len)
    {p : DecodeProg} {pos : Nat} {x : DecodeError} (h : runDecode src e len p pos = .error x) :
    x ≠ .unexpectedEnd := by
  have hend : readEndError e len = .corruptStream := by simp [readEndError, he]
  induction p generalizing pos with
  | done coeffs ctx => simp [runDecode] at h
  | ruledOut r =>
    simp only [runDecode, Except.error.injEq] at h
    subst h
    cases r <;> simp [ruledOutError]
  | readBits n k ih =>
    unfold runDecode at h
    split at h
    · rename_i y hy
      cases h
      unfold boundedReadBits at hy
      split at hy
      · cases hy
        simp [hend]
      · cases hy
    · exact ih _ h
  | readVLC code k ih =>
    unfold runDecode at h
    split at h
    · rename_i y hy
      cases h
      unfold boundedReadVLC at hy
      rcases readVLC_cases src code (readLimit e len) (readEndError e len) pos with
        ⟨_, _, _, _, hr⟩ | ⟨_, _, hr⟩ | ⟨_, _, hr⟩
      · rw [hr] at hy
        cases hy
      · rw [hr] at hy
        cases hy
        simp [hend]
      · rw [hr] at hy
        cases hy
        simp
    · exact ih _ h

/-- A macroblock's decode moves the position forward and never past the limit (43_entropy_decoder.md R220). -/
theorem runDecode_ok {src : Nat → Byte} {e : Extent} {len : Nat} {p : DecodeProg} {pos pos' : Nat}
    {coeffs : List (List Int)} {ctx : List Int} (h : runDecode src e len p pos = .ok (coeffs, ctx, pos')) :
    pos ≤ pos' ∧ (pos ≤ readLimit e len → pos' ≤ readLimit e len) := by
  induction p generalizing pos with
  | done cs cx =>
    simp only [runDecode, Except.ok.injEq, Prod.mk.injEq] at h
    omega
  | ruledOut r => simp [runDecode] at h
  | readBits n k ih =>
    unfold runDecode at h
    split at h
    · cases h
    · rename_i v p1 hv
      obtain ⟨_, rfl, hl⟩ := boundedReadBits_ok hv
      have := ih v h
      omega
  | readVLC code k ih =>
    unfold runDecode at h
    split at h
    · cases h
    · rename_i v p1 hv
      unfold boundedReadVLC at hv
      rcases readVLC_cases src code (readLimit e len) (readEndError e len) pos with
        ⟨y, _, hy, _, hr⟩ | ⟨_, _, hr⟩ | ⟨_, _, hr⟩
      · rw [hr] at hv
        cases hv
        have := ih _ h
        omega
      · rw [hr] at hv
        cases hv
      · rw [hr] at hv
        cases hv

end Sys2Proof.Machine
end

