-- ==== Sys2Proof/Laws/Pipeline.lean ====
section
/-! SUPPORT. The decode pipeline, stage by stage: blocks keep their plane's shape, so no stage faults, and where the
failure of a run of macroblocks comes from. -/

namespace Sys2Proof.Machine

@[simp] theorem fitBlock_length (n : Nat) (l : List Int) : (fitBlock n l).length = n := by simp [fitBlock]

/-- A block that has its shape already is left as it is. -/
theorem fitBlock_of_length {n : Nat} {l : List Int} (h : l.length = n) : fitBlock n l = l := by
  subst h
  apply List.ext_getElem
  · simp
  · intro i h1 h2
    simp [fitBlock, List.getD_eq_getElem?_getD, h2]

theorem shapeCoeffs_length (c : Config) (h : Header) (l : List (List Int)) :
    (shapeCoeffs c h l).length = c.numPlanes h := by simp [shapeCoeffs]

/-- Every plane the entropy decoder hands on has its declared shape (43_entropy_decoder.md R220). -/
theorem shapeCoeffs_plane {c : Config} {h : Header} {l : List (List Int)} {p : Nat} (hp : p < c.numPlanes h) :
    ((shapeCoeffs c h l).getD p []).length = c.planeShape h p := by
  simp [shapeCoeffs, List.getD_eq_getElem?_getD, hp]

/-- Dequantisation keeps the shape (44_inverse_transform.md R250). -/
theorem dequantise_length (c : Config) (b : List Byte) (h : Header) (code : MBCode) (p : Nat) :
    (dequantise c b h code p).length = (code.coeffs.getD p []).length := by simp [dequantise]

/-- A macroblock's code whose planes have their shapes. -/
def ShapedCode (c : Config) (h : Header) (code : MBCode) : Prop :=
  ∀ p, p < c.numPlanes h → (code.coeffs.getD p []).length = c.planeShape h p

theorem reconPlane_ok {c : Config} {h : Header} {code : MBCode} (hs : ShapedCode c h code) {p : Nat}
    (hp : p < c.numPlanes h) (b : List Byte) (t : Tile) (done : List Recon) :
    ∃ r, reconPlane c b h t done code p = .ok r := by
  have hl : (dequantise c b h code p).length = c.planeShape h p := by rw [dequantise_length, hs p hp]
  exact ⟨_, by simp only [reconPlane, inverseLBT, hl, if_true]; rfl⟩

theorem reconPlanes_ok {c : Config} {h : Header} {code : MBCode} (hs : ShapedCode c h code) (b : List Byte) (t : Tile)
    (done : List Recon) {ps : List Nat} (hp : ∀ p ∈ ps, p < c.numPlanes h) :
    ∃ rs, reconPlanes c b h t done code ps = .ok rs := by
  induction ps with
  | nil => exact ⟨[], rfl⟩
  | cons p ps ih =>
    obtain ⟨r, hr⟩ := reconPlane_ok hs (hp p List.mem_cons_self) b t done
    obtain ⟨rs, hrs⟩ := ih fun q hq => hp q (List.mem_cons_of_mem p hq)
    exact ⟨r :: rs, by simp [reconPlanes, hr, hrs]⟩

/-- Reconstructing a macroblock whose planes have their shapes never faults (44_inverse_transform.md R253). -/
theorem reconMB_ok {c : Config} {h : Header} {code : MBCode} (hs : ShapedCode c h code) (b : List Byte) (t : Tile)
    (done : List Recon) : ∃ r, reconMB c b h t done code = .ok r ∧ r.mb = code.mb := by
  obtain ⟨rs, hrs⟩ := reconPlanes_ok hs b t done (ps := List.range (c.numPlanes h)) fun p hp => List.mem_range.mp hp
  exact ⟨_, by simp only [reconMB, hrs]; rfl, rfl⟩

/-- How the decode of one macroblock ends (43_entropy_decoder.md R220, R223). -/
theorem decodeMB_cases (c : Config) (b : List Byte) (h : Header) (e : Extent) (ctx : List Int) (pos : Nat) (m : MB) :
    (∃ x, runDecode (srcOf b) e b.length (c.decodeMB h ctx pos m) pos = .error x ∧
      decodeMB c b h e ctx pos m = .error x) ∨
    (∃ code pos', decodeMB c b h e ctx pos m = .ok (code, pos') ∧ code.mb = m ∧ ShapedCode c h code) := by
  unfold decodeMB
  cases runDecode (srcOf b) e b.length (c.decodeMB h ctx pos m) pos with
  | error x => exact .inl ⟨x, rfl, rfl⟩
  | ok r => exact .inr ⟨_, _, rfl, rfl, fun p hp => shapeCoeffs_plane hp⟩

/-- An error that a decode inside extent `e` of `len` bytes can end in. -/
def DecodeErrorOf (e : Extent) (len : Nat) (x : DecodeError) : Prop :=
  Extent.endBit e ≤ 8 * len → x ≠ .unexpectedEnd

/-- A tile entered through the index table starts at a byte offset inside the source and the first declared extent, or
nowhere (43_entropy_decoder.md R226, 40_bitstream_reader.md R143). -/
theorem tileStart_indexTable {c : Config} {b : List Byte} {h : Header} {t : Tile} {off : Nat}
    (ht : c.tileStart b h t = .indexTable off) (prev : Nat) :
    tileStart c b h t prev = if off ≤ b.length ∧ startInside (firstExtent h) (8 * off) = true then some (8 * off) else none := by
  by_cases ho : off ≤ b.length
  · simp [tileStart, ht, enterTile, seek, ho, Nat.not_lt.mpr ho, Option.filter]
  · simp [tileStart, ht, enterTile, seek, ho]

/-- A tile entered where the previous one ended starts there, when that is inside the first declared extent
(43_entropy_decoder.md R226). -/
theorem tileStart_previousEnd {c : Config} {b : List Byte} {h : Header} {t : Tile}
    (ht : c.tileStart b h t = .previousEnd) (prev : Nat) :
    tileStart c b h t prev = if startInside (firstExtent h) prev = true then some prev else none := by
  simp [tileStart, ht, enterTile, Option.filter]

/-- The macroblocks of a tile: all of them reconstructed, in order, or one of them fails; no fault. -/
theorem decodeTileMBs_cases (c : Config) (b : List Byte) (h : Header) (t : Tile) (ms : List MB) (ctx : List Int)
    (p : Progress) :
    (∃ p', decodeTileMBs c b h t ms ctx p = .ok p' ∧ p'.done.map Recon.mb = p.done.map Recon.mb ++ ms) ∨
    (∃ x m, decodeTileMBs c b h t ms ctx p = .fail x m ∧ m ∈ ms ∧ DecodeErrorOf (firstExtent h) b.length x) := by
  induction ms generalizing ctx p with
  | nil => exact .inl ⟨p, rfl, by simp⟩
  | cons m ms ih =>
    unfold decodeTileMBs
    rcases decodeMB_cases c b h (firstExtent h) ctx p.pos m with ⟨x, hx, hd⟩ | ⟨code, pos', hd, hm, hs⟩
    · exact .inr ⟨x, m, by simp only [hd], List.mem_cons_self, fun he => runDecode_error he hx⟩
    · obtain ⟨r, hr, hrm⟩ := reconMB_ok hs b t p.done
      simp only [hd, hr]
      rcases ih code.ctx ⟨p.done ++ [r], pos'⟩ with ⟨p', h1, h2⟩ | ⟨x, m', h1, h2, h3⟩
      · exact .inl ⟨p', h1, by simp [h2, hrm, hm]⟩
      · exact .inr ⟨x, m', h1, List.mem_cons_of_mem m h2, h3⟩

/-- One tile (43_entropy_decoder.md R221, R226). -/
theorem decodeTile_cases (c : Config) (b : List Byte) (h : Header) (t : Tile) (p : Progress) :
    (∃ p', decodeTile c b h t p = .ok p' ∧ p'.done.map Recon.mb = p.done.map Recon.mb ++ tileMBs t) ∨
    (∃ x m, decodeTile c b h t p = .fail x m ∧ m ∈ tileMBs t ∧ DecodeErrorOf (firstExtent h) b.length x) := by
  unfold decodeTile
  cases hm : tileMBs t with
  | nil => exact .inl ⟨p, rfl, by simp⟩
  | cons m ms =>
    dsimp only
    cases tileStart c b h t p.pos with
    | some pos => exact decodeTileMBs_cases c b h t (m :: ms) _ ⟨p.done, pos⟩
    | none => exact .inr ⟨_, m, rfl, List.mem_cons_self, fun _ => by simp⟩

/-- The tiles in order: every macroblock reconstructed once, in decode order, or one of them fails; no fault. -/
theorem decodeTiles_cases (c : Config) (b : List Byte) (h : Header) (ts : List Tile) (p : Progress) :
    (∃ p', decodeTiles c b h ts p = .ok p' ∧ p'.done.map Recon.mb = p.done.map Recon.mb ++ ts.flatMap tileMBs) ∨
    (∃ x m, decodeTiles c b h ts p = .fail x m ∧ m ∈ ts.flatMap tileMBs ∧
      DecodeErrorOf (firstExtent h) b.length x) := by
  induction ts generalizing p with
  | nil => exact .inl ⟨p, rfl, by simp⟩
  | cons t ts ih =>
    unfold decodeTiles
    rcases decodeTile_cases c b h t p with ⟨p', h1, h2⟩ | ⟨x, m, h1, h2, h3⟩
    · simp only [h1]
      rcases ih p' with ⟨p2, h4, h5⟩ | ⟨x, m, h4, h5, h6⟩
      · exact .inl ⟨p2, h4, by simp [h5, h2]⟩
      · exact .inr ⟨x, m, h4, by simp only [List.flatMap_cons, List.mem_append]; exact .inr h5, h6⟩
    · simp only [h1]
      exact .inr ⟨x, m, rfl, by simp only [List.flatMap_cons, List.mem_append]; exact .inl h2, h3⟩

/-- The reference decode gives an image or fails at a macroblock of the decode order; it never faults
(45_macroblock_predictor.md R276, R277). -/
theorem refDecode_cases (c : Config) (b : List Byte) (h : Header) :
    (∃ img, refDecode c b h = .ok img) ∨
    (∃ x m, refDecode c b h = .fail x m ∧ m ∈ decodeOrder h ∧ DecodeErrorOf (firstExtent h) b.length x) := by
  unfold refDecode
  rcases decodeTiles_cases c b h (tiles h) (startProgress c b h) with ⟨p, h1, _⟩ | ⟨x, m, h1, h2, h3⟩
  · exact .inl ⟨_, by simp only [h1]; rfl⟩
  · exact .inr ⟨x, m, by simp only [h1], h2, h3⟩

/-- The outcome of a rectangle: the decode's image cut to it, its failure, or a partial decode
(47_session_commands.md R333). -/
theorem regionOutcome_cases (c : Config) (b : List Byte) (h : Header) (r : Rect) :
    (∃ img, refDecode c b h = .ok img ∧
      regionOutcome c b h r = .ok fun i j k => img (r.x + i) (r.y + j) k) ∨
    (∃ x m, refDecode c b h = .fail x m ∧ regionOutcome c b h r = .fail x m) ∨
    (∃ x m pix, refDecode c b h = .fail x m ∧ needed h r m = false ∧ c.partialDecode b h r = some pix ∧
      regionOutcome c b h r = .ok pix) := by
  unfold regionOutcome
  rcases refDecode_cases c b h with ⟨img, h1⟩ | ⟨x, m, h1, _, _⟩
  · exact .inl ⟨img, h1, by simp only [h1]⟩
  · simp only [h1]
    cases hn : needed h r m with
    | true => exact .inr (.inl ⟨x, m, rfl, by simp⟩)
    | false =>
      cases hp : c.partialDecode b h r with
      | none => exact .inr (.inl ⟨x, m, rfl, by simp⟩)
      | some pix => exact .inr (.inr ⟨x, m, pix, rfl, hn, rfl, by simp⟩)

end Sys2Proof.Machine
end

