-- ==== Sys2Proof/Laws/Copy.lean ====
section
/-! SUPPORT. COPY_REGION: what it writes when its checks pass, and everything it can do. -/

namespace Sys2Proof.Machine

/-- The writes of a region are row-span bytes (46_pixel_format_converter.md R291, R298). -/
theorem regionCells_span {h : Header} {s : State} {pix : Image} (hd : descriptorOk h.fmt = true)
    (hr : CopyReaches h s) {x : Host.Cell}
    (hx : x ∈ regionCells h.fmt pix (s.sArg 2).toNat (s.sArg 3).toNat (s.u 4) (s.u 5)) : CopySpan h s x.1 := by
  obtain ⟨r, i, k, h1, h2, h3, h4⟩ := mem_regionCells.mp hx
  have hk : k < bytesPerPixel h.fmt := by
    have := (List.getElem?_eq_some_iff.mp h3).1
    rwa [packPixel_length hd (sampleKind_of_whole hd hr.2.2.1) (by simp)] at this
  exact ⟨r, i * bytesPerPixel h.fmt + k, h1, pixel_in_row h2 hk, by omega⟩

/-- The draws of a failed decode are for row-span bytes (47_session_commands.md R334). -/
theorem anyCells_span {c : Config} {h : Header} {s : State} {n : Nat} {x : Host.Cell}
    (hx : x ∈ anyCells c n (spanAddrs (s.spansOperand h.fmt))) : CopySpan h s x.1 :=
  mem_spanAddrs.mp (mem_anyCells hx)

theorem copyWrite_eq {s : State} {h : Header} (hs : s.session.header? = some h) (pix : Image) :
    copyWrite s ⟨h, copyRect s, s.spansOperand h.fmt⟩ pix = { s with
      mem := s.mem.writeAll (regionCells h.fmt pix (s.sArg 2).toNat (s.sArg 3).toNat (s.u 4) (s.u 5))
      session := .decoding h
      rdr := { s.rdr with bitpos := BitVec.ofNat 35 (8 * h.codedOffset.toNat) } } := by
  simp only [copyWrite, Session.afterCopy_of_open hs]
  rfl

theorem copyFail_eq (c : Config) (s : State) (h : Header) :
    copyFail c s ⟨h, copyRect s, s.spansOperand h.fmt⟩ = { s with
      mem := s.mem.writeAll (anyCells c s.draws (spanAddrs (s.spansOperand h.fmt)))
      draws := s.draws + (spanAddrs (s.spansOperand h.fmt)).length
      rdr := { s.rdr with bitpos := BitVec.ofNat 35 (8 * h.codedOffset.toNat) } } := rfl

/-- A region's pixel, read back byte by byte (46_pixel_format_converter.md R301). -/
theorem copyWrite_pixel {s : State} {h : Header} (hm : s.mem.wf = true) (hd : descriptorOk h.fmt = true)
    (hr : CopyReaches h s) (pix : Image) {i r k : Nat} (hi : i < (s.sArg 2).toNat) (hrow : r < (s.sArg 3).toNat)
    (hk : k < bytesPerPixel h.fmt) :
    (s.mem.writeAll (regionCells h.fmt pix (s.sArg 2).toNat (s.sArg 3).toNat (s.u 4) (s.u 5))).read
      (s.u 4 + r * s.u 5 + i * bytesPerPixel h.fmt + k) = (packPixel h.fmt (pixelSamples h.fmt pix i r)).getD k 0 := by
  have hlen : ∀ i r, (packPixel h.fmt (pixelSamples h.fmt pix i r)).length = bytesPerPixel h.fmt := fun i r =>
    packPixel_length hd (sampleKind_of_whole hd hr.2.2.1) (by simp)
  have hstride := hr.2.2.2.1
  apply Memory.read_writeAll_of_all hm
  · intro x hx
    exact copySpan_lt hr (regionCells_span hd hr hx)
  · rintro ⟨a, v⟩ hx ha
    obtain ⟨r', i', k', h1, h2, h3, h4⟩ := mem_regionCells.mp hx
    have hk' : k' < bytesPerPixel h.fmt := by
      have := (List.getElem?_eq_some_iff.mp h3).1
      rwa [hlen] at this
    have p1 := pixel_in_row hi hk
    have p2 := pixel_in_row h2 hk'
    dsimp only at ha h3 h4 ⊢
    obtain ⟨rfl, he⟩ := pixel_unique (n := s.u 5) (i := r) (j := r') (k := i * bytesPerPixel h.fmt + k)
      (l := i' * bytesPerPixel h.fmt + k') (by omega) (by omega) (by omega)
    obtain ⟨rfl, rfl⟩ := pixel_unique hk hk' he
    simp [List.getD_eq_getElem?_getD, h3]
  · refine ⟨(_, (packPixel h.fmt (pixelSamples h.fmt pix i r)).getD k 0), mem_regionCells.mpr
      ⟨r, i, k, hrow, hi, ?_, rfl⟩, rfl⟩
    rw [List.getD_eq_getElem?_getD, List.getElem?_eq_getElem (by rw [hlen]; exact hk)]
    rfl

/-- Everything COPY_REGION can do (47_session_commands.md R329): a check fails and nothing changes; the decode gives
pixels; or the decode fails. It never faults. -/
theorem performCopyRegion_all (c : Config) (s : State) :
    (∃ e, copyChecks s = .error e ∧ performCopyRegion c s = .ok (raise e s)) ∨
    (∃ h pix, CopyReaches h s ∧ regionOutcome c s.sourceBytes h (copyRect s) = .ok pix ∧
      performCopyRegion c s = .ok (complete { s with
        mem := s.mem.writeAll (regionCells h.fmt pix (s.sArg 2).toNat (s.sArg 3).toNat (s.u 4) (s.u 5))
        session := .decoding h
        rdr := { s.rdr with bitpos := BitVec.ofNat 35 (8 * h.codedOffset.toNat) } })) ∨
    (∃ h e m, CopyReaches h s ∧ regionOutcome c s.sourceBytes h (copyRect s) = .fail e m ∧
      performCopyRegion c s = .ok (raise (decodeErrorCode e) { s with
        mem := s.mem.writeAll (anyCells c s.draws (spanAddrs (s.spansOperand h.fmt)))
        draws := s.draws + (spanAddrs (s.spansOperand h.fmt)).length
        rdr := { s.rdr with bitpos := BitVec.ofNat 35 (8 * h.codedOffset.toNat) } })) := by
  rcases performCopyRegion_cases c s with h | ⟨h, hr, hp⟩
  · exact .inl h
  · right
    rcases regionOutcome_cases c s.sourceBytes h (copyRect s) with ⟨img, _, ho⟩ | ⟨e, m, _, ho⟩ | ⟨_, _, pix, _, _, _, ho⟩
    · exact .inl ⟨h, _, hr, ho, by rw [hp, ho]; dsimp only; rw [copyWrite_eq hr.1]⟩
    · exact .inr ⟨h, e, m, hr, ho, by rw [hp, ho]; rfl⟩
    · exact .inl ⟨h, _, hr, ho, by rw [hp, ho]; dsimp only; rw [copyWrite_eq hr.1]⟩

end Sys2Proof.Machine
end

