-- ==== Sys2Proof/Laws/Effects.lean ====
section
/-! SUPPORT. The one inversion lemma of the commands: everything the pseudocode of each can end in. Lemmas about all
commands cite it instead of unfolding them. -/

namespace Sys2Proof.Machine

/-- The bytes OPEN gives the parser (47_session_commands.md R326). -/
def operandBytes (s : State) : List Byte := (List.range (s.u 1)).map fun i => s.mem.read (s.u 0 + i)

/-- What a command's pseudocode can leave, command by command, over the chip's configuration. -/
def EffectOf (i : Instr) (s : State) (p : Perform) : Prop :=
  match i with
  | .nop => p = complete s
  | .openSession =>
    (addrSpace < s.u 0 + s.u 1 ∧ p = raise .badAddress s) ∨
    (s.u 0 + s.u 1 ≤ addrSpace ∧ ∃ e, e ≠ .badAddress ∧ p = raise e (closedState s)) ∨
    (s.u 0 + s.u 1 ≤ addrSpace ∧ ∃ q d, accept Config.chip (operandBytes s) = .ok q ∧
      registry Config.chip q.guid = some d ∧ p = complete { s with
        session := .opened { q with fmt := d }
        rdr := ⟨true, s.latch.args[0], s.latch.args[1], BitVec.ofNat 35 (8 * q.codedOffset.toNat)⟩ })
  | .getSize =>
    (s.session.header? = none ∧ p = raise .sessionClosed s) ∨
    (∃ h, s.session.header? = some h ∧ p = complete ((s.setRes 0 h.width).setRes 1 h.height))
  | .getPixelFormat =>
    (s.session.header? = none ∧ p = raise .sessionClosed s) ∨
    (∃ h, s.session.header? = some h ∧ p = complete { s with res := descriptorRes s.res h.fmt })
  | .copyRegion =>
    (∃ e, copyChecks s = .error e ∧ p = raise e s) ∨
    (∃ h pix, CopyReaches h s ∧ regionOutcome Config.chip s.sourceBytes h (copyRect s) = .ok pix ∧
      p = complete { s with
        mem := s.mem.writeAll (regionCells h.fmt pix (s.sArg 2).toNat (s.sArg 3).toNat (s.u 4) (s.u 5))
        session := .decoding h
        rdr := { s.rdr with bitpos := BitVec.ofNat 35 (8 * h.codedOffset.toNat) } }) ∨
    (∃ h e m, CopyReaches h s ∧ regionOutcome Config.chip s.sourceBytes h (copyRect s) = .fail e m ∧
      p = raise (decodeErrorCode e) { s with
        mem := s.mem.writeAll (anyCells Config.chip s.draws (spanAddrs (s.spansOperand h.fmt)))
        draws := s.draws + (spanAddrs (s.spansOperand h.fmt)).length
        rdr := { s.rdr with bitpos := BitVec.ofNat 35 (8 * h.codedOffset.toNat) } })
  | .close => p = complete (closedState s)
  | .lookupPixelFormat =>
    p = raise .unknownPixelFormat s ∨ (∃ d, p = complete { s with res := descriptorRes s.res d })
  | .brBind =>
    (addrSpace < s.u 0 + s.u 1 ∧ p = raise .badAddress s) ∨
    (s.u 0 + s.u 1 ≤ addrSpace ∧
      p = complete { s with session := .closed, rdr := ⟨true, s.latch.args[0], s.latch.args[1], 0⟩ })
  | .brReadBits =>
    (∃ e, p = raise e s) ∨
    (s.rdr.bound = true ∧ s.cursor + s.u 0 ≤ 8 * s.rdr.len.toNat ∧
      p = complete ((s.setCursor (s.cursor + s.u 0)).setRes 0 (peek s.srcByte s.cursor (s.u 0))))
  | .brAlign =>
    p = raise .sessionClosed s ∨ (s.rdr.bound = true ∧ p = complete (s.setCursor (alignToByte s.cursor)))
  | .brSeek =>
    (∃ e, p = raise e s) ∨
    (s.rdr.bound = true ∧ s.u 0 ≤ s.rdr.len.toNat ∧ p = complete (s.setCursor (8 * s.u 0)))
  | .brTell =>
    p = raise .sessionClosed s ∨
    (s.rdr.bound = true ∧ p = complete ((s.setRes 0 (s.cursor / 8)).setRes 1 (s.cursor % 8)))

theorem accept_error {c : Config} {b : List Byte} {e : Error} (h : accept c b = .error e) : e ≠ .badAddress := by
  unfold accept at h
  split at h
  · cases h
    simp
  · cases h
    simp
  · cases h
    simp
  · split at h
    · cases h
      simp
    · split at h
      · cases h
        simp
      · split at h
        · cases h
          simp
        · split at h
          · cases h
            simp
          · split at h
            · cases h
              simp
            · cases h

theorem openSession_effect (s : State) : EffectOf .openSession s (performOpen Config.chip s) := by
  rw [performOpen_eq]
  split
  · rename_i hr
    rcases openBound_cases Config.chip
      { s with session := .closed, rdr := ⟨true, s.latch.args[0], s.latch.args[1], 0⟩ } with
      ⟨e, ha, h⟩ | ⟨q, _, _, h⟩ | ⟨q, d, h1, h2, h⟩ <;> rw [h]
    · exact .inr (.inl ⟨hr, e, accept_error ha, rfl⟩)
    · exact .inr (.inl ⟨hr, _, by simp, rfl⟩)
    · exact .inr (.inr ⟨hr, q, d, h1, h2, rfl⟩)
  · rename_i hr
    exact .inl ⟨Nat.lt_of_not_le hr, rfl⟩

/-- Every command's pseudocode ends, without a fault, in one of the states of `EffectOf`. -/
theorem performOf_effect (i : Instr) (s : State) : ∃ p, performOf i s = .ok p ∧ EffectOf i s p := by
  cases i with
  | nop => exact ⟨_, rfl, rfl⟩
  | openSession => exact ⟨_, rfl, openSession_effect s⟩
  | getSize =>
    refine ⟨_, rfl, ?_⟩
    unfold performGetSize
    cases hh : s.session.header? with
    | none => exact .inl ⟨hh, rfl⟩
    | some h => exact .inr ⟨h, hh, rfl⟩
  | getPixelFormat =>
    refine ⟨_, rfl, ?_⟩
    unfold performGetPixelFormat
    cases hh : s.session.header? with
    | none => exact .inl ⟨hh, rfl⟩
    | some h => exact .inr ⟨h, hh, by dsimp only; rw [setDescriptor_eq]⟩
  | copyRegion =>
    rcases performCopyRegion_all Config.chip s with ⟨e, he, h⟩ | ⟨h', pix, hr, ho, h⟩ | ⟨h', e, m, hr, ho, h⟩
    · exact ⟨_, h, .inl ⟨e, he, rfl⟩⟩
    · exact ⟨_, h, .inr (.inl ⟨h', pix, hr, ho, rfl⟩)⟩
    · exact ⟨_, h, .inr (.inr ⟨h', e, m, hr, ho, rfl⟩)⟩
  | close => exact ⟨_, rfl, rfl⟩
  | lookupPixelFormat =>
    refine ⟨_, rfl, ?_⟩
    unfold performLookup
    cases registry Config.chip s.guidOperand with
    | none => exact .inl rfl
    | some d => exact .inr ⟨d, by dsimp only; rw [setDescriptor_eq]⟩
  | brBind =>
    refine ⟨_, rfl, ?_⟩
    rw [performBrBind_eq]
    split
    · exact .inr ⟨‹_›, rfl⟩
    · exact .inl ⟨Nat.lt_of_not_le ‹_›, rfl⟩
  | brReadBits =>
    refine ⟨_, rfl, ?_⟩
    rcases performBrReadBits_cases s with ⟨_, h⟩ | ⟨_, _, h⟩ | ⟨_, _, _, h⟩ | ⟨hb, _, hl, h⟩ <;> rw [h]
    · exact .inl ⟨_, rfl⟩
    · exact .inl ⟨_, rfl⟩
    · exact .inl ⟨_, rfl⟩
    · exact .inr ⟨hb, hl, rfl⟩
  | brAlign =>
    refine ⟨_, rfl, ?_⟩
    unfold performBrAlign
    cases hb : s.rdr.bound with
    | false => exact .inl rfl
    | true => exact .inr ⟨hb, rfl⟩
  | brSeek =>
    refine ⟨_, rfl, ?_⟩
    rcases performBrSeek_cases s with ⟨_, h⟩ | ⟨_, _, h⟩ | ⟨hb, hl, h⟩ <;> rw [h]
    · exact .inl ⟨_, rfl⟩
    · exact .inl ⟨_, rfl⟩
    · exact .inr ⟨hb, hl, rfl⟩
  | brTell =>
    refine ⟨_, rfl, ?_⟩
    unfold performBrTell
    cases hb : s.rdr.bound with
    | false => exact .inl rfl
    | true => exact .inr ⟨hb, rfl⟩

/-- Every command answers a next state: one of those of `EffectOf`, completed. -/
theorem exec_effect (i : Instr) (s : State) : ∃ p, exec i s = .next (completed p.state p.err) ∧ EffectOf i s p := by
  obtain ⟨p, hp, he⟩ := performOf_effect i s
  exact ⟨p, by rw [exec_eq_performOf, hp]; rfl, he⟩

end Sys2Proof.Machine
end

