-- ==== Sys2Proof/Laws/Grid.lean ====
section
/-! SUPPORT. The grid: the intervals boundaries cut, the macroblocks of a tile, and that the tiles partition the grid. -/

namespace Sys2Proof.Machine

/-- Every interval lies inside `[lo, n)` and is not empty. -/
theorem spans_bounds {lo n : Nat} {bs : List Nat} {c : Nat × Nat} (h : c ∈ spans lo bs n) :
    lo ≤ c.1 ∧ c.1 < c.2 ∧ c.2 ≤ n := by
  induction bs generalizing lo with
  | nil =>
    unfold spans at h
    split at h
    · simp only [List.mem_singleton] at h
      subst h
      exact ⟨le_refl lo, by omega, le_refl n⟩
    · cases h
  | cons b bs ih =>
    unfold spans at h
    split at h
    · rcases List.mem_cons.mp h with rfl | h
      · exact ⟨le_refl lo, by omega, by omega⟩
      · have := ih h
        omega
    · exact ih h

/-- Every number of `[lo, n)` lies in an interval. -/
theorem spans_cover {lo n x : Nat} {bs : List Nat} (h1 : lo ≤ x) (h2 : x < n) :
    ∃ c ∈ spans lo bs n, c.1 ≤ x ∧ x < c.2 := by
  induction bs generalizing lo with
  | nil => exact ⟨(lo, n), by simp [spans, show lo < n by omega], h1, h2⟩
  | cons b bs ih =>
    unfold spans
    split
    · by_cases hb : x < b
      · exact ⟨(lo, b), List.mem_cons_self, h1, hb⟩
      · obtain ⟨c, hc, hx⟩ := ih (lo := b) (by omega)
        exact ⟨c, List.mem_cons_of_mem _ hc, hx⟩
    · exact ih h1

/-- The intervals follow one another without overlap. -/
theorem spans_pairwise (lo : Nat) (bs : List Nat) (n : Nat) : (spans lo bs n).Pairwise fun c d => c.2 ≤ d.1 := by
  induction bs generalizing lo with
  | nil =>
    unfold spans
    split <;> simp
  | cons b bs ih =>
    unfold spans
    split
    · exact List.pairwise_cons.mpr ⟨fun d hd => (spans_bounds hd).1, ih b⟩
    · exact ih lo

theorem spans_nodup (lo : Nat) (bs : List Nat) (n : Nat) : (spans lo bs n).Nodup := by
  have h : (spans lo bs n).Pairwise fun c d => c ≠ d := by
    refine List.Pairwise.imp_of_mem ?_ (spans_pairwise lo bs n)
    rintro c d hc hd hcd rfl
    have := spans_bounds hc
    omega
  exact h

/-- Two intervals that share a number are one. -/
theorem spans_unique {lo n x : Nat} {bs : List Nat} {c d : Nat × Nat} (hc : c ∈ spans lo bs n) (hd : d ∈ spans lo bs n)
    (h1 : c.1 ≤ x ∧ x < c.2) (h2 : d.1 ≤ x ∧ x < d.2) : c = d := by
  induction bs generalizing lo with
  | nil =>
    unfold spans at hc hd
    split at hc
    · rename_i hn
      rw [if_pos hn] at hd
      rw [List.mem_singleton.mp hc, List.mem_singleton.mp hd]
    · cases hc
  | cons b bs ih =>
    unfold spans at hc hd
    split at hc
    · rename_i hn
      rw [if_pos hn] at hd
      rcases List.mem_cons.mp hc with rfl | hc <;> rcases List.mem_cons.mp hd with rfl | hd
      · rfl
      · have := spans_bounds hd
        omega
      · have := spans_bounds hc
        omega
      · exact ih hc hd
    · rename_i hn
      rw [if_neg hn] at hd
      exact ih hc hd

/-- A macroblock is one of a tile exactly when it lies in its rectangle (45_macroblock_predictor.md R273). -/
theorem mem_tileMBs {t : Tile} {m : MB} : m ∈ tileMBs t ↔ t.c0 ≤ m.col ∧ m.col < t.c1 ∧ t.r0 ≤ m.row ∧ m.row < t.r1 := by
  obtain ⟨i, j⟩ := m
  simp only [tileMBs, List.mem_flatMap, List.mem_map, List.mem_range'_1, MB.mk.injEq]
  constructor
  · rintro ⟨j', hj, i', hi, rfl, rfl⟩
    omega
  · rintro ⟨h1, h2, h3, h4⟩
    exact ⟨j, by omega, i, by omega, rfl, rfl⟩

theorem tileContains_iff {t : Tile} {m : MB} : Tile.contains t m = true ↔ m ∈ tileMBs t := by
  simp [Tile.contains, mem_tileMBs, and_assoc]

/-- The tiles by their row and column intervals (45_macroblock_predictor.md R272). -/
theorem mem_tiles {h : Header} {t : Tile} : t ∈ tiles h ↔
    (t.r0, t.r1) ∈ spans 0 h.tiles.rows (mbRows h) ∧ (t.c0, t.c1) ∈ spans 0 h.tiles.cols (mbCols h) := by
  simp only [tiles, List.mem_flatMap, List.mem_map]
  constructor
  · rintro ⟨r, hr, c, hc, rfl⟩
    exact ⟨hr, hc⟩
  · rintro ⟨hr, hc⟩
    exact ⟨_, hr, _, hc, rfl⟩

/-- Every macroblock of the grid lies in a tile (45_macroblock_predictor.md R273). -/
theorem tiles_cover {h : Header} {m : MB} (h1 : m.col < mbCols h) (h2 : m.row < mbRows h) :
    ∃ t ∈ tiles h, m ∈ tileMBs t := by
  obtain ⟨r, hr, hr'⟩ := spans_cover (bs := h.tiles.rows) (Nat.zero_le m.row) h2
  obtain ⟨c, hc, hc'⟩ := spans_cover (bs := h.tiles.cols) (Nat.zero_le m.col) h1
  exact ⟨⟨c.1, c.2, r.1, r.2⟩, mem_tiles.mpr ⟨hr, hc⟩, mem_tileMBs.mpr ⟨hc'.1, hc'.2, hr'.1, hr'.2⟩⟩

/-- No macroblock lies in two tiles (45_macroblock_predictor.md R273). -/
theorem tiles_unique {h : Header} {m : MB} {t u : Tile} (ht : t ∈ tiles h) (hu : u ∈ tiles h) (h1 : m ∈ tileMBs t)
    (h2 : m ∈ tileMBs u) : t = u := by
  rw [mem_tiles] at ht hu
  rw [mem_tileMBs] at h1 h2
  have hr := spans_unique ht.1 hu.1 ⟨h1.2.2.1, h1.2.2.2⟩ ⟨h2.2.2.1, h2.2.2.2⟩
  have hc := spans_unique ht.2 hu.2 ⟨h1.1, h1.2.1⟩ ⟨h2.1, h2.2.1⟩
  obtain ⟨a, b, c, d⟩ := t
  obtain ⟨a', b', c', d'⟩ := u
  simp_all

theorem tileMBs_nodup (t : Tile) : (tileMBs t).Nodup := by
  unfold tileMBs
  rw [List.nodup_flatMap]
  constructor
  · intro j _
    refine List.Nodup.map (fun a b hab => ?_) List.nodup_range'
    simpa using hab
  · refine List.Pairwise.imp ?_ (List.nodup_range' (s := t.r0) (n := t.r1 - t.r0))
    intro a b hab
    simp only [Function.onFun, List.disjoint_left, List.mem_map]
    rintro m ⟨i, _, rfl⟩ ⟨i', _, h⟩
    simp only [MB.mk.injEq] at h
    exact hab h.2.symm

theorem tiles_nodup (h : Header) : (tiles h).Nodup := by
  unfold tiles
  rw [List.nodup_flatMap]
  constructor
  · intro r _
    refine List.Nodup.map (fun a b hab => ?_) (spans_nodup 0 h.tiles.cols (mbCols h))
    simp only [Tile.mk.injEq] at hab
    exact Prod.ext hab.1 hab.2.1
  · refine List.Pairwise.imp ?_ (spans_nodup 0 h.tiles.rows (mbRows h))
    intro a b hab
    simp only [Function.onFun, List.disjoint_left, List.mem_map]
    rintro m ⟨i, _, rfl⟩ ⟨i', _, h⟩
    simp only [Tile.mk.injEq] at h
    exact hab (Prod.ext h.2.2.1.symm h.2.2.2.symm)

/-- The tiles come in raster order (45_macroblock_predictor.md R272). -/
theorem tiles_raster (h : Header) :
    (tiles h).Pairwise fun t u => t.r0 < u.r0 ∨ (t.r0 = u.r0 ∧ t.c0 < u.c0) := by
  unfold tiles
  rw [List.pairwise_flatMap]
  constructor
  · intro r _
    rw [List.pairwise_map]
    refine List.Pairwise.imp_of_mem ?_ (spans_pairwise 0 h.tiles.cols (mbCols h))
    intro a b ha hb hab
    have := spans_bounds ha
    exact .inr ⟨rfl, by simp only; omega⟩
  · refine List.Pairwise.imp_of_mem ?_ (spans_pairwise 0 h.tiles.rows (mbRows h))
    intro a b ha hb hab x hx y hy
    simp only [List.mem_map] at hx hy
    obtain ⟨i, _, rfl⟩ := hx
    obtain ⟨j, _, rfl⟩ := hy
    have := spans_bounds ha
    exact .inl (by simp only; omega)

/-- The macroblocks of a tile come in raster order (45_macroblock_predictor.md R272). -/
theorem tileMBs_raster (t : Tile) :
    (tileMBs t).Pairwise fun m n => m.row < n.row ∨ (m.row = n.row ∧ m.col < n.col) := by
  unfold tileMBs
  rw [List.pairwise_flatMap]
  constructor
  · intro j _
    rw [List.pairwise_map]
    exact (List.pairwise_lt_range' (s := t.c0) (n := t.c1 - t.c0)).imp fun h => .inr ⟨rfl, h⟩
  · refine (List.pairwise_lt_range' (s := t.r0) (n := t.r1 - t.r0)).imp ?_
    intro a b hab x hx y hy
    simp only [List.mem_map] at hx hy
    obtain ⟨i, _, rfl⟩ := hx
    obtain ⟨j, _, rfl⟩ := hy
    exact .inl hab

/-- A macroblock covered by a rectangle's pixel grid lies in the image's grid. -/
theorem lt_ceilDiv {x n k : Nat} (hk : 0 < k) (h : x < n) : x / k < ceilDiv n k := by
  unfold ceilDiv
  rw [Nat.div_lt_iff_lt_mul hk]
  have := Nat.div_add_mod (n + k - 1) k
  have := Nat.mod_lt (n + k - 1) hk
  rw [Nat.mul_comm]
  omega

end Sys2Proof.Machine
end

