-- ==== Sys2Proof/Laws/PerInstr.lean ====
section
/-! SUPPORT. Statements made command by command, for the host's case split. `ReservedZero`: the word of a command has
zero in every reserved bit (30_encoding.md R110). -/

namespace Sys2Proof.Laws.ReservedZero

/-- The reserved field of a command's word is zero, and its opcode field is the command's (30_encoding.md R110). -/
def Statement (i : Instr) : Prop := rsvField (encode i) = 0 ∧ opField (encode i) = opcodeOf i

theorem nop : Statement .nop := ⟨rfl, rfl⟩
theorem openSession : Statement .openSession := ⟨rfl, rfl⟩
theorem getSize : Statement .getSize := ⟨rfl, rfl⟩
theorem getPixelFormat : Statement .getPixelFormat := ⟨rfl, rfl⟩
theorem copyRegion : Statement .copyRegion := ⟨rfl, rfl⟩
theorem close : Statement .close := ⟨rfl, rfl⟩
theorem lookupPixelFormat : Statement .lookupPixelFormat := ⟨rfl, rfl⟩
theorem brBind : Statement .brBind := ⟨rfl, rfl⟩
theorem brReadBits : Statement .brReadBits := ⟨rfl, rfl⟩
theorem brAlign : Statement .brAlign := ⟨rfl, rfl⟩
theorem brSeek : Statement .brSeek := ⟨rfl, rfl⟩
theorem brTell : Statement .brTell := ⟨rfl, rfl⟩

end Sys2Proof.Laws.ReservedZero
end

