-- ==== Sys2Proof/Laws/Step.lean ====
section
/-! SUPPORT. One step taken apart: the block's step, the host's events, and what reset leaves of memory. -/

namespace Sys2Proof.Machine

/-! ## Races with other instances (20_memory.md R96) -/

theorem State.drawContested_of_nil {s : State} (h : s.contested = []) (c : Config) : s.drawContested c = s := by
  cases s
  cases h
  rfl

/-- Which addresses are contested. -/
theorem mem_contestedAddrs {s : State} {a : Nat} : a ∈ s.contestedAddrs ↔ Contested s a := by
  simp only [State.contestedAddrs, Contested, List.mem_filter, List.mem_flatMap, AddrRange.addrs, List.mem_range'_1,
    Bool.not_eq_true']
  constructor <;> rintro ⟨⟨r, hr, h⟩, hs⟩ <;> exact ⟨⟨r, hr, by omega⟩, hs⟩

theorem isContested_iff (s : State) (a : Nat) : s.isContested a = true ↔ Contested s a := by
  simp [State.isContested, Contested]

/-- What is contested depends on the recorded ranges and the bound source alone. -/
theorem contested_congr {s t : State} (hc : t.contested = s.contested) (hs : ∀ a, t.isSourceByte a = s.isSourceByte a)
    (a : Nat) : Contested t a ↔ Contested s a := by
  rw [Contested, Contested, hc, hs]

/-- Settling the races changes no byte that is not contested. -/
theorem drawContested_read (s : State) (c : Config) {a : Nat} (h : ¬ Contested s a) :
    (s.drawContested c).mem.read a = s.mem.read a :=
  Memory.read_writeAll_other fun _ hx he => h (he ▸ mem_contestedAddrs.mp (mem_anyCells hx))

/-- Every command answers a next state, and so does the settling of its races. -/
theorem settleRace_exec (i : Instr) (s : State) : ∃ p, EffectOf i s p ∧
    settleRace Config.chip (exec i s) = .next ((completed p.state p.err).drawContested Config.chip) := by
  obtain ⟨p, hp, he⟩ := exec_effect i s
  exact ⟨p, he, by rw [hp]; rfl⟩

/-- No command touches what is contested. -/
theorem contested_exec {i : Instr} {s t : State} (h : exec i s = .next t) : t.contested = s.contested := by
  obtain ⟨p, hp, he⟩ := exec_effect i s
  rw [h] at hp
  cases hp
  cases i with
  | nop => cases he; rfl
  | close => cases he; rfl
  | openSession => rcases he with ⟨_, rfl⟩ | ⟨_, _, _, rfl⟩ | ⟨_, _, _, _, _, rfl⟩ <;> rfl
  | getSize => rcases he with ⟨_, rfl⟩ | ⟨_, _, rfl⟩ <;> rfl
  | getPixelFormat => rcases he with ⟨_, rfl⟩ | ⟨_, _, rfl⟩ <;> rfl
  | copyRegion => rcases he with ⟨_, _, rfl⟩ | ⟨_, _, _, _, rfl⟩ | ⟨_, _, _, _, _, rfl⟩ <;> rfl
  | lookupPixelFormat => rcases he with rfl | ⟨_, rfl⟩ <;> rfl
  | brBind => rcases he with ⟨_, rfl⟩ | ⟨_, rfl⟩ <;> rfl
  | brReadBits => rcases he with ⟨_, rfl⟩ | ⟨_, _, rfl⟩ <;> rfl
  | brAlign => rcases he with rfl | ⟨_, rfl⟩ <;> rfl
  | brSeek => rcases he with ⟨_, rfl⟩ | ⟨_, _, rfl⟩ <;> rfl
  | brTell => rcases he with rfl | ⟨_, rfl⟩ <;> rfl

/-- COPY_REGION leaves what is contested contested: it touches neither the record nor the source's range. -/
theorem contested_copyRegion {s t : State} (h : exec .copyRegion s = .next t) (a : Nat) : Contested t a ↔ Contested s a := by
  refine contested_congr (contested_exec h) (fun x => ?_) a
  obtain ⟨p, hp, he⟩ := exec_effect .copyRegion s
  rw [h] at hp
  cases hp
  rcases he with ⟨_, _, rfl⟩ | ⟨_, _, _, _, rfl⟩ | ⟨_, _, _, _, _, rfl⟩ <;> rfl

/-- Settling the races keeps the canonical form of memory. -/
theorem drawContested_wf {s : State} (hm : s.mem.wf = true) (hr : ∀ a, Contested s a → a < addrSpace) (c : Config) :
    (s.drawContested c).mem.wf = true :=
  Memory.wf_writeAll hm fun _ hx => hr _ (mem_contestedAddrs.mp (mem_anyCells hx))

/-- A contested byte is a draw once the races are settled (20_memory.md R96). -/
theorem drawContested_any {s : State} (hm : s.mem.wf = true) (hr : ∀ a, Contested s a → a < addrSpace) (c : Config)
    {a : Nat} (ha : Contested s a) : ∃ n, s.draws ≤ n ∧ n < (s.drawContested c).draws ∧
      (s.drawContested c).mem.read a = c.anyByte n := by
  obtain ⟨x, hx, hn, hv⟩ := Memory.read_writeAll_some hm (cs := anyCells c s.draws s.contestedAddrs) (a := a)
    (fun x hx => hr _ (mem_contestedAddrs.mp (mem_anyCells hx))) (anyCells_covers (mem_contestedAddrs.mpr ha))
  simp only [anyCells, List.mem_map, Prod.exists] at hx
  obtain ⟨b, k, hk, rfl⟩ := hx
  have hlt := (List.getElem?_eq_some_iff.mp (List.mem_zipIdx_iff_getElem?.mp hk)).1
  exact ⟨s.draws + k, by omega, by simpa using hlt, hv⟩

/-- A mark that another instance runs a COPY_REGION (20_memory.md R96). -/
theorem otherCopy_cases (s : State) (base len : Word) :
    (s.copyRunning = true ∧ otherCopy s base len = { s with contested := s.sharedOutput base len :: s.contested }) ∨
    (s.copyRunning = false ∧ otherCopy s base len = s) := by
  unfold otherCopy
  cases s.copyRunning <;> simp

/-- A byte written by another instance (20_memory.md R96). -/
theorem otherWrite_cases (c : Config) (s : State) (a : Word) (b : Byte) :
    (s.isSourceByte a.toNat = true ∧ otherWrite c s a b = .refused .hostBreaksDuty) ∨
    (s.isSourceByte a.toNat = false ∧
      ((s.inRunningOutput a.toNat = true ∧ otherWrite c s a b = .next { s with
          mem := s.mem.write a.toNat (c.anyByte s.draws)
          draws := s.draws + 1
          contested := ⟨a.toNat, a.toNat + 1⟩ :: s.contested }) ∨
        (s.inRunningOutput a.toNat = false ∧ otherWrite c s a b = .next { s with mem := s.mem.write a.toNat b }))) := by
  unfold otherWrite
  cases s.isSourceByte a.toNat <;> cases s.inRunningOutput a.toNat <;> simp

/-! ## The step -/

/-- The block's step (47_session_commands.md R321, 60_exceptions.md R375, 30_encoding.md R113). -/
theorem blockStep_cases (s : State) :
    (s.latch.valid = false ∧ blockStep s = .next s) ∨
    (s.latch.valid = true ∧ ∃ i, decodeWord s.latch.word = .ok i ∧
      blockStep s = settleRace Config.chip (exec i s)) ∨
    (s.latch.valid = true ∧ (∃ e, decodeWord s.latch.word = .error e) ∧
      blockStep s = .next (completed s (some .illegalCommand))) := by
  unfold blockStep State.fetchWord
  cases hv : s.latch.valid with
  | false => exact .inl ⟨rfl, by simp⟩
  | true =>
    right
    cases hd : decodeWord s.latch.word with
    | ok i => exact .inl ⟨rfl, i, rfl, by simp⟩
    | error e => exact .inr ⟨rfl, ⟨e, rfl⟩, rfl⟩

/-- Where a step comes from: the block, or the host's next event. -/
theorem step_cases (s : State) :
    (∃ es, (s.host = es ∨ s.host = .blockTurn :: es) ∧ step s = blockStep { s with host := es }) ∨
    (∃ e es, s.host = e :: es ∧ step s = hostStep Config.chip e { s with host := es }) := by
  cases hh : s.host with
  | nil =>
    refine .inl ⟨[], .inl rfl, ?_⟩
    unfold step
    rw [hh]
    cases s
    cases hh
    rfl
  | cons e es =>
    cases e with
    | blockTurn => exact .inl ⟨es, .inr rfl, by unfold step; rw [hh]⟩
    | wait =>
      cases hv : s.latch.valid with
      | true =>
        refine .inl ⟨.wait :: es, .inl rfl, ?_⟩
        unfold step
        rw [hh]
        simp only [hv, if_true]
        cases s
        cases hh
        rfl
      | false =>
        refine .inr ⟨_, es, rfl, ?_⟩
        unfold step
        rw [hh]
        simp [hv]
    | _ => exact .inr ⟨_, es, rfl, by unfold step; rw [hh]⟩

/-- A host memory write, by the duties (20_memory.md R94). -/
theorem hostMemWrite_cases (s : State) (a : Word) (b : Byte) :
    (s.breaksDuty a.toNat = true ∧ hostMemWrite s a b = .refused .hostBreaksDuty) ∨
    (s.breaksDuty a.toNat = false ∧ hostMemWrite s a b = .next { s with mem := s.mem.write a.toNat b }) := by
  unfold hostMemWrite
  cases h : s.breaksDuty a.toNat with
  | true => exact .inl ⟨rfl, rfl⟩
  | false => exact .inr ⟨rfl, by simp⟩

theorem copyRunning_iff (s : State) :
    s.copyRunning = true ↔ s.latch.valid = true ∧ decodeWord s.latch.word = .ok .copyRegion := by
  unfold State.copyRunning State.runningCommand State.fetchWord
  cases hv : s.latch.valid with
  | false => simp
  | true =>
    cases hd : decodeWord s.latch.word with
    | ok i => cases i <;> simp
    | error e => simp

/-- An idle block shares nothing. -/
theorem contested_of_idle {s : State} (h : RaceInv s) (hv : s.latch.valid = false) : s.contested = [] := by
  apply h.1
  rw [Bool.eq_false_iff]
  intro hc
  exact absurd (hv ▸ ((copyRunning_iff s).mp hc).1) (by simp)

/-- A contested byte is a byte of host memory in the output range, and no source byte (20_memory.md R96). -/
theorem contested_bounds {s : State} (h : RaceInv s) {a : Nat} (hc : Contested s a) :
    a < addrSpace ∧ (s.u 4 ≤ a ∧ a < s.u 4 + s.u 6) ∧ s.isSourceByte a = false := by
  obtain ⟨⟨r, hr, h1, h2⟩, hs⟩ := hc
  obtain ⟨h3, h4⟩ := h.2 r hr a h1 h2
  exact ⟨h3, h4, hs⟩

theorem isSourceByte_iff (s : State) (a : Nat) : s.isSourceByte a = true ↔
    s.rdr.bound = true ∧ s.rdr.base.toNat ≤ a ∧ a < s.rdr.base.toNat + s.rdr.len.toNat := by
  simp [State.isSourceByte, inRange]

theorem inRunningOutput_iff (s : State) (a : Nat) : s.inRunningOutput a = true ↔
    s.copyRunning = true ∧ s.u 4 ≤ a ∧ a < s.u 4 + s.u 6 := by
  simp [State.inRunningOutput, inRange]

/-- The duties in words (20_memory.md R94). -/
theorem breaksDuty_iff (s : State) (a : Nat) : s.breaksDuty a = true ↔
    (s.rdr.bound = true ∧ s.rdr.base.toNat ≤ a ∧ a < s.rdr.base.toNat + s.rdr.len.toNat) ∨
    (s.latch.valid = true ∧ decodeWord s.latch.word = .ok .copyRegion ∧ s.u 4 ≤ a ∧ a < s.u 4 + s.u 6) := by
  simp only [State.breaksDuty, Bool.or_eq_true, isSourceByte_iff, inRunningOutput_iff, copyRunning_iff, and_assoc]

/-- What reset leaves of memory (70_reset_and_hazards.md R392): all of it, or all but the row spans of a COPY_REGION
that had passed its checks. -/
theorem abandonCopy_cases (c : Config) (s : State) :
    s.abandonCopy c = s ∨
    (∃ h, s.latch.valid = true ∧ decodeWord s.latch.word = .ok .copyRegion ∧ CopyReaches h s ∧
      s.abandonCopy c = { s with
        mem := s.mem.writeAll (anyCells c s.draws (spanAddrs (s.spansOperand h.fmt)))
        draws := s.draws + (spanAddrs (s.spansOperand h.fmt)).length }) := by
  unfold State.abandonCopy State.runningSpans State.copyRunning State.runningCommand State.fetchWord
  cases hv : s.latch.valid with
  | false => exact .inl (by simp)
  | true =>
    cases hd : decodeWord s.latch.word with
    | error e => exact .inl (by simp)
    | ok i =>
      by_cases hi : i = .copyRegion
      · subst hi
        cases hc : copyChecks s with
        | error e => exact .inl (by simp)
        | ok j =>
          obtain ⟨h, hr, rfl⟩ := copyChecks_ok.mp hc
          exact .inr ⟨h, rfl, rfl, hr, by simp [State.scrambleSpans]⟩
      · exact .inl (by simp [hi])

/-- A 32-bit write to a window offset, register by register (10_state.md R30, R32-R39). -/
theorem setRegWord_cases (s : State) (off : Nat) (v : Word) :
    s.setRegWord off v = s ∨ s.setRegWord off v = s.ctrlWrite v ∨ s.setRegWord off v = s.statusWrite v ∨
    s.setRegWord off v = s.onCmdWrite v ∨ (∃ x, s.setRegWord off v = { s with args := x }) := by
  unfold State.setRegWord
  split
  · exact .inr (.inl rfl)
  · split
    · exact .inr (.inr (.inl rfl))
    · split
      · exact .inr (.inr (.inr (.inl rfl)))
      · split
        · exact .inr (.inr (.inr (.inr ⟨_, rfl⟩)))
        · exact .inl rfl

end Sys2Proof.Machine
end

