-- ==== Sys2Proof/Tests/Slice0.lean ====
section
/-! SUPPORT. The model's own tests: ill-formed terms that are refused, words written out from 30_encoding.md R112, the
vectors of 95_test_vectors.md (each test names its row), and for every statement with hypotheses a concrete state and
operands that meet them. -/

namespace Sys2Proof.Tests

open Sys2Proof.Machine

/-! ## Small states -/

/-- Eight argument registers from a list. -/
def argsOf (l : List Word) : Vector Word 8 := Vector.ofFn fun i => l.getD i 0

/-- `s` with a command just accepted, its operands in the ARG registers. -/
def issued (s : State) (i : Instr) (l : List Word) : State := { s with args := argsOf l }.latchCommand (encode i)

/-- A command issued in `s` and performed; `s` again when it does not complete. -/
def after (s : State) (i : Instr) (l : List Word) : State :=
  match exec i (issued s i l) with
  | .next t => t
  | .fault _ => s
  | .refused _ => s

/-- The state a step leads to; `s` again when it does not go on. -/
def stepped (s : State) : State :=
  match step s with
  | .next t => t
  | .fault _ => s
  | .refused _ => s

/-- 95_test_vectors.md section 2.3: the source bytes A5 3C at 0x1000, a reader bound over them at bit `p`. -/
def readerAt (p : Nat) : State :=
  { State.reset with mem := [(0x1000, 0xA5), (0x1001, 0x3C)], rdr := ⟨true, 0x1000, 2, BitVec.ofNat 35 p⟩ }

/-- 32bppBGRA-like, as in program P3. -/
def bgra : Descriptor := ⟨4, .rgb, .bd8, 32, true, false, true⟩

/-- 24bppRGB-like, as in 95_test_vectors.md section 2.5. -/
def rgb24 : Descriptor := ⟨3, .rgb, .bd8, 24, false, false, false⟩

/-- A header of a given size and format, with one extent of four bytes. -/
def headerOf (w h : Nat) (d : Descriptor) : Header where
  width := w
  height := h
  guid := Vector.replicate 16 0
  tiles := ⟨[], []⟩
  orientation := 0
  bitdepthClass := 0
  extents := [⟨0, 4⟩]
  codedOffset := 0
  rest := []
  fmt := d

/-- The image of 95_test_vectors.md section 2.5: 100 by 50. -/
def header100 : Header := headerOf 100 50 rgb24

/-- A session open over the four bytes from 0x1000. -/
def openWith (h : Header) : State :=
  { State.reset with session := .opened h, rdr := ⟨true, 0x1000, 4, 0⟩, mem := [(0x1000, 0x57)] }

/-- The parser's result in program P3. -/
def parsed2 : Parsed := (headerOf 2 1 bgra).toParsed

/-- The image of program P3. -/
def imageP3 : Image := fun i _ k => if i = 0 then 0x11 * (k + 1) else 0x11 * (k + 5)

/-- A configuration that gives the premises of program P3. -/
def configP3 : Config :=
  { (default : Config) with
    magicHead := 0x57
    magicTail := []
    directoryRanges := fun _ => []
    readDirectory := fun _ => []
    extract := fun _ _ _ => .ok parsed2
    scenarioGuid := Vector.replicate 16 0xFF
    registryRow := fun _ => some ⟨bgra, by decide⟩
    tileStart := fun _ _ _ => .previousEnd
    dataStart := fun _ _ => 0
    decodeMB := fun _ _ _ _ => .done [] []
    buildImage := fun _ _ => imageP3 }

/-- The same with a decode that fails at the first macroblock. -/
def configFails : Config := { configP3 with decodeMB := fun _ _ _ _ => .ruledOut .corrupt }

/-- The same with a decode that fails at the second macroblock of a row. -/
def configFailsLater : Config :=
  { configP3 with decodeMB := fun _ _ _ m => if m.col = 1 then .ruledOut .corrupt else .done [] [] }

/-- COPY_REGION of the whole image of program P3 to 0x8000, accepted. -/
def copyP3 : State := issued (openWith (headerOf 2 1 bgra)) .copyRegion [0, 0, 2, 1, 0x8000, 8, 8]

/-! ## Ill-formed terms are refused -/

theorem test_wf_too_many_operands : AsmLine.wellFormed (.command .brBind [1, 2, 3, 4, 5, 6, 7, 8, 9]) = false := by decide

theorem test_wf_lookup_without_literal : AsmLine.wellFormed (.command .lookupPixelFormat [1]) = false := by decide

theorem test_wf_short_guid : AsmLine.wellFormed (.lookup [0, 1, 2]) = false := by decide

theorem test_wf_write_outside_window : AsmLine.wellFormed (.write 0x100 5) = false := by decide

theorem test_wf_read_outside_window : AsmLine.wellFormed (.read 0x100) = false := by decide

theorem test_wf_skip_too_long : AsmLine.wellFormed (.brSkip 33) = false := by decide

theorem test_wf_program_refused : assemble [.ack, .brSkip 33] = none := by decide

theorem test_code_empty : VlcCode.ok [] = false := by decide

theorem test_code_empty_word : VlcCode.ok [([], 1)] = false := by decide

theorem test_code_not_prefix_free : VlcCode.ok [([true], 1), ([true, false], 2)] = false := by decide

/-- 42_pixel_format_registry.md R206: each law has a descriptor it refuses. -/
theorem test_descriptor_laws :
    descriptorOk { rgb24 with channels := 0 } = false ∧ descriptorOk { rgb24 with bpp := 0 } = false ∧
    descriptorOk { rgb24 with premultipliedAlpha := true } = false ∧
    descriptorOk { rgb24 with channels := 1, hasAlpha := true } = false ∧
    descriptorOk { rgb24 with bpp := 28 } = false ∧ descriptorOk { rgb24 with bpp := 16 } = false ∧
    descriptorOk { rgb24 with depth := .white1 } = false ∧ descriptorOk { rgb24 with depth := .bd565 } = false ∧
    descriptorOk { rgb24 with depth := .bd10 } = false := by decide

/-- 42_pixel_format_registry.md R206 passes the descriptors of 95_test_vectors.md sections 2.4 to 2.6. -/
theorem test_descriptors_ok :
    descriptorOk bgra = true ∧ descriptorOk rgb24 = true ∧ descriptorOk ⟨4, .rgb, .bd32F, 128, true, false, false⟩ = true ∧
    descriptorOk ⟨4, .rgb, .bd8, 32, true, true, true⟩ = true ∧ descriptorOk ⟨1, .yOnly, .black1, 1, false, false, false⟩ = true ∧
    descriptorOk ⟨3, .rgb, .bd565, 16, false, false, false⟩ = true ∧
    descriptorOk ⟨3, .rgb, .bd10, 32, false, false, false⟩ = true := by decide

/-- The 38 rows of 42_pixel_format_registry.md R207 keep the laws of R206. -/
theorem test_reference_formats : referenceFormats.length = 38 ∧ referenceFormats.all descriptorOk = true := by decide

/-! ## Words, from 30_encoding.md R110 and R112 -/

theorem test_word_session_family :
    decodeWord 0b00000000000000000000000000000001#32 = .ok .openSession ∧
    decodeWord 0b00000000000000000000000000000100#32 = .ok .copyRegion ∧
    decodeWord 0b00000000000000000000000000000101#32 = .ok .close := by decide

theorem test_word_registry_family : decodeWord 0b00000000000000000000000000000110#32 = .ok .lookupPixelFormat := by decide

theorem test_word_reader_family :
    decodeWord 0b00000000000000000000000000010000#32 = .ok .brBind ∧
    decodeWord 0b00000000000000000000000000010001#32 = .ok .brReadBits ∧
    decodeWord 0b00000000000000000000000000010100#32 = .ok .brTell := by decide

/-- The other words of the map, each as its four bytes on the bus, least significant first (10_state.md R31). -/
theorem test_bytes_of_the_map :
    decode [0x00, 0, 0, 0] = .ok (.nop, []) ∧ decode [0x02, 0, 0, 0] = .ok (.getSize, []) ∧
    decode [0x03, 0, 0, 0] = .ok (.getPixelFormat, []) ∧ decode [0x12, 0, 0, 0] = .ok (.brAlign, []) ∧
    decode [0x13, 0, 0, 0, 7] = .ok (.brSeek, [7]) ∧ decode [0, 0, 0, 0x12] = .error .reservedBitsSet ∧
    decode [0x12, 0, 0] = .error .shortWord := by decide

/-- 95_test_vectors.md section 2.2. -/
theorem test_illegal_words :
    decodeWord 0x00000007 = .error .unassignedOpcode ∧ decodeWord 0x0000000F = .error .unassignedOpcode ∧
    decodeWord 0x00000015 = .error .unassignedOpcode ∧ decodeWord 0x000000FF = .error .unassignedOpcode ∧
    decodeWord 0x00000101 = .error .reservedBitsSet ∧ decodeWord 0x80000000 = .error .reservedBitsSet := by decide

theorem test_table_word : decodeTableWord 32 0x11 = some .brReadBits ∧ decodeTableWord 32 0x111 = none := by decide

theorem test_with_fetch_word_runs : (stepped (State.reset.withFetchWord 32 0x02)).err = some .sessionClosed := by decide

/-! ## The register window, 95_test_vectors.md section 2.1 -/

theorem test_id : State.reset.regRead 0x00 4 = [0x44, 0x52, 0x58, 0x4A] := by decide

theorem test_narrow_read : State.reset.regRead 0x00 2 = [0, 0] ∧ State.reset.regRead 0x02 4 = [0, 0, 0, 0] := by decide

/-- STATUS = 0x0000030E of the table. -/
def status30E : State := { State.reset with done := true, overrun := true, err := some .unknownPixelFormat }

theorem test_status_word : status30E.statusWord = 0x0000030E := by decide

theorem test_status_clear : (status30E.regWrite 0x08 (wordBytes 0x2)).statusWord = 0x0000030C := by decide

theorem test_status_ack : (status30E.regWrite 0x08 (wordBytes 0xA)).statusWord = 0x00000304 := by decide

theorem test_res_read_only : ((State.reset.regWrite 0x30 (wordBytes 5)).regWord 0x30) = 0 := by decide

theorem test_cmd_reads_back : (State.reset.regWrite 0x0C (wordBytes 0x11)).regWord 0x0C = 0x11 := by decide

theorem test_ctrl : (State.reset.regWrite 0x04 (wordBytes 0xFFFFFFFF)).regWord 0x04 = 1 := by decide

/-! ## Commands -/

/-- Program P2, first line. -/
theorem test_open_empty : (after State.reset .openSession [0x2000, 0]).statusWord = 0x00000106 := by decide

/-- Section 2.5, session state rows: a wrapped range leaves the session open. -/
theorem test_open_wrap : (after (openWith header100) .openSession [0xFFFFFFFF, 2]).statusWord = 0x00110A06 := by decide

theorem test_nop : (after State.reset .nop []).statusWord = 0x00000002 := by decide

theorem test_get_size : (after (openWith (headerOf 3440 1440 bgra)) .getSize []).res[0] = 0x00000D70 ∧
    (after (openWith (headerOf 3440 1440 bgra)) .getSize []).res[1] = 0x000005A0 := by decide

/-- Program P2, second line. -/
theorem test_get_size_closed : (after State.reset .getSize []).statusWord = 0x00000806 := by decide

/-- Program P3: RES0 to RES4 = 4, 7, 1, 32, 5. -/
theorem test_get_pixel_format : (after (openWith (headerOf 2 1 bgra)) .getPixelFormat []).res = #v[4, 7, 1, 32, 5, 0, 0, 0] := by
  decide

/-- Section 2.5: each row that does not reach the decode. -/
theorem test_copy_checks :
    (after (openWith header100) .copyRegion [0, 0, 100, 50, 0x10000, 299, 15000]).err = some .bufferTooSmall ∧
    (after (openWith header100) .copyRegion [0, 0, 100, 50, 0x10000, 300, 14999]).err = some .bufferTooSmall ∧
    (after (openWith header100) .copyRegion [0, 0, 0, 10, 0x10000, 300, 15000]).err = some .invalidRegion ∧
    (after (openWith header100) .copyRegion [0xFFFFFFFF, 0, 10, 10, 0x10000, 300, 15000]).err = some .invalidRegion ∧
    (after (openWith header100) .copyRegion [90, 0, 11, 1, 0x10000, 300, 300]).err = some .invalidRegion ∧
    (after (openWith header100) .copyRegion [0x7FFFFFFF, 0, 1, 1, 0x10000, 3, 3]).err = some .invalidRegion ∧
    (after (openWith header100) .copyRegion [0, 0, 0xFFFFFFFB, 1, 0x10000, 0, 0]).err = some .invalidRegion := by decide

theorem test_copy_addresses :
    (after (openWith header100) .copyRegion [0, 0, 1, 1, 0xFFFFFFFE, 3, 3]).err = some .badAddress ∧
    (after (openWith header100) .copyRegion [0, 0, 1, 1, 0x1000, 3, 3]).err = some .badAddress ∧
    (after (openWith header100) .copyRegion [0, 0, 1, 1, 0x1000, 3, 2]).err = some .bufferTooSmall ∧
    (after (openWith (headerOf 9 9 ⟨1, .yOnly, .black1, 1, false, false, false⟩)) .copyRegion
      [0, 0, 1, 1, 0x10000, 1, 1]).err = some .unsupportedFeature := by decide

theorem test_close : (after (openWith header100) .close []).statusWord = 0x00000002 := by decide

/-- Section 2.3, the corner cases of BR_BIND. -/
theorem test_br_bind : (after State.reset .brBind [0xFFFFFFFE, 2]).statusWord = 0x00100002 ∧
    (after State.reset .brBind [0xFFFFFFFF, 2]).statusWord = 0x00000A06 := by decide

/-- Section 2.5: BR_BIND closes an open session. -/
theorem test_br_bind_closes : (after (openWith header100) .brBind [0x1000, 2]).statusWord = 0x00100002 := by decide

/-- Section 2.3, steps 12 and 13: across the byte boundary. -/
theorem test_br_read_bits : (after (readerAt 3) .brReadBits [8]).res[0] = 41 ∧
    (after (readerAt 0) .brReadBits [16]).res[0] = 0xA53C := by decide

/-- Section 2.3, steps 9, 14 and 15. -/
theorem test_br_read_bits_fails : (after (readerAt 16) .brReadBits [1]).statusWord = 0x00100706 ∧
    (after (readerAt 0) .brReadBits [17]).err = some .unexpectedEnd ∧
    (after (readerAt 0) .brReadBits [33]).err = some .illegalCommand := by decide

/-- Section 2.3, steps 7 and 8. -/
theorem test_br_align : (after (readerAt 12) .brAlign []).cursor = 16 ∧ (after (readerAt 16) .brAlign []).cursor = 16 := by
  decide

/-- Section 2.3, steps 16 and 17. -/
theorem test_br_seek : (after (readerAt 0) .brSeek [2]).cursor = 16 ∧
    (after (readerAt 16) .brSeek [3]).err = some .unexpectedEnd := by decide

/-- Section 2.3, step 6. -/
theorem test_br_tell : (after (readerAt 12) .brTell []).res[0] = 1 ∧ (after (readerAt 12) .brTell []).res[1] = 4 := by decide

/-- Section 2.4, the GUID packing. -/
theorem test_guid_operand : (issued State.reset .lookupPixelFormat
    [0x03020100, 0x07060504, 0x0B0A0908, 0x0F0E0D0C]).guidOperand.toList =
      [0x00, 0x01, 0x02, 0x03, 0x04, 0x05, 0x06, 0x07, 0x08, 0x09, 0x0A, 0x0B, 0x0C, 0x0D, 0x0E, 0x0F] := by decide

/-- Section 2.4: the second descriptor row, and an unknown GUID. -/
theorem test_lookup :
    (performLookup { configP3 with registryRow := fun _ => some ⟨⟨4, .rgb, .bd8, 32, true, true, true⟩, by decide⟩ }
      (issued State.reset .lookupPixelFormat [])).state.res = #v[4, 7, 1, 32, 7, 0, 0, 0] ∧
    (performLookup { configP3 with registryRow := fun _ => none }
      (issued State.reset .lookupPixelFormat [])).err = some .unknownPixelFormat := by decide

/-! ## The stages -/

/-- Section 2.3, the code 0, 10, 11 over the byte 0xB0. -/
def code3 : VlcCode := ⟨[([false], 65), ([true, false], 66), ([true, true], 67)], by decide⟩

theorem test_read_vlc :
    readVLC (fun _ => 0xB0) code3 8 .unexpectedEnd 0 = .ok (66, 2) ∧
    readVLC (fun _ => 0xB0) code3 8 .unexpectedEnd 2 = .ok (67, 4) ∧
    readVLC (fun _ => 0xB0) code3 8 .unexpectedEnd 4 = .ok (65, 5) := by decide

theorem test_read_vlc_fails :
    readVLC (fun _ => 0xB0) code3 1 .unexpectedEnd 0 = .error .unexpectedEnd ∧
    readVLC (fun _ => 0xB0) code3 0 .unexpectedEnd 0 = .error .unexpectedEnd ∧
    readVLC (fun _ => 0xB0) ⟨[([false, false], 65), ([false, true], 66)], by decide⟩ 8 .unexpectedEnd 0 =
      .error .corruptStream := by decide

/-- Section 2.5: `Cover` of 15, 15, 2, 2 and of 96, 0, 4, 1. -/
theorem test_cover :
    (decodeOrder header100).filter (inCover ⟨15, 15, 2, 2⟩) = [⟨0, 0⟩, ⟨1, 0⟩, ⟨0, 1⟩, ⟨1, 1⟩] ∧
    (decodeOrder header100).filter (inCover ⟨96, 0, 4, 1⟩) = [⟨6, 0⟩] := by decide

/-- Section 2.5: the number of macroblocks `Needed` holds, row by row. -/
theorem test_needed :
    ((decodeOrder header100).filter (needed header100 ⟨15, 15, 2, 2⟩)).length = 9 ∧
    ((decodeOrder header100).filter (needed header100 ⟨0, 48, 1, 1⟩)).length = 22 ∧
    ((decodeOrder header100).filter (needed header100 ⟨96, 0, 4, 1⟩)).length = 7 := by decide

/-- Section 2.6: reversed formats, with and without alpha, and the pad byte. -/
theorem test_pack_bytes :
    packPixel bgra [0x11, 0x22, 0x33, 0x44] = [0x33, 0x22, 0x11, 0x44] ∧
    packPixel { rgb24 with channelOrderReversed := true } [0x11, 0x22, 0x33] = [0x33, 0x22, 0x11] ∧
    packPixel { rgb24 with bpp := 32 } [1, 2, 3] = [1, 2, 3, 0] ∧
    packPixel ⟨1, .yOnly, .bd16S, 16, false, false, false⟩ [0xFFFE] = [0xFE, 0xFF] := by decide

/-- Section 2.6: binary32 samples and the packed words. -/
theorem test_pack_words :
    packPixel ⟨4, .rgb, .bd32F, 128, true, false, false⟩ [0x3F800000, 0x3F000000, 0, 0x3F800000] =
      [0, 0, 0x80, 0x3F, 0, 0, 0, 0x3F, 0, 0, 0, 0, 0, 0, 0x80, 0x3F] ∧
    packPixel ⟨3, .rgb, .bd565, 16, false, false, false⟩ [31, 0, 0] = [0x1F, 0x00] ∧
    packPixel ⟨3, .rgb, .bd565, 16, false, false, false⟩ [0, 63, 0] = [0xE0, 0x07] ∧
    packPixel ⟨3, .rgb, .bd5, 16, false, false, false⟩ [31, 31, 31] = [0xFF, 0x7F] ∧
    packPixel ⟨3, .rgb, .bd10, 32, false, false, false⟩ [0, 0, 1023] = [0x00, 0x00, 0xF0, 0x3F] := by decide

/-- Section 2.6: the offsets written with `w = 2`, `h = 2`, `Bpp = 3`, `stride = 8`. -/
theorem test_spans : spanAddrs ⟨0, 8, 6, 2⟩ = [0, 1, 2, 3, 4, 5, 8, 9, 10, 11, 12, 13] := by decide

/-- Program P3: OPEN under its premises, then COPY_REGION. -/
theorem test_open_p3 : (performOpen configP3 (issued { State.reset with mem := [(0x1000, 0x57)] } .openSession
    [0x1000, 4])).state.session = .opened (headerOf 2 1 bgra) := by decide

/-- Program P3: the bytes at 0x8000. -/
theorem test_copy_p3 : (match performCopyRegion configP3 copyP3 with
    | .ok p => (List.range 8).map fun k => p.state.mem.read (0x8000 + k)
    | .error _ => []) = [0x33, 0x22, 0x11, 0x44, 0x77, 0x66, 0x55, 0x88] := by decide

/-- Section 2.5, decode outcomes: a failing decode leaves the session opened and reports its code. -/
theorem test_copy_fails : ((performCopyRegion configFails copyP3).toOption.map fun p => (p.err, p.state.session)) =
    some (some .corruptStream, .opened (headerOf 2 1 bgra)) := by decide

/-! ## Host, interrupt, reset -/

/-- Section 2.7: a CMD write while BUSY. -/
theorem test_overrun : (copyP3.regWrite 0x0C (wordBytes 0)).statusWord = 0x00110009 ∧
    (copyP3.regWrite 0x0C (wordBytes 0)).cmd = 4 := by decide

theorem test_irq : (after { State.reset with irqEn := true } .nop []).irq = true := by decide

/-- 20_memory.md R90: a store at `REG_BASE + 8` is one register access, a store elsewhere byte writes. -/
theorem test_bus : busStore { configP3 with regBaseHigh := 0x400000 } 0x40000008 [2, 0, 0, 0] = [.regWrite 0x08 [2, 0, 0, 0]] ∧
    busStore { configP3 with regBaseHigh := 0x400000 } 0x1000 [7, 8] = [.memWrite 0x1000 7, .memWrite 0x1001 8] := by decide

/-- 30_encoding.md R118: the writes of `BR_BIND 0x1000, 3` in program P1. -/
theorem test_assembler : AsmLine.events (.command .brBind [0x1000, 3]) =
    [.regWrite 0x10 [0x00, 0x10, 0, 0], .regWrite 0x14 [3, 0, 0, 0], .regWrite 0x0C [0x10, 0, 0, 0], .wait] := by decide

/-- 30_encoding.md R118 with 10_state.md R31: `W` and `R` take any window offset; at an unaligned one the write has no
effect and the read returns 0. -/
theorem test_assembler_unaligned :
    assemble [.write 0x11 5, .read 0x02] = some [.regWrite 0x11 [5, 0, 0, 0], .regRead 0x02 4] ∧
    State.reset.regWrite 0x11 [5, 0, 0, 0] = State.reset ∧ State.reset.regRead 0x02 4 = [0, 0, 0, 0] := by decide

/-- 43_entropy_decoder.md R226: an index-table offset, the end of the tile before, and starts at both ends of the first
extent, bytes 0 to 3. -/
theorem test_tile_start :
    let at' := fun e prev => tileStart { configP3 with tileStart := fun _ _ _ => e } [0, 0, 0, 0] (headerOf 2 1 bgra)
      ⟨0, 1, 0, 1⟩ prev
    at' (.indexTable 3) 5 = some 24 ∧ at' (.indexTable 4) 5 = none ∧ at' .previousEnd 31 = some 31 ∧
      at' .previousEnd 32 = none := by decide

/-- 20_memory.md R80: nothing lies past the top address, for a load as for a store (log 26). -/
theorem test_bus_top : busLoad { configP3 with regBaseHigh := 0x400000 } 0xFFFFFFFE 4 = [.memRead 0xFFFFFFFE, .memRead 0xFFFFFFFF] ∧
    busStore { configP3 with regBaseHigh := 0x400000 } 0xFFFFFFFF [7, 8] = [.memWrite 0xFFFFFFFF 7] := by decide

/-- 20_memory.md R96: another instance's output over the last four bytes of the running one; the command's completion
ends the race. -/
theorem test_race : (stepped { copyP3 with host := [.otherCopy 0x8004 0x10] }).contested = [⟨0x8004, 0x8008⟩] ∧
    step { readerAt 0 with host := [.otherCopy 0x1000 4] } = .next (readerAt 0) ∧
    step { copyP3 with host := [.otherWrite 0x1003 1] } = .refused .hostBreaksDuty := ⟨rfl, rfl, rfl⟩

/-- 20_memory.md R81, R96: output ranges that meet over the source, which a failing check then names; the source byte
0x1003 is not contested, the byte after it is. -/
theorem test_race_over_source :
    (stepped { issued copyP3 .copyRegion [0, 0, 2, 1, 0x1003, 8, 8] with host := [.otherCopy 0x1003 2] }).contestedAddrs =
      [0x1004] := by decide

/-- 41_container_header_parser.md R172: a directory outside the source never gives UnsupportedFeature. -/
theorem test_directory_outside : parseContainer { configP3 with
      directoryRanges := fun _ => [⟨3, 2⟩]
      extract := fun _ _ _ => .error .unsupportedFeature } [0x57, 0, 0, 0] = .error .invalidFormat := by rfl

/-- 60_exceptions.md R362: a registry row with alpha in one channel (42_pixel_format_registry.md R206 (3)). -/
theorem test_ill_formed_registry : admitRow ⟨1, .yOnly, .bd8, 8, true, false, false⟩ = .error .illFormedConfig := by rfl

theorem test_line : parseLine "BR_READ_BITS 0x0C ; twelve".toList = some (.command .brReadBits [12]) := by decide

/-! ## The hypotheses of the statements can be met

Each `witness_<Name>` gives a concrete state and operands that meet every hypothesis of `Obligations.<Name>`, one for
each clause, at the ends of a range where a clause has one. -/

/-- The latch holds a legal word. -/
def latched (w : Word) : State := State.reset.latchCommand w

theorem witness_IllegalWordsChangeStatusAlone : State.reset.latch.valid = false ∧ (latched 0x07).host = [] ∧
    { latched 0x07 with host := [.blockTurn] }.host = .blockTurn :: [] ∧
    { latched 0x07 with host := [.wait] }.host = .wait :: [] ∧
    (latched 0x07).latch.valid = true ∧ (latched 0x07).latch.word = 0x07 ∧
    decodeWord 0x07 = .error .unassignedOpcode := by decide

/-- The ends of each range of R113, and the legal words next to them. -/
theorem witness_illegal_ranges :
    decodeWord 0x06 = .ok .lookupPixelFormat ∧ decodeWord 0x07 = .error .unassignedOpcode ∧
    decodeWord 0x0F = .error .unassignedOpcode ∧ decodeWord 0x10 = .ok .brBind ∧ decodeWord 0x14 = .ok .brTell ∧
    decodeWord 0x15 = .error .unassignedOpcode ∧ decodeWord 0xFF = .error .unassignedOpcode ∧
    decodeWord 0x100 = .error .reservedBitsSet := by decide

theorem witness_StepRunsTheLatchedCommand : (latched 0x10).latch.valid = true ∧
    decodeWord (latched 0x10).latch.word = .ok .brBind ∧ Instr.wellFormed .brBind = true ∧ (latched 0x10).host = [] ∧
    { latched 0x10 with host := [.blockTurn] }.host = .blockTurn :: [] ∧
    { latched 0x10 with host := [.wait] }.host = .wait :: [] ∧ (latched 0x10).contested = [] := by decide

theorem witness_IdleBlockDoesNothing : State.reset.latch.valid = false ∧ State.reset.host = [] ∧
    { State.reset with host := [.blockTurn] }.host = .blockTurn :: [] ∧
    { State.reset with host := [.wait] }.host = .wait :: [] := by decide

/-- A host write and another instance's write over the source. -/
theorem witness_StepRefusesOnlyABrokenDuty :
    step { readerAt 0 with host := [.memWrite 0x1000 0] } = .refused .hostBreaksDuty ∧
    step { readerAt 0 with host := [.otherWrite 0x1001 0] } = .refused .hostBreaksDuty := ⟨rfl, rfl⟩

/-- With nothing contested there is no race. -/
theorem witness_no_race {s : State} (h : s.contested = []) : RaceInv s := by
  refine ⟨fun _ => h, fun r hr => ?_⟩
  rw [h] at hr
  cases hr

/-- An open session meets the invariants, and its step goes on. -/
theorem witness_EveryStepKeepsTheInvariants :
    MachineInv { openWith header100 with host := [.blockTurn] } ∧
    step { openWith header100 with host := [.blockTurn] } = .next (openWith header100) := by
  refine ⟨⟨by decide, ⟨by decide, by decide, by decide⟩, ⟨by decide, by decide, by decide⟩, witness_no_race rfl, ?_⟩, rfl⟩
  intro h hh
  cases hh
  exact ⟨rfl, by decide, by decide, by decide, ⟨⟨0, 4⟩, rfl, rfl⟩, by decide⟩

/-- With the chip's parser open, only a state without a session can be shown to be one of its headers. -/
theorem witness_StoredHeaderStaysThatOfTheSource :
    MachineInv { readerAt 3 with host := [.blockTurn] } ∧ HeaderOfSource { readerAt 3 with host := [.blockTurn] } ∧
    step { readerAt 3 with host := [.blockTurn] } = .next (readerAt 3) := by
  refine ⟨⟨by decide, ⟨by decide, by decide, by decide⟩, ⟨by decide, by decide, by decide⟩, witness_no_race rfl, ?_⟩, ?_,
    rfl⟩
  · intro h hh
    cases hh
  · intro h hh
    cases hh

/-- The checks of COPY_REGION pass in program P3. -/
theorem witness_copy_reaches : CopyReaches (headerOf 2 1 bgra) copyP3 :=
  ⟨rfl, by decide, by decide, by decide, by decide, by decide, by decide⟩

/-- Outside a row span: the byte after the last one. -/
theorem witness_not_in_span : ¬ CopySpan (headerOf 2 1 bgra) copyP3 0x8008 := by
  rintro ⟨r, k, hr, hk, h⟩
  have hr' : r < 1 := hr
  have hk' : k < 8 := hk
  have h' : 0x8008 = 0x8000 + r * 8 + k := h
  omega

/-- A reset while COPY_REGION runs, past its checks. -/
theorem witness_ResetInputAbandonsTheCommand :
    { copyP3 with host := [.reset] }.host = .reset :: [] ∧ copyP3.latch.valid = true ∧
    decodeWord copyP3.latch.word = .ok .copyRegion ∧ CopyReaches (headerOf 2 1 bgra) { copyP3 with host := [.reset] } ∧
    ¬ Contested { copyP3 with host := [.reset] } 0x8008 ∧
    ∀ h, CopyReaches h { copyP3 with host := [.reset] } → ¬ CopySpan h { copyP3 with host := [.reset] } 0x8008 := by
  refine ⟨rfl, rfl, by decide, witness_copy_reaches, (fun ⟨⟨_, hr, _⟩, _⟩ => by cases hr), fun h hr => ?_⟩
  have hh : some (headerOf 2 1 bgra) = some h := hr.1
  cases hh
  exact witness_not_in_span

/-- A read of STATUS while COPY_REGION is BUSY. -/
theorem witness_StatusWordHasTheFieldsOfTheSpec :
    { copyP3 with host := [.regRead 0x08 4] }.host = .regRead 0x08 4 :: [] ∧ copyP3.latch.valid = true := by decide

theorem witness_StatusWriteClearsDoneAndOverrunAlone :
    { status30E with host := [.regWrite 0x08 (wordBytes 0xA)] }.host = .regWrite 0x08 (wordBytes 0xA) :: [] := by decide

theorem witness_CtrlHoldsTheInterruptEnableAlone :
    { copyP3 with host := [.regWrite 0x04 (wordBytes 3)] }.host = .regWrite 0x04 (wordBytes 3) :: [] ∧
    State.reset.irqEn = false := by decide

/-- An aligned word; three and five bytes, and an offset not a multiple of 4; a read. -/
theorem witness_WindowTakesAlignedWordsOnly :
    ({ State.reset with host := [.regWrite 0xFC [1, 2, 3, 4]] }.host = .regWrite 0xFC [1, 2, 3, 4] :: [] ∧
      (0xFC : BitVec 8).toNat % 4 = 0) ∧
    { State.reset with host := [.regWrite 0x10 [1, 2, 3]] }.host = .regWrite 0x10 [1, 2, 3] :: [] ∧
    [1, 2, 3].length ≠ 4 ∧ [1, 2, 3, 4, 5].length ≠ 4 ∧ (0x11 : BitVec 8).toNat % 4 ≠ 0 ∧
    { State.reset with host := [.regRead 0x08 4] }.host = .regRead 0x08 4 :: [] := by decide

/-- ARG0 and ARG7. -/
theorem witness_ArgWriteChangesOneRegister :
    { State.reset with host := [.regWrite 0x10 (wordBytes 5)] }.host =
      .regWrite (BitVec.ofNat 8 (0x10 + 4 * (0 : Fin 8).val)) (wordBytes 5) :: [] ∧
    { State.reset with host := [.regWrite 0x2C (wordBytes 5)] }.host =
      .regWrite (BitVec.ofNat 8 (0x10 + 4 * (7 : Fin 8).val)) (wordBytes 5) :: [] := by decide

/-- ID, RES0, the last offset of the window. -/
theorem witness_ReadOnlyOffsetsIgnoreWrites :
    { State.reset with host := [.regWrite 0x00 (wordBytes 5)] }.host = .regWrite 0x00 (wordBytes 5) :: [] ∧
    0x30 ≤ (0x30 : BitVec 8).toNat ∧ 0x30 ≤ (0xFF : BitVec 8).toNat ∧ 0x50 ≤ 0xFC := by decide

theorem witness_CmdWriteIsAcceptedOrDropped :
    { State.reset with host := [.regWrite 0x0C (wordBytes 0x11)] }.host = .regWrite 0x0C (wordBytes 0x11) :: [] ∧
    State.reset.latch.valid = false ∧ copyP3.latch.valid = true := by decide

/-- The last byte of the source, the first of the output, and bytes just outside both. -/
theorem witness_HostWritesKeepTheirDuties :
    { copyP3 with host := [.memWrite 0x1003 7] }.host = .memWrite 0x1003 7 :: [] ∧
    (copyP3.rdr.bound = true ∧ copyP3.rdr.base.toNat ≤ 0x1003 ∧ 0x1003 < copyP3.rdr.base.toNat + copyP3.rdr.len.toNat) ∧
    (copyP3.latch.valid = true ∧ decodeWord copyP3.latch.word = .ok .copyRegion ∧ copyP3.u 4 ≤ 0x8000 ∧
      0x8000 < copyP3.u 4 + copyP3.u 6) ∧
    ¬ 0x1004 < copyP3.rdr.base.toNat + copyP3.rdr.len.toNat ∧ ¬ 0x8008 < copyP3.u 4 + copyP3.u 6 ∧
    copyP3.mem.wf = true := by decide

/-- A host read of the first row-span byte of a running COPY_REGION, and of one byte past the last. -/
theorem witness_host_reads : { copyP3 with host := [.memRead 0x8000] }.host = .memRead 0x8000 :: [] ∧
    copyP3.session.header? = some (headerOf 2 1 bgra) ∧ CopySpan (headerOf 2 1 bgra) copyP3 0x8000 ∧
    ¬ CopySpan (headerOf 2 1 bgra) copyP3 0x8008 ∧ ¬ Contested copyP3 0x8008 :=
  ⟨rfl, rfl, ⟨0, 0, by decide, by decide, rfl⟩, witness_not_in_span, fun ⟨⟨_, hr, _⟩, _⟩ => by cases hr⟩

/-- Program P3 while another instance's output shares the last four bytes. -/
def raceP3 : State := { copyP3 with contested := [⟨0x8004, 0x8008⟩] }

theorem witness_race_inv : RaceInv raceP3 := by
  refine ⟨fun h => absurd h (by decide), fun r hr a h1 h2 => ?_⟩
  have hr' : r = ⟨0x8004, 0x8008⟩ := List.mem_singleton.mp hr
  subst hr'
  have h1' : 0x8004 ≤ a := h1
  have h2' : a < 0x8008 := h2
  exact ⟨by unfold addrSpace; omega, show 0x8000 ≤ a by omega, show a < 0x8000 + 8 by omega⟩

/-- A mark clear of the source; a write of a shared byte and of one just past the output; the completion of a command
with shared bytes, from a state with the invariants. -/
theorem witness_SharedOutputBytesAreFree :
    ({ copyP3 with host := [.otherCopy 0x8004 4] }.host = .otherCopy 0x8004 4 :: [] ∧ copyP3.latch.valid = true ∧
      decodeWord copyP3.latch.word = .ok .copyRegion ∧ ¬ 0x8004 < copyP3.rdr.base.toNat + copyP3.rdr.len.toNat) ∧
    ({ copyP3 with host := [.otherWrite 0x8007 1] }.host = .otherWrite 0x8007 1 :: [] ∧ copyP3.mem.wf = true ∧
      copyP3.u 4 ≤ 0x8007 ∧ 0x8007 < copyP3.u 4 + copyP3.u 6 ∧ ¬ 0x8008 < copyP3.u 4 + copyP3.u 6) ∧
    MachineInv raceP3 ∧ raceP3.host = [] ∧ (∃ u, exec .copyRegion raceP3 = .next u) ∧ Contested raceP3 0x8004 ∧
    ¬ Contested raceP3 0x8008 := by
  refine ⟨by decide, by decide, ⟨by decide, ⟨by decide, by decide, by decide⟩, ⟨by decide, by decide, by decide⟩,
    witness_race_inv, ?_⟩, rfl, ?_, ⟨⟨_, List.mem_singleton.mpr rfl, by decide⟩, by decide⟩, ?_⟩
  · intro h hh
    cases hh
    exact ⟨rfl, by decide, by decide, by decide, ⟨⟨0, 4⟩, rfl, rfl⟩, by decide⟩
  · obtain ⟨p, hp, _⟩ := exec_effect .copyRegion raceP3
    exact ⟨_, hp⟩
  · rintro ⟨⟨r, hr, h⟩, _⟩
    have hr' : r = ⟨0x8004, 0x8008⟩ := List.mem_singleton.mp hr
    subst hr'
    exact absurd h.2 (by decide)

theorem witness_CanonicalMemoriesAreEqualData : Memory.wf [(5, 1), (9, 2)] = true ∧
    ∀ a, Memory.read [(5, 1), (9, 2)] a = Memory.read [(5, 1), (9, 2)] a := ⟨by decide, fun _ => rfl⟩

/-- A reset of an idle block with a reader bound. -/
theorem witness_ResetLeavesTheValuesOfTheSpec :
    { readerAt 3 with host := [.reset] }.host = .reset :: [] ∧ (readerAt 3).latch.valid = false ∧
    (readerAt 3).contested = [] := by decide

theorem witness_GetSizeReportsTheHeader : (openWith header100).session.header? = some header100 ∧
    (readerAt 0).session = .closed := by decide

theorem witness_GetPixelFormatReportsTheDescriptor : (openWith header100).session.header? = some header100 ∧
    (readerAt 0).session = .closed := by decide

/-- A range that passes the end of host memory, one that ends exactly there, and an empty one. -/
theorem witness_OpenFollowsParserAndRegistry :
    addrSpace < (issued State.reset .openSession [0xFFFFFFFF, 2]).u 0 + (issued State.reset .openSession [0xFFFFFFFF, 2]).u 1 ∧
    (issued State.reset .openSession [0xFFFFFFFE, 2]).u 0 + (issued State.reset .openSession [0xFFFFFFFE, 2]).u 1 ≤
      addrSpace ∧
    (issued State.reset .openSession [0x2000, 0]).u 1 = 0 := by decide

/-- The operands and source of program P3. -/
def openP3 : State := issued { State.reset with mem := [(0x1000, 0x57)] } .openSession [0x1000, 4]

theorem witness_OpenOfAnAcceptedSourceOpens : openP3.u 0 + openP3.u 1 ≤ addrSpace ∧
    parseContainer configP3 ((List.range (openP3.u 1)).map fun i => openP3.mem.read (openP3.u 0 + i)) = .ok parsed2 ∧
    (1 ≤ parsed2.width ∧ parsed2.width ≤ maxDim ∧ 1 ≤ parsed2.height ∧ parsed2.height ≤ maxDim) ∧
    (∀ e ∈ parsed2.extents, e.offset + e.length ≤ openP3.u 1) ∧
    (∃ e, parsed2.extents.head? = some e ∧ e.offset = parsed2.codedOffset.toNat) ∧
    registry configP3 parsed2.guid = some bgra :=
  ⟨by decide, by rfl, by decide, by decide, ⟨⟨0, 4⟩, rfl, rfl⟩, by decide⟩

/-- A header for each check of `Accept` that fails after those before it pass: no width, one too many rows, no extent, an
extent of five bytes in a source of four, a coded offset that is not the first extent's. -/
theorem witness_accept_checks :
    parsed2.width = 2 ∧ ¬ 1 ≤ { parsed2 with width := 0 }.width ∧
    ¬ { parsed2 with height := 2147483648 }.height ≤ 2147483647 ∧ { parsed2 with extents := [] }.extents = [] ∧
    (∃ e ∈ { parsed2 with extents := [⟨0, 5⟩] }.extents, ¬ e.offset + e.length ≤ openP3.u 1) ∧
    { parsed2 with codedOffset := 1 }.extents.head? = some ⟨0, 4⟩ ∧ { parsed2 with codedOffset := 1 }.codedOffset.toNat ≠ 0 ∧
    registry { configP3 with registryRow := fun _ => none } parsed2.guid = none ∧
    parseContainer configP3 [] = .error .unexpectedEnd ∧ parseContainer configP3 [0x56] = .error .invalidFormat ∧
    parseContainer { configP3 with extract := fun _ _ _ => .error .unsupportedFeature } [0x57] =
      .error .unsupportedFeature :=
  ⟨by decide, by decide, by decide, by decide, ⟨⟨0, 5⟩, List.mem_singleton.mpr rfl, by decide⟩, by decide, by decide,
    by decide, by rfl, by rfl, by rfl⟩

/-- Directories are the first two bytes, an entry points at two bytes from its value, and tag 1 alone is recognised. -/
def configDirs (entries : List DirEntry) : Config := { configP3 with
  directoryRanges := fun _ => [⟨0, 2⟩]
  readDirectory := fun _ => entries
  entryRange := fun e => some ⟨e.valueOrOffset, 2⟩
  knownTag := fun tag => tag == 1 }

/-- In a source of four bytes: a directory and an entry that pass the end by one byte; and directories with the same
recognised entry, one of them with an unrecognised entry too, whose ranges end exactly at the end of the source. -/
theorem witness_DirectoryEntriesAreReadGenerically :
    let b : List Byte := [0x57, 0, 0, 0]
    checkMagic (configDirs []) b = .present ∧
    (∃ r ∈ { configDirs [] with directoryRanges := fun _ => [⟨3, 2⟩] }.directoryRanges b, b.length < r.offset + r.length) ∧
    (∃ e ∈ (configDirs [⟨9, 1, 1, 3⟩]).readDirectory b, ∃ r, (configDirs [⟨9, 1, 1, 3⟩]).entryRange e = some r ∧
      b.length < r.offset + r.length) ∧
    (∀ e ∈ (configDirs [⟨1, 1, 1, 0⟩]).readDirectory b ++ [⟨9, 1, 1, 2⟩, ⟨1, 1, 1, 0⟩], ∀ r,
      (configDirs [⟨1, 1, 1, 0⟩]).entryRange e = some r → r.offset + r.length ≤ b.length) ∧
    [(⟨9, 1, 1, 2⟩ : DirEntry), ⟨1, 1, 1, 0⟩].filter (fun e => (configDirs []).knownTag e.tag) =
      ((configDirs [⟨1, 1, 1, 0⟩]).readDirectory b).filter fun e => (configDirs []).knownTag e.tag := by
  refine ⟨rfl, ⟨⟨3, 2⟩, List.mem_singleton.mpr rfl, by decide⟩,
    ⟨⟨9, 1, 1, 3⟩, List.mem_singleton.mpr rfl, ⟨3, 2⟩, rfl, by decide⟩, fun e he r hr => ?_, by decide⟩
  cases hr
  have he' : e = ⟨1, 1, 1, 0⟩ ∨ e = ⟨9, 1, 1, 2⟩ ∨ e = ⟨1, 1, 1, 0⟩ := by simpa [configDirs] using he
  rcases he' with rfl | rfl | rfl <;> decide

/-- OPEN with each of its two failures, COPY_REGION that fails, BR_BIND both ways, a command that keeps the session; the
reset input; and a host event. -/
theorem witness_SessionMovesOnlyByTheTable :
    (after (openWith header100) .openSession [0xFFFFFFFF, 2]).err = some .badAddress ∧
    (after (openWith header100) .openSession [0x2000, 0]).err = some .invalidFormat ∧
    (after (openWith header100) .copyRegion [0, 0, 0, 1]).err = some .invalidRegion ∧
    (after (openWith header100) .brBind [0x1000, 2]).err = none ∧
    (after (openWith header100) .brBind [0xFFFFFFFF, 2]).err = some .badAddress ∧
    exec .nop State.reset = .next (completed State.reset none) ∧
    step { openWith header100 with host := [.reset] } = .next { State.reset with mem := [(0x1000, 0x57)] } ∧
    step { openWith header100 with host := [.regWrite 0x04 [1, 0, 0, 0]] } = .next { openWith header100 with irqEn := true } :=
  ⟨by decide, by decide, by decide, by decide, by decide, rfl, rfl, rfl⟩

theorem witness_HeaderQueriesAreStable : (openWith header100).session.header? = some header100 ∧
    (runCommands [(.getSize, argsOf []), (.brReadBits, argsOf [4])] (openWith header100)).isSome = true := by decide

/-- The four checks of COPY_REGION before the overlap check, in order, as one list. -/
def checksOf (h : Header) (s : State) : List Bool :=
  [decide (1 ≤ s.sArg 2 ∧ 1 ≤ s.sArg 3 ∧ 0 ≤ s.sArg 0 ∧ 0 ≤ s.sArg 1 ∧
     s.sArg 0 + s.sArg 2 ≤ h.width ∧ s.sArg 1 + s.sArg 3 ≤ h.height),
   decide (h.fmt.bpp.toNat % 8 = 0),
   decide ((s.sArg 2).toNat * (h.fmt.bpp.toNat / 8) ≤ s.u 5 ∧ s.u 5 * (s.sArg 3).toNat ≤ s.u 6),
   decide (s.u 4 + s.u 6 ≤ addrSpace),
   decide (0 < s.u 6 ∧ 0 < s.rdr.len.toNat ∧ s.u 4 < s.rdr.base.toNat + s.rdr.len.toNat ∧
     s.rdr.base.toNat < s.u 4 + s.u 6)]

/-- COPY_REGION accepted on the image of section 2.5. -/
def copy100 (l : List Word) : State := issued (openWith header100) .copyRegion l

/-- A 9 by 9 image of one bit per pixel. -/
def bitHeader : Header := headerOf 9 9 ⟨1, .yOnly, .black1, 1, false, false, false⟩

/-- COPY_REGION accepted on that image. -/
def bitState : State := issued (openWith bitHeader) .copyRegion [0, 0, 9, 9, 0x10000, 2, 18]

/-- One state for each clause, at the edge of the check it fails: one pixel too wide, a bit per pixel, one byte too few,
an output range that passes the end of memory, and one that begins on the last byte of the source. -/
theorem witness_CopyRegionChecksInOrder : (readerAt 0).session = .closed ∧
    (openWith header100).session.header? = some header100 ∧
    checksOf header100 (copy100 [90, 0, 11, 1, 0x10000, 33, 33]) = [false, true, true, true, false] ∧
    bitState.session.header? = some bitHeader ∧ checksOf bitHeader bitState = [true, false, true, true, false] ∧
    checksOf header100 (copy100 [90, 0, 10, 1, 0x10000, 30, 29]) = [true, true, false, true, false] ∧
    checksOf header100 (copy100 [0, 0, 1, 1, 0xFFFFFFFE, 3, 3]) = [true, true, true, false, false] ∧
    checksOf header100 (copy100 [0, 0, 1, 1, 0x1003, 3, 3]) = [true, true, true, true, true] := by decide

theorem witness_CopyRegionCompletesWithTheOutcome : descriptorOk (headerOf 2 1 bgra).fmt = true ∧
    CopyReaches (headerOf 2 1 bgra) copyP3 := ⟨by decide, witness_copy_reaches⟩

theorem witness_ref_decode : ∃ img, refDecode configP3 copyP3.sourceBytes (headerOf 2 1 bgra) = .ok img :=
  ⟨_, rfl⟩

theorem witness_CopiedPixelsStandAtTheirAddresses : copyP3.mem.wf = true ∧ descriptorOk (headerOf 2 1 bgra).fmt = true ∧
    CopyReaches (headerOf 2 1 bgra) copyP3 ∧
    (∃ pix, regionOutcome configP3 copyP3.sourceBytes (headerOf 2 1 bgra) (copyRect copyP3) = .ok pix) ∧
    (1 < (copyP3.sArg 2).toNat ∧ 0 < (copyP3.sArg 3).toNat ∧ 3 < bytesPerPixel (headerOf 2 1 bgra).fmt) :=
  ⟨by decide, by decide, witness_copy_reaches, ⟨_, rfl⟩, by decide⟩

/-- COPY_REGION of the first pixel of an image two macroblocks wide. -/
def copyNarrow : State := issued (openWith (headerOf 32 1 bgra)) .copyRegion [0, 0, 1, 1, 0x8000, 4, 4]

/-- A failure at a macroblock the rectangle needs; one at a macroblock it does not need, with PartialDecode that fails
and with one that gives pixels. -/
theorem witness_FailedDecodeFollowsPartialDecode :
    (refDecode configFails copyP3.sourceBytes (headerOf 2 1 bgra) = .fail .corruptStream ⟨0, 0⟩ ∧
      needed (headerOf 2 1 bgra) (copyRect copyP3) ⟨0, 0⟩ = true) ∧
    CopyReaches (headerOf 32 1 bgra) copyNarrow ∧ copyNarrow.mem.wf = true ∧
    descriptorOk (headerOf 32 1 bgra).fmt = true ∧
    refDecode { configFailsLater with partialDecode := fun _ _ _ => none } copyNarrow.sourceBytes (headerOf 32 1 bgra) =
      .fail .corruptStream ⟨1, 0⟩ ∧
    refDecode { configFailsLater with partialDecode := fun _ _ _ => some imageP3 } copyNarrow.sourceBytes
      (headerOf 32 1 bgra) = .fail .corruptStream ⟨1, 0⟩ ∧
    needed (headerOf 32 1 bgra) (copyRect copyNarrow) ⟨1, 0⟩ = false :=
  ⟨⟨rfl, by decide⟩, ⟨rfl, by decide, by decide, by decide, by decide, by decide, by decide⟩, by decide, by decide, rfl,
    rfl, by decide⟩

theorem witness_CopyRegionWritesRowSpansAlone : (∃ t, exec .copyRegion copyP3 = .next t) ∧
    (∀ h, copyP3.session.header? = some h → descriptorOk h.fmt = true) ∧
    ∀ h, copyP3.session.header? = some h → ¬ CopySpan h copyP3 0x8008 := by
  refine ⟨?_, ?_, ?_⟩
  · obtain ⟨p, hp, _⟩ := exec_effect .copyRegion copyP3
    exact ⟨_, hp⟩
  · intro h hh
    cases hh
    decide
  · intro h hh
    cases hh
    exact witness_not_in_span

/-- The right half of the image, alone, to 0x9004 (program P5). -/
def copyP5 : State := issued (openWith (headerOf 2 1 bgra)) .copyRegion [1, 0, 1, 1, 0x9004, 4, 4]

theorem witness_CopiesOfOneImageStitch :
    (∃ img, refDecode configP3 copyP3.sourceBytes (headerOf 2 1 bgra) = .ok img) ∧
    descriptorOk (headerOf 2 1 bgra).fmt = true ∧ copyP3.mem.wf = true ∧ copyP5.mem.wf = true ∧
    copyP5.sourceBytes = copyP3.sourceBytes ∧ CopyReaches (headerOf 2 1 bgra) copyP3 ∧
    CopyReaches (headerOf 2 1 bgra) copyP5 ∧
    ((copyRect copyP3).x + 1 = 1 ∧ (copyRect copyP5).x + 0 = 1 ∧ 1 < (copyRect copyP3).w ∧ 0 < (copyRect copyP5).w) :=
  ⟨witness_ref_decode, by decide, by decide, by decide, rfl, witness_copy_reaches,
    ⟨rfl, by decide, by decide, by decide, by decide, by decide, by decide⟩, by decide⟩

/-- The same command from a state with other registers. -/
theorem witness_CopyRegionIsIdempotent : copyP3.session.header? = some (headerOf 2 1 bgra) ∧
    { copyP3 with res := argsOf [9] }.session.header? = some (headerOf 2 1 bgra) ∧
    copyP3.latch.args = { copyP3 with res := argsOf [9] }.latch.args ∧ copyP3.mem.wf = true ∧
    copyP3.sourceBytes = { copyP3 with res := argsOf [9] }.sourceBytes ∧
    descriptorOk (headerOf 2 1 bgra).fmt = true := by decide

theorem witness_OnlyCopyRegionWritesMemory : Instr.brTell ≠ .copyRegion ∧ ∃ t, exec .brTell (readerAt 3) = .next t :=
  ⟨by decide, _, rfl⟩

theorem witness_InterruptFollowsCompletion : exec .nop State.reset = .next (completed State.reset none) ∧
    State.reset.latch.valid = false ∧ (0xA : Word).getLsbD 1 = true ∧ (0xFFFFFFFE : Word).getLsbD 0 = false ∧
    step { status30E with host := [.reset] } = .next State.reset := ⟨rfl, rfl, by decide, by decide, rfl⟩

/-- Memories that differ at 0x2000 only: the source bound is the two bytes from 0x1000, and OPEN binds the four bytes from
0x1000. -/
theorem witness_CommandsReadTheSourceAlone :
    (Memory.wf [(0x1000, 0xA5), (0x1001, 0x3C), (0x2000, 1)] = true ∧ (readerAt 0).mem.wf = true ∧
      ∀ h, (readerAt 0).session.header? = some h → descriptorOk h.fmt = true) ∧
    (Memory.wf [(0x1000, 0x57), (0x2000, 1)] = true ∧ openP3.mem.wf = true ∧ openP3.session = .closed) ∧
    (∀ a, (readerAt 0).rdr.base.toNat ≤ a → a < (readerAt 0).rdr.base.toNat + (readerAt 0).rdr.len.toNat →
      Memory.read [(0x1000, 0xA5), (0x1001, 0x3C), (0x2000, 1)] a = (readerAt 0).mem.read a) ∧
    (∀ a, openP3.u 0 ≤ a → a < openP3.u 0 + openP3.u 1 →
      Memory.read [(0x1000, 0x57), (0x2000, 1)] a = openP3.mem.read a) := by
  refine ⟨⟨by decide, by decide, fun h hh => by cases hh⟩, ⟨by decide, by decide, rfl⟩, fun a h1 h2 => ?_, fun a h1 h2 => ?_⟩
  · have h1' : 0x1000 ≤ a := h1
    have h2' : a < 0x1000 + 2 := h2
    obtain rfl | rfl : a = 0x1000 ∨ a = 0x1001 := by omega
    · rfl
    · rfl
  · have h1' : 0x1000 ≤ a := h1
    have h2' : a < 0x1000 + 4 := h2
    obtain rfl | rfl | rfl | rfl : a = 0x1000 ∨ a = 0x1001 ∨ a = 0x1002 ∨ a = 0x1003 := by omega
    · rfl
    · rfl
    · rfl
    · rfl

/-- A table with a bad row behind a good one, and a good table at a GUID that is not the fixed row's. -/
theorem witness_IllFormedRegistriesAreRefused :
    (∃ r ∈ [(Vector.replicate 16 (0 : Byte), bgra), (Vector.replicate 16 1, { bgra with channels := 0 })],
      descriptorOk r.2 = false) ∧
    (∀ r ∈ [(Vector.replicate 16 (0 : Byte), bgra), (Vector.replicate 16 1, rgb24)], descriptorOk r.2 = true) ∧
    (Vector.replicate 16 0 : Guid) ≠ configP3.scenarioGuid := by decide

/-- A format in the registry, and one that is not. -/
theorem witness_LookupReportsTheRegistry : registry configP3 (Vector.replicate 16 0) = some bgra ∧
    registry { configP3 with registryRow := fun _ => none } (Vector.replicate 16 0) = none := by decide

theorem witness_RegistryDescriptorsKeepTheirLaws : registry configP3 (Vector.replicate 16 0) = some bgra ∧
    registry configP3 (Vector.replicate 16 0xFF) = some (scenarioDescriptor configP3) := by decide

theorem witness_GuidOperandIsThePackedGuid : ∀ k : Fin 4,
    (issued State.reset .lookupPixelFormat [0x03020100, 0x07060504, 0x0B0A0908, 0x0F0E0D0C]).latch.args[k.val]'(by omega) =
      (#v[0x00, 0x01, 0x02, 0x03, 0x04, 0x05, 0x06, 0x07, 0x08, 0x09, 0x0A, 0x0B, 0x0C, 0x0D, 0x0E, 0x0F] : Guid)[4 * k.val + 3]'(by omega) ++
      (#v[0x00, 0x01, 0x02, 0x03, 0x04, 0x05, 0x06, 0x07, 0x08, 0x09, 0x0A, 0x0B, 0x0C, 0x0D, 0x0E, 0x0F] : Guid)[4 * k.val + 2]'(by omega) ++
      (#v[0x00, 0x01, 0x02, 0x03, 0x04, 0x05, 0x06, 0x07, 0x08, 0x09, 0x0A, 0x0B, 0x0C, 0x0D, 0x0E, 0x0F] : Guid)[4 * k.val + 1]'(by omega) ++
      (#v[0x00, 0x01, 0x02, 0x03, 0x04, 0x05, 0x06, 0x07, 0x08, 0x09, 0x0A, 0x0B, 0x0C, 0x0D, 0x0E, 0x0F] : Guid)[4 * k.val]'(by omega) := by
  decide

theorem witness_BrBindBindsTheRange :
    (issued State.reset .brBind [0xFFFFFFFE, 2]).u 0 + (issued State.reset .brBind [0xFFFFFFFE, 2]).u 1 ≤ addrSpace ∧
    addrSpace < (issued State.reset .brBind [0xFFFFFFFF, 2]).u 0 + (issued State.reset .brBind [0xFFFFFFFF, 2]).u 1 := by
  decide

/-- BR_READ_BITS of `n` bits, accepted, with the cursor at `p`. -/
def readIssued (p : Nat) (n : Word) : State := issued (readerAt p) .brReadBits [n]

/-- No source; 33 bits; 17 bits of 16; every bit of the source in one read; and no bit at its end. -/
theorem witness_BrReadBitsReturnsTheNextBits : State.reset.rdr.bound = false ∧
    ((readIssued 0 33).rdr.bound = true ∧ 32 < (readIssued 0 33).u 0) ∧
    ((readIssued 0 17).rdr.bound = true ∧ (readIssued 0 17).u 0 ≤ 32 ∧
      8 * (readIssued 0 17).rdr.len.toNat < (readIssued 0 17).rdr.bitpos.toNat + (readIssued 0 17).u 0) ∧
    ((readIssued 0 16).rdr.bound = true ∧ (readIssued 0 16).u 0 ≤ 32 ∧
      (readIssued 0 16).rdr.bitpos.toNat + (readIssued 0 16).u 0 ≤ 8 * (readIssued 0 16).rdr.len.toNat) ∧
    ((readIssued 16 0).rdr.bound = true ∧ (readIssued 16 0).u 0 ≤ 32 ∧
      (readIssued 16 0).rdr.bitpos.toNat + (readIssued 16 0).u 0 ≤ 8 * (readIssued 16 0).rdr.len.toNat) := by decide

theorem witness_BrAlignDiscardsThePartialByte : State.reset.rdr.bound = false ∧
    ((readerAt 15).rdr.bound = true ∧ (readerAt 15).rdr.bitpos.toNat ≤ 8 * (readerAt 15).rdr.len.toNat) ∧
    ((readerAt 16).rdr.bound = true ∧ (readerAt 16).rdr.bitpos.toNat ≤ 8 * (readerAt 16).rdr.len.toNat) := by decide

theorem witness_BrSeekMovesWithinTheSource : State.reset.rdr.bound = false ∧
    ((issued (readerAt 0) .brSeek [2]).rdr.bound = true ∧
      (issued (readerAt 0) .brSeek [2]).u 0 ≤ (issued (readerAt 0) .brSeek [2]).rdr.len.toNat) ∧
    ((issued (readerAt 0) .brSeek [3]).rdr.bound = true ∧
      (issued (readerAt 0) .brSeek [3]).rdr.len.toNat < (issued (readerAt 0) .brSeek [3]).u 0) := by decide

theorem witness_BrTellReportsTheCursor : State.reset.rdr.bound = false ∧ (readerAt 12).rdr.bound = true := by decide

/-- A codeword that ends at the limit, one that the limit cuts off, and none. -/
theorem witness_ReadVlcFollowsThePrefixCode :
    (([true, false], 66) ∈ code3.val ∧ 0 + 2 ≤ 2 ∧
      ∀ j, j < 2 → [true, false][j]? = some (streamBit (fun _ => 0xB0) (0 + j))) ∧
    ((∀ e ∈ code3.val, 0 + e.1.length ≤ 1 → ¬ ∀ j, j < e.1.length → e.1[j]? = some (streamBit (fun _ => 0xB0) (0 + j))) ∧
      ∃ e ∈ code3.val, 1 < 0 + e.1.length ∧ ∀ j, j < 1 - 0 → e.1[j]? = some (streamBit (fun _ => 0xB0) (0 + j))) ∧
    ∀ e ∈ [([false, false], 65), ([false, true], 66)], ¬ ∀ j, j < e.1.length →
      e.1[j]? = some (streamBit (fun _ => 0xB0) (0 + j)) := by decide

theorem witness_DecodeNeverRunsOffTheSource : ∀ e ∈ header100.extents, e.offset + e.length ≤ [0, 0, 0, 0].length := by
  decide

theorem witness_FailingMacroblockIsOfTheImage :
    refDecode configFails copyP3.sourceBytes (headerOf 2 1 bgra) = .fail .corruptStream ⟨0, 0⟩ ∧
    refDecode configFailsLater copyP3.sourceBytes (headerOf 32 1 bgra) = .fail .corruptStream ⟨1, 0⟩ ∧
    refDecode { configP3 with tileStart := fun _ _ _ => .indexTable 4 } copyP3.sourceBytes (headerOf 32 1 bgra) =
      .fail .corruptStream ⟨0, 0⟩ := ⟨rfl, rfl, rfl⟩

/-- The 100 by 50 image cut into four tiles, at column 4 and row 2. -/
def headerTiles : Header := { header100 with tiles := ⟨[4], [2]⟩ }

/-- A tile and one to its right; a tile and one below; two macroblocks of one tile. -/
theorem witness_DecodeOrderListsEveryMacroblockOnce :
    (⟨0, 4, 0, 2⟩ : Tile) ∈ tiles headerTiles ∧ (⟨4, 7, 0, 2⟩ : Tile) ∈ tiles headerTiles ∧
    (⟨0, 4, 2, 4⟩ : Tile) ∈ tiles headerTiles ∧ (⟨3, 1⟩ : MB) ∈ tileMBs ⟨0, 4, 0, 2⟩ ∧
    (⟨4, 0⟩ : MB) ∈ tileMBs ⟨4, 7, 0, 2⟩ ∧ (⟨0, 2⟩ : MB) ∈ tileMBs ⟨0, 4, 2, 4⟩ ∧
    (⟨0, 0⟩ : MB) ∈ tileMBs ⟨0, 4, 0, 2⟩ := by decide

/-- The four pixels where the image's first macroblocks meet: a macroblock of the first row is needed, one after the last
covered one is not. -/
theorem witness_CoveredMacroblocksAreNeeded : 15 + 2 ≤ header100.width ∧ 15 + 2 ≤ header100.height ∧
    needed header100 ⟨15, 15, 2, 2⟩ ⟨6, 0⟩ = true ∧ needed header100 ⟨15, 15, 2, 2⟩ ⟨2, 1⟩ = false := by decide

theorem witness_AlignedPixelIsLittleEndianAndPadded : descriptorOk { rgb24 with bpp := 32 } = true ∧
    [1, 2, 3].length = { rgb24 with bpp := 32 }.channels.toNat ∧ { rgb24 with bpp := 32 }.depth = .bd8 ∧
    { rgb24 with bpp := 32 }.channels.toNat * 1 ≤ 3 ∧ 3 < { rgb24 with bpp := 32 }.bpp.toNat / 8 ∧
    descriptorOk ⟨1, .yOnly, .bd16S, 16, false, false, false⟩ = true ∧
    descriptorOk ⟨4, .rgb, .bd32F, 128, true, false, false⟩ = true := by decide

theorem witness_PackedPixelStartsAtTheLowestBits : descriptorOk ⟨3, .rgb, .bd565, 16, false, false, true⟩ = true ∧
    memoryOrder ⟨3, .rgb, .bd565, 16, false, false, true⟩ [31, 63, 30] = [30, 63, 31] ∧
    (30 < 2 ^ 5 ∧ 63 < 2 ^ 6 ∧ 31 < 2 ^ 5) ∧ descriptorOk ⟨3, .rgb, .bd5, 16, false, false, false⟩ = true ∧
    descriptorOk ⟨3, .rgb, .bd10, 32, false, false, false⟩ = true ∧
    descriptorOk ⟨3, .rgb, .bd565, 16, true, false, true⟩ = true ∧
    memoryOrder ⟨3, .rgb, .bd565, 16, true, false, true⟩ [31, 63, 30] = [63, 31, 30] := by decide

theorem witness_ReversedFormatsKeepAlphaLast : rgb24.channelOrderReversed = false ∧ bgra.channelOrderReversed = true ∧
    bgra.hasAlpha = true ∧ [1, 2, 3].length + 1 = bgra.channels.toNat ∧
    [1, 2, 3].length = { rgb24 with channelOrderReversed := true }.channels.toNat := by decide

end Sys2Proof.Tests
end

section
/-! SUPPORT. The stored header and the bytes it was parsed from (10_state.md R44, 20_memory.md R94, R97): which steps
leave the bound source alone, and that the others close the session or open a new one. -/

namespace Sys2Proof.Machine

/-- `t` has the session's header and the source binding of `s`, and memory reads alike on the bound source. -/
structure SourceKept (s t : State) : Prop where
  header : t.session.header? = s.session.header?
  bound : t.rdr.bound = s.rdr.bound
  base : t.rdr.base = s.rdr.base
  len : t.rdr.len = s.rdr.len
  bytes : ∀ a, s.isSourceByte a = true → t.mem.read a = s.mem.read a

theorem SourceKept.of_eq {s t : State} (hx : t.session = s.session) (hr : t.rdr = s.rdr) (hm : t.mem = s.mem) :
    SourceKept s t :=
  ⟨by rw [hx], by rw [hr], by rw [hr], by rw [hr], fun _ _ => by rw [hm]⟩

/-- The cursor is no part of the binding (10_state.md R43). -/
theorem SourceKept.of_cursor {s t : State} {p : BitVec 35} (hx : t.session = s.session)
    (hr : t.rdr = { s.rdr with bitpos := p }) (hm : t.mem = s.mem) : SourceKept s t :=
  ⟨by rw [hx], by rw [hr], by rw [hr], by rw [hr], fun _ _ => by rw [hm]⟩

theorem SourceKept.isSourceByte {s t : State} (h : SourceKept s t) (a : Nat) : t.isSourceByte a = s.isSourceByte a := by
  simp only [State.isSourceByte, h.bound, h.base, h.len]

theorem SourceKept.trans {s t u : State} (h : SourceKept s t) (h' : SourceKept t u) : SourceKept s u where
  header := h'.header.trans h.header
  bound := h'.bound.trans h.bound
  base := h'.base.trans h.base
  len := h'.len.trans h.len
  bytes a ha := (h'.bytes a (by rw [h.isSourceByte, ha])).trans (h.bytes a ha)

/-- A kept source that is bound gives the parser the same bytes (41_container_header_parser.md R170). -/
theorem SourceKept.sourceBytes {s t : State} (h : SourceKept s t) (hb : s.rdr.bound = true) :
    t.sourceBytes = s.sourceBytes := by
  unfold State.sourceBytes
  rw [h.len]
  refine List.map_congr_left fun i hi => ?_
  have hi := List.mem_range.mp hi
  unfold State.srcByte
  rw [h.base]
  exact h.bytes _ ((isSourceByte_iff s _).mpr ⟨hb, by omega, by omega⟩)

/-- The invariant of 10_state.md R44 with R323 (1): an open session's source is bound, and its header is what the
parser and the registry give for the source's bytes. -/
def BoundHeader (s : State) : Prop :=
  ∀ h, s.session.header? = some h → s.rdr.bound = true ∧
    accept Config.chip s.sourceBytes = .ok h.toParsed ∧ registry Config.chip h.guid = some h.fmt

theorem boundHeader_of_closed {s : State} (hc : s.session = .closed) : BoundHeader s := by
  intro h hh
  rw [hc] at hh
  cases hh

theorem BoundHeader.keep {s t : State} (hs : BoundHeader s) (hk : SourceKept s t) : BoundHeader t := by
  intro h hh
  obtain ⟨hb, ha, hr⟩ := hs h (hk.header ▸ hh)
  exact ⟨hk.bound.trans hb, by rw [hk.sourceBytes hb, ha], hr⟩

/-- An open session's format is lawful, as every row of the registry is (42_pixel_format_registry.md R206). -/
theorem BoundHeader.descriptorOk {s : State} (hs : BoundHeader s) {h : Header} (hh : s.session.header? = some h) :
    descriptorOk h.fmt = true :=
  registry_ok (hs h hh).2.2

/-! ## What leaves the source alone -/

/-- COPY_REGION's checks keep its row spans away from its source (47_session_commands.md R329). -/
theorem copySpan_not_source {h : Header} {s : State} (hr : CopyReaches h s) {a : Nat} (ha : CopySpan h s a) :
    s.isSourceByte a = false := by
  obtain ⟨r, k, hrow, hk, rfl⟩ := ha
  obtain ⟨_, _, _, hstride, hlen, _, hdisjoint⟩ := hr
  have := row_in_range hrow hk hstride
  rw [Bool.eq_false_iff, ne_eq, isSourceByte_iff]
  omega

/-- Writes to row spans, with the cursor set and a session of the same header, leave the source alone
(47_session_commands.md R329). -/
theorem SourceKept.of_spanWrites {s t : State} {h : Header} {cells : List Host.Cell} {p : BitVec 35}
    (hr : CopyReaches h s) (hc : ∀ x ∈ cells, CopySpan h s x.1) (hx : t.session.header? = some h)
    (hp : t.rdr = { s.rdr with bitpos := p }) (hm : t.mem = s.mem.writeAll cells) : SourceKept s t where
  header := hx.trans hr.1.symm
  bound := by rw [hp]
  base := by rw [hp]
  len := by rw [hp]
  bytes a ha := by
    rw [hm]
    refine Memory.read_writeAll_other fun x hxc he => ?_
    have hno := copySpan_not_source hr (hc x hxc)
    rw [he, ha] at hno
    cases hno

/-- A byte written outside the source leaves the source alone (20_memory.md R94). -/
theorem SourceKept.of_write {s t : State} {a : Nat} {v : Byte} (ha : s.isSourceByte a = false)
    (hx : t.session = s.session) (hr : t.rdr = s.rdr) (hm : t.mem = s.mem.write a v) : SourceKept s t where
  header := by rw [hx]
  bound := by rw [hr]
  base := by rw [hr]
  len := by rw [hr]
  bytes x hs := by
    rw [hm]
    refine Memory.read_write_other fun he => ?_
    rw [he, ha] at hs
    cases hs

/-- The races settled at a completion are about no source byte (20_memory.md R81, R96). -/
theorem SourceKept.drawContested (s : State) (c : Config) : SourceKept s (s.drawContested c) where
  header := rfl
  bound := rfl
  base := rfl
  len := rfl
  bytes a ha := drawContested_read s c fun ⟨_, hs⟩ => by
    rw [ha] at hs
    cases hs

/-- A register write reaches no session, reader or memory (10_state.md R30-R39). -/
theorem SourceKept.regWrite (s : State) (off : BitVec 8) (data : List Byte) : SourceKept s (s.regWrite off data) := by
  unfold State.regWrite
  split
  · rcases setRegWord_cases s off.toNat (BitVec.ofNat 32 (leNat data)) with h | h | h | h | ⟨x, h⟩ <;> rw [h]
    · exact .of_eq rfl rfl rfl
    · exact .of_eq rfl rfl rfl
    · unfold State.statusWrite
      split <;> exact .of_eq rfl rfl rfl
    · unfold State.onCmdWrite
      split <;> exact .of_eq rfl rfl rfl
    · exact .of_eq rfl rfl rfl
  · exact .of_eq rfl rfl rfl

/-! ## Commands, host events and steps -/

/-- A command keeps the invariant: it leaves the source alone, closes the session, or is an OPEN that stores the header
of the source it binds (47_session_commands.md R326, R329, R330, 40_bitstream_reader.md R150). -/
theorem BoundHeader.perform {i : Instr} {s : State} {p : Perform} (hs : BoundHeader s) (he : EffectOf i s p) :
    BoundHeader p.state := by
  cases i with
  | nop => cases he; exact hs
  | openSession =>
    rcases he with ⟨_, rfl⟩ | ⟨_, _, _, rfl⟩ | ⟨_, q, d, ha, hd, rfl⟩
    · exact hs
    · exact boundHeader_of_closed rfl
    · intro h hh
      cases hh
      exact ⟨rfl, ha, hd⟩
  | getSize =>
    rcases he with ⟨_, rfl⟩ | ⟨_, _, rfl⟩
    · exact hs
    · exact hs.keep (.of_eq rfl rfl rfl)
  | getPixelFormat =>
    rcases he with ⟨_, rfl⟩ | ⟨_, _, rfl⟩
    · exact hs
    · exact hs.keep (.of_eq rfl rfl rfl)
  | copyRegion =>
    rcases he with ⟨_, _, rfl⟩ | ⟨h, pix, hr, _, rfl⟩ | ⟨h, _, _, hr, _, rfl⟩
    · exact hs
    · exact hs.keep (.of_spanWrites hr (fun _ hx => regionCells_span (hs.descriptorOk hr.1) hr hx) rfl rfl rfl)
    · exact hs.keep (.of_spanWrites hr (fun _ hx => anyCells_span hx) hr.1 rfl rfl)
  | close => cases he; exact boundHeader_of_closed rfl
  | lookupPixelFormat =>
    rcases he with rfl | ⟨_, rfl⟩
    · exact hs
    · exact hs.keep (.of_eq rfl rfl rfl)
  | brBind =>
    rcases he with ⟨_, rfl⟩ | ⟨_, rfl⟩
    · exact hs
    · exact boundHeader_of_closed rfl
  | brReadBits =>
    rcases he with ⟨_, rfl⟩ | ⟨_, _, rfl⟩
    · exact hs
    · exact hs.keep (.of_cursor rfl rfl rfl)
  | brAlign =>
    rcases he with rfl | ⟨_, rfl⟩
    · exact hs
    · exact hs.keep (.of_cursor rfl rfl rfl)
  | brSeek =>
    rcases he with ⟨_, rfl⟩ | ⟨_, _, rfl⟩
    · exact hs
    · exact hs.keep (.of_cursor rfl rfl rfl)
  | brTell =>
    rcases he with rfl | ⟨_, rfl⟩
    · exact hs
    · exact hs.keep (.of_eq rfl rfl rfl)

theorem BoundHeader.blockStep {s t : State} (hs : BoundHeader s) (h : blockStep s = .next t) : BoundHeader t := by
  rcases blockStep_cases s with ⟨_, hb⟩ | ⟨_, i, _, hb⟩ | ⟨_, _, hb⟩ <;> rw [hb] at h
  · cases h
    exact hs
  · obtain ⟨p, he, hp⟩ := settleRace_exec i s
    rw [hp] at h
    cases h
    have hdone : SourceKept p.state (completed p.state p.err) := .of_eq rfl rfl rfl
    exact (hs.perform he).keep (hdone.trans (.drawContested _ _))
  · cases h
    exact hs.keep (.of_eq rfl rfl rfl)

/-- A host that keeps its duties leaves the source alone, and reset closes the session (20_memory.md R94, R96,
70_reset_and_hazards.md R391). -/
theorem BoundHeader.hostStep {e : HostEvent} {s t : State} (hs : BoundHeader s)
    (h : hostStep Config.chip e s = .next t) : BoundHeader t := by
  cases e with
  | regWrite off data => cases h; exact hs.keep (.regWrite s off data)
  | regRead off n => cases h; exact hs.keep (.of_eq rfl rfl rfl)
  | memWrite a b =>
    rcases hostMemWrite_cases s a b with ⟨_, hw⟩ | ⟨hd, hw⟩ <;> cases hw.symm.trans h
    exact hs.keep (.of_write (Bool.or_eq_false_iff.mp hd).1 rfl rfl rfl)
  | memRead a =>
    cases h
    unfold hostMemRead
    split <;> exact hs.keep (.of_eq rfl rfl rfl)
  | otherCopy base len =>
    cases h
    rcases otherCopy_cases s base len with ⟨_, ho⟩ | ⟨_, ho⟩ <;> rw [ho]
    · exact hs.keep (.of_eq rfl rfl rfl)
    · exact hs
  | otherWrite a b =>
    rcases otherWrite_cases Config.chip s a b with ⟨_, ho⟩ | ⟨ha, ⟨_, ho⟩ | ⟨_, ho⟩⟩ <;> cases ho.symm.trans h
    · exact hs.keep (.of_write ha rfl rfl rfl)
    · exact hs.keep (.of_write ha rfl rfl rfl)
  | reset => cases h; exact boundHeader_of_closed rfl
  | blockTurn => cases h; exact hs
  | wait => cases h; exact hs.keep (.of_eq rfl rfl rfl)
  | moveReg src dst =>
    cases h
    have hread : SourceKept (s.regWrite dst (s.regRead src 4))
      { s.regWrite dst (s.regRead src 4) with busData := s.regRead src 4 } := .of_eq rfl rfl rfl
    exact hs.keep ((SourceKept.regWrite s dst _).trans hread)
  | skipOnError n => cases h; exact hs.keep (.of_eq rfl rfl rfl)

theorem BoundHeader.step {s t : State} (hs : BoundHeader s) (h : step s = .next t) : BoundHeader t := by
  have hqueue (es : List HostEvent) : BoundHeader { s with host := es } := hs.keep (.of_eq rfl rfl rfl)
  rcases step_cases s with ⟨es, _, hstep⟩ | ⟨e, es, _, hstep⟩ <;> rw [hstep] at h
  · exact (hqueue es).blockStep h
  · exact (hqueue es).hostStep h

/-- Settles O9: no step of a state whose open session has its source bound writes a byte of that source without closing
the session or storing a new header. -/
theorem storedHeaderStaysThatOfTheSource : Obligations.StoredHeaderStaysThatOfTheSource := by
  intro s t ⟨_, _, _, _, hopen⟩ hs hstep h hh
  have hbound : BoundHeader s := fun h hh => ⟨(hopen h hh).1, hs h hh⟩
  exact (hbound.step hstep h hh).2

end Sys2Proof.Machine
end

section
/-! SUPPORT. What every command leaves of the state: the host's side always, and RES when it fails
(10_state.md R37, R38, R49, 60_exceptions.md R366). -/

namespace Sys2Proof.Machine

/-- A pseudocode reaches RES, the session, the reader, host memory and the draws alone, and RES only if it raises no
error. -/
def WritesOwnSide (s : State) (p : Perform) : Prop :=
  ∃ res session rdr mem draws,
    p.state = { s with res := res, session := session, rdr := rdr, mem := mem, draws := draws } ∧
    (p.err ≠ none → res = s.res)

theorem WritesOwnSide.complete (s : State) (res : Vector Word 8) (session : Session) (rdr : Reader) (mem : Memory)
    (draws : Nat) : WritesOwnSide s
      (complete { s with res := res, session := session, rdr := rdr, mem := mem, draws := draws }) :=
  ⟨res, session, rdr, mem, draws, rfl, fun h => absurd rfl h⟩

theorem WritesOwnSide.raise (e : Error) (s : State) (session : Session) (rdr : Reader) (mem : Memory) (draws : Nat) :
    WritesOwnSide s (raise e { s with session := session, rdr := rdr, mem := mem, draws := draws }) :=
  ⟨s.res, session, rdr, mem, draws, rfl, fun _ => rfl⟩

theorem effect_writesOwnSide {i : Instr} {s : State} {p : Perform} (he : EffectOf i s p) : WritesOwnSide s p := by
  cases i with
  | nop => cases he; exact .complete s ..
  | openSession =>
    rcases he with ⟨_, rfl⟩ | ⟨_, e, _, rfl⟩ | ⟨_, q, d, _, _, rfl⟩
    · exact .raise _ s ..
    · exact .raise e s ..
    · exact .complete s ..
  | getSize =>
    rcases he with ⟨_, rfl⟩ | ⟨h, _, rfl⟩
    · exact .raise _ s ..
    · exact .complete s ..
  | getPixelFormat =>
    rcases he with ⟨_, rfl⟩ | ⟨h, _, rfl⟩
    · exact .raise _ s ..
    · exact .complete s ..
  | copyRegion =>
    rcases he with ⟨e, _, rfl⟩ | ⟨h, pix, _, _, rfl⟩ | ⟨h, e, m, _, _, rfl⟩
    · exact .raise e s ..
    · exact .complete s ..
    · exact .raise _ s ..
  | close => cases he; exact .complete s ..
  | lookupPixelFormat =>
    rcases he with rfl | ⟨d, rfl⟩
    · exact .raise _ s ..
    · exact .complete s ..
  | brBind =>
    rcases he with ⟨_, rfl⟩ | ⟨_, rfl⟩
    · exact .raise _ s ..
    · exact .complete s ..
  | brReadBits =>
    rcases he with ⟨e, rfl⟩ | ⟨_, _, rfl⟩
    · exact .raise e s ..
    · exact .complete s ..
  | brAlign =>
    rcases he with rfl | ⟨_, rfl⟩
    · exact .raise _ s ..
    · exact .complete s ..
  | brSeek =>
    rcases he with ⟨e, rfl⟩ | ⟨_, _, rfl⟩
    · exact .raise e s ..
    · exact .complete s ..
  | brTell =>
    rcases he with rfl | ⟨_, rfl⟩
    · exact .raise _ s ..
    · exact .complete s ..

/-- The completion of such a pseudocode keeps the host's side. -/
theorem WritesOwnSide.hostSideKept {s : State} {p : Perform} (h : WritesOwnSide s p) :
    HostSideKept s (completed p.state p.err) := by
  obtain ⟨res, session, rdr, mem, draws, hp, _⟩ := h
  rw [hp]
  exact ⟨rfl, rfl, rfl, rfl, rfl, rfl, rfl, rfl, rfl, rfl⟩

theorem WritesOwnSide.res_of_err {s : State} {p : Perform} (h : WritesOwnSide s p) (he : p.err ≠ none) :
    p.state.res = s.res := by
  obtain ⟨res, session, rdr, mem, draws, hp, hres⟩ := h
  rw [hp]
  exact hres he

/-- Settles O39: every command ends in the completion of a pseudocode that leaves the host's side alone, and RES too if
it raises an error. -/
theorem failedCommandsWriteNoResult : Obligations.FailedCommandsWriteNoResult := by
  intro s i
  obtain ⟨p, hexec, he⟩ := exec_effect i s
  have hown := effect_writesOwnSide he
  exact ⟨completed p.state p.err, hexec, rfl, rfl, hown.hostSideKept, hown.res_of_err⟩

end Sys2Proof.Machine
end

section
/-! SUPPORT. The register window as the host sees it (10_state.md R30-R39): the step of a register access, and each
register's read and write. -/

namespace Sys2Proof.Machine

/-! ## Register accesses as steps -/

theorem step_regWrite {s : State} {off : BitVec 8} {data : List Byte} {es : List HostEvent}
    (h : s.host = .regWrite off data :: es) : step s = .next ({ s with host := es }.regWrite off data) := by
  unfold step
  rw [h]
  rfl

theorem step_regRead {s : State} {off : BitVec 8} {n : Nat} {es : List HostEvent} (h : s.host = .regRead off n :: es) :
    step s = .next { s with host := es, busData := s.regRead off n } := by
  unfold step
  rw [h]
  rfl

/-- An aligned 32-bit host write is one register write (10_state.md R31). -/
theorem step_regWrite_word {s : State} {off : BitVec 8} {v : Word} {es : List HostEvent}
    (h : s.host = .regWrite off (wordBytes v) :: es) (ha : off.toNat % 4 = 0) :
    step s = .next ({ s with host := es }.setRegWord off.toNat v) := by
  rw [step_regWrite h, State.regWrite_word ha]

theorem windowAccess_iff (off : BitVec 8) (n : Nat) : windowAccess off n = true ↔ n = 4 ∧ off.toNat % 4 = 0 := by
  simp [windowAccess]

/-- A host write, by what the window accepts (10_state.md R31). -/
theorem State.regWrite_eq (s : State) (off : BitVec 8) (data : List Byte) : s.regWrite off data =
    if data.length = 4 ∧ off.toNat % 4 = 0 then s.setRegWord off.toNat (BitVec.ofNat 32 (leNat data)) else s := by
  simp only [State.regWrite, windowAccess_iff]

/-- A host read, by what the window accepts (10_state.md R31). -/
theorem State.regRead_eq (s : State) (off : BitVec 8) (n : Nat) : s.regRead off n =
    if n = 4 ∧ off.toNat % 4 = 0 then wordBytes (s.regWord off.toNat) else List.replicate n 0 := by
  simp only [State.regRead, windowAccess_iff, wordBytes]

/-! ## Registers -/

theorem State.statusWrite_eq (s : State) (v : Word) : s.statusWrite v =
    { s with done := s.done && !v.getLsbD 1, overrun := s.overrun && !v.getLsbD 3 } := by
  unfold State.statusWrite
  cases v.getLsbD 1 with
  | false => simp
  | true => simp [State.acknowledge]

theorem State.setRegWord_arg (s : State) (i : Fin 8) (v : Word) :
    s.setRegWord (0x10 + 4 * i.val) v = { s with args := s.args.set i v } := by
  fin_cases i <;> rfl

theorem State.regWord_arg (s : State) (i : Fin 8) : s.regWord (0x10 + 4 * i.val) = s.args[i] := by
  fin_cases i <;> rfl

theorem State.regWord_res (s : State) (i : Fin 8) : s.regWord (0x30 + 4 * i.val) = s.res[i] := by
  fin_cases i <;> rfl

theorem State.regWord_reserved (s : State) {off : Nat} (h : 0x50 ≤ off) : s.regWord off = 0 := by
  unfold State.regWord
  rw [if_neg (by omega), if_neg (by omega), if_neg (by omega), if_neg (by omega), dif_neg (by omega),
    dif_neg (by omega)]

/-- ID, RES and the reserved offsets take no write (10_state.md R32, R38, R39). -/
theorem State.setRegWord_readOnly (s : State) {off : Nat} (v : Word) (h : off = 0x00 ∨ 0x30 ≤ off) :
    s.setRegWord off v = s := by
  unfold State.setRegWord
  rw [if_neg (by omega), if_neg (by omega), if_neg (by omega), dif_neg (by omega)]

/-! ## Fields of the STATUS word -/

theorem errCode_ne_zero (e : Option Error) : (errCode e != 0) = decide (e ≠ none) := by
  cases e with
  | none => rfl
  | some e => cases e <;> rfl

/-- A field of the STATUS word, bit by bit (10_state.md R34). -/
theorem State.statusWord_field {s : State} {start len : Nat} {x : BitVec len}
    (h : ∀ i < len, s.statusWord.getLsbD (start + i) = x.getLsbD i) : s.statusWord.extractLsb' start len = x := by
  apply BitVec.eq_of_getLsbD_eq
  intro i hi
  rw [BitVec.getLsbD_extractLsb', h i hi, decide_eq_true hi, Bool.true_and]

/-- The fields of more than one bit (10_state.md R34): ERR_CODE, SESSION, and the reserved ones, which are 0. -/
theorem State.statusWord_fields (s : State) :
    s.statusWord.extractLsb' 4 4 = 0 ∧ s.statusWord.extractLsb' 8 4 = errCode s.err ∧
    s.statusWord.extractLsb' 12 4 = 0 ∧ s.statusWord.extractLsb' 16 2 = s.session.code ∧
    s.statusWord.extractLsb' 18 2 = 0 ∧ s.statusWord.extractLsb' 21 11 = 0 := by
  refine ⟨?_, ?_, ?_, ?_, ?_, ?_⟩ <;> refine State.statusWord_field fun i hi => ?_ <;>
    rw [State.statusWord_getLsbD] <;> interval_cases i <;> rfl

/-- Settles O13: the fields are read off the bits of the STATUS word one after another. -/
theorem statusWordHasTheFieldsOfTheSpec : Obligations.StatusWordHasTheFieldsOfTheSpec := by
  constructor
  · intro s
    obtain ⟨h4, herr, h12, hsession, h18, h21⟩ := s.statusWord_fields
    refine ⟨?_, ?_, ?_, ?_, h4, ?_, h12, ?_, h18, ?_, h21⟩
    · exact s.statusWord_getLsbD 0
    · exact s.statusWord_getLsbD 1
    · exact (s.statusWord_getLsbD 2).trans (errCode_ne_zero s.err)
    · exact s.statusWord_getLsbD 3
    · rw [herr]
      cases s.err with
      | none => rfl
      | some e => cases e <;> rfl
    · rw [hsession]
      cases s.session <;> rfl
    · exact s.statusWord_getLsbD 20
  · intro s es h
    rw [step_regRead h, State.regRead_eq]
    rfl

/-- Settles O16: an access the window accepts carries the register's bytes, and any other one carries nothing. -/
theorem windowTakesAlignedWordsOnly : Obligations.WindowTakesAlignedWordsOnly := by
  refine ⟨?_, ?_, ?_⟩
  · intro s off b0 b1 b2 b3 es h ha
    rw [step_regWrite h, State.regWrite_eq, if_pos ⟨rfl, ha⟩, ofNat_leNat_four]
  · intro s off data es h hd
    rw [step_regWrite h, State.regWrite_other hd]
  · intro s off n es h
    rw [step_regRead h, State.regRead_eq, wordBytes_eq]

/-- Settles O14: bit 1 of the value written masks DONE, bit 3 masks OVERRUN. -/
theorem statusWriteClearsDoneAndOverrunAlone : Obligations.StatusWriteClearsDoneAndOverrunAlone := by
  intro s v es h
  rw [step_regWrite_word h rfl]
  exact congrArg _ (State.statusWrite_eq _ v)

/-- Settles O15: a CTRL write stores bit 0, and the CTRL word shows that bit alone. -/
theorem ctrlHoldsTheInterruptEnableAlone : Obligations.CtrlHoldsTheInterruptEnableAlone := by
  refine ⟨?_, ?_, ?_, rfl⟩
  · intro s v es h
    rw [step_regWrite_word h rfl]
    rfl
  · exact State.ctrlWord_getLsbD
  · intro s h
    rw [State.irq, h, Bool.false_and]

/-- Settles O17: the offset `0x10 + 4 i` is aligned and is ARG `i`'s. -/
theorem argWriteChangesOneRegister : Obligations.ArgWriteChangesOneRegister := by
  refine ⟨?_, State.regWord_arg⟩
  intro s i v es h
  have hoff : (BitVec.ofNat 8 (0x10 + 4 * i.val)).toNat = 0x10 + 4 * i.val := by
    rw [BitVec.toNat_ofNat]
    omega
  rw [step_regWrite_word h (by omega), hoff, State.setRegWord_arg]

/-- Settles O18: whether the window accepts the access or not, a write at such an offset reaches no register. -/
theorem readOnlyOffsetsIgnoreWrites : Obligations.ReadOnlyOffsetsIgnoreWrites := by
  refine ⟨?_, fun _ => rfl, fun s _ h _ => s.regWord_reserved h, State.regWord_res⟩
  intro s off data es h hoff
  have hoff : off.toNat = 0x00 ∨ 0x30 ≤ off.toNat := hoff.imp_left (by rintro rfl; rfl)
  rw [step_regWrite h, State.regWrite_eq, State.setRegWord_readOnly _ _ hoff, ite_self]

end Sys2Proof.Machine
end

section
/-! SUPPORT. Host memory's canonical form as data (20_memory.md R80), and the frame of the commands that write none of
it (R82). -/

namespace Sys2Proof.Machine

/-! ## The canonical form -/

@[simp] theorem Memory.read_cons_self (k : Nat) (b : Byte) (m : Memory) : Memory.read ((k, b) :: m) k = b := by
  simp [Memory.read]

/-- A canonical memory that lists an address does not begin above it. -/
theorem Memory.not_wfFrom_succ {m : Memory} {a : Nat} (h : m.read a ≠ unlistedByte) : Memory.wfFrom (a + 1) m ≠ true :=
  fun hm => h (Memory.read_below hm (Nat.lt_succ_self a))

/-- What the entries after the first one read as: unlisted at the first address, and elsewhere as the whole does. -/
theorem Memory.read_tail {k : Nat} {b : Byte} {m : Memory} (hm : Memory.wfFrom (k + 1) m = true) (a : Nat) :
    m.read a = if k = a then unlistedByte else Memory.read ((k, b) :: m) a := by
  by_cases h : k = a
  · rw [if_pos h, Memory.read_below hm (by omega)]
  · rw [if_neg h, Memory.read, if_neg h]

/-- Of canonical memories that read alike, none begins above the other: the other's first byte would be missing. -/
theorem Memory.head_le_of_read {lo k k' : Nat} {b b' : Byte} {m m' : Memory}
    (hm : Memory.wfFrom lo ((k, b) :: m) = true) (hm' : Memory.wfFrom lo ((k', b') :: m') = true)
    (hr : ∀ a, Memory.read ((k, b) :: m) a = Memory.read ((k', b') :: m') a) : k' ≤ k := by
  obtain ⟨_, _, hb, _⟩ := Memory.wfFrom_cons.mp hm
  obtain ⟨_, htail'⟩ := Memory.wfFrom_cons.mp hm'
  have hk : Memory.read ((k', b') :: m') k ≠ unlistedByte := by rwa [← hr k, Memory.read_cons_self]
  by_contra hlt
  exact Memory.not_wfFrom_succ hk (Memory.wfFrom_cons.mpr ⟨by omega, htail'⟩)

/-- Canonical memories that read alike are equal, entry by entry from the lowest address up. -/
theorem Memory.eq_of_read {lo : Nat} {m m' : Memory} (hm : Memory.wfFrom lo m = true)
    (hm' : Memory.wfFrom lo m' = true) (hr : ∀ a, m.read a = m'.read a) : m = m' := by
  induction m generalizing lo m' with
  | nil =>
    cases m' with
    | nil => rfl
    | cons c' m' =>
      obtain ⟨_, _, hb', _⟩ := Memory.wfFrom_cons.mp hm'
      exact absurd ((hr c'.1).trans (Memory.read_cons_self ..)).symm hb'
  | cons c m ih =>
    obtain ⟨k, b⟩ := c
    obtain ⟨_, _, hb, htail⟩ := Memory.wfFrom_cons.mp hm
    cases m' with
    | nil => exact absurd ((Memory.read_cons_self ..).symm.trans (hr k)) hb
    | cons c' m' =>
      obtain ⟨k', b'⟩ := c'
      obtain ⟨_, _, _, htail'⟩ := Memory.wfFrom_cons.mp hm'
      have hkk : k = k' := Nat.le_antisymm (Memory.head_le_of_read hm' hm fun a => (hr a).symm)
        (Memory.head_le_of_read hm hm' hr)
      subst hkk
      have hbb : b = b' := by simpa using hr k
      subst hbb
      have htails (a : Nat) : Memory.read m a = Memory.read m' a := by
        rw [Memory.read_tail (b := b) htail, Memory.read_tail (b := b) htail', hr a]
      rw [ih htail htail' htails]

/-- Settles O22: canonical memories have the same first entry, and their tails read alike. -/
theorem canonicalMemoriesAreEqualData : Obligations.CanonicalMemoriesAreEqualData :=
  fun _ _ hm hm' hr => Memory.eq_of_read hm hm' hr

/-! ## Commands that write no memory -/

/-- Every command but COPY_REGION leaves host memory and the draws as they were (20_memory.md R82). -/
theorem effect_keeps_mem {i : Instr} {s : State} {p : Perform} (hi : i ≠ .copyRegion) (he : EffectOf i s p) :
    p.state.mem = s.mem ∧ p.state.draws = s.draws := by
  cases i with
  | copyRegion => exact absurd rfl hi
  | nop => cases he; exact ⟨rfl, rfl⟩
  | close => cases he; exact ⟨rfl, rfl⟩
  | openSession => rcases he with ⟨_, rfl⟩ | ⟨_, _, _, rfl⟩ | ⟨_, _, _, _, _, rfl⟩ <;> exact ⟨rfl, rfl⟩
  | getSize => rcases he with ⟨_, rfl⟩ | ⟨_, _, rfl⟩ <;> exact ⟨rfl, rfl⟩
  | getPixelFormat => rcases he with ⟨_, rfl⟩ | ⟨_, _, rfl⟩ <;> exact ⟨rfl, rfl⟩
  | lookupPixelFormat => rcases he with rfl | ⟨_, rfl⟩ <;> exact ⟨rfl, rfl⟩
  | brBind => rcases he with ⟨_, rfl⟩ | ⟨_, rfl⟩ <;> exact ⟨rfl, rfl⟩
  | brReadBits => rcases he with ⟨_, rfl⟩ | ⟨_, _, rfl⟩ <;> exact ⟨rfl, rfl⟩
  | brAlign => rcases he with rfl | ⟨_, rfl⟩ <;> exact ⟨rfl, rfl⟩
  | brSeek => rcases he with ⟨_, rfl⟩ | ⟨_, _, rfl⟩ <;> exact ⟨rfl, rfl⟩
  | brTell => rcases he with rfl | ⟨_, rfl⟩ <;> exact ⟨rfl, rfl⟩

/-- Settles O40: a completion writes no memory, and of the pseudocodes COPY_REGION's alone does. -/
theorem onlyCopyRegionWritesMemory : Obligations.OnlyCopyRegionWritesMemory := by
  intro s t i hi h
  obtain ⟨p, hp, he⟩ := exec_effect i s
  cases hp.symm.trans h
  exact effect_keeps_mem hi he

/-- The addresses COPY_REGION writes lie in host memory, so every command keeps the canonical form
(47_session_commands.md R329). -/
theorem effect_keeps_wf {i : Instr} {s : State} {p : Perform} (hm : s.mem.wf = true)
    (hd : ∀ h, s.session.header? = some h → descriptorOk h.fmt = true) (he : EffectOf i s p) :
    p.state.mem.wf = true := by
  by_cases hi : i = .copyRegion
  · subst hi
    rcases he with ⟨_, _, rfl⟩ | ⟨h, _, hr, _, rfl⟩ | ⟨h, _, _, hr, _, rfl⟩
    · exact hm
    · exact Memory.wf_writeAll hm fun _ hx => copySpan_lt hr (regionCells_span (hd h hr.1) hr hx)
    · exact Memory.wf_writeAll hm fun _ hx => copySpan_lt hr (anyCells_span hx)
  · rw [(effect_keeps_mem hi he).1]
    exact hm

theorem exec_keeps_wf {i : Instr} {s t : State} (hm : s.mem.wf = true)
    (hd : ∀ h, s.session.header? = some h → descriptorOk h.fmt = true) (h : exec i s = .next t) : t.mem.wf = true := by
  obtain ⟨p, hp, he⟩ := exec_effect i s
  cases hp.symm.trans h
  exact effect_keeps_wf hm hd he

end Sys2Proof.Machine
end

section
/-! SUPPORT. Accesses to host memory as steps: the host's under its duties (20_memory.md R94), and those of other
blocks (R96). -/

namespace Sys2Proof.Machine

/-! ## Memory events as steps -/

theorem step_memWrite {s : State} {a : Word} {b : Byte} {es : List HostEvent} (h : s.host = .memWrite a b :: es) :
    step s = hostMemWrite { s with host := es } a b := by
  unfold step
  rw [h]
  rfl

theorem step_memRead {s : State} {a : Word} {es : List HostEvent} (h : s.host = .memRead a :: es) :
    step s = .next (hostMemRead Config.chip { s with host := es } a) := by
  unfold step
  rw [h]
  rfl

theorem step_otherCopy {s : State} {base len : Word} {es : List HostEvent} (h : s.host = .otherCopy base len :: es) :
    step s = .next (otherCopy { s with host := es } base len) := by
  unfold step
  rw [h]
  rfl

theorem step_otherWrite {s : State} {a : Word} {b : Byte} {es : List HostEvent} (h : s.host = .otherWrite a b :: es) :
    step s = otherWrite Config.chip { s with host := es } a b := by
  unfold step
  rw [h]
  rfl

/-- With no host event left, a latched command is performed and its races are settled (47_session_commands.md R321,
20_memory.md R96). -/
theorem step_latched_of_empty_queue {s : State} {i : Instr} (h : s.host = []) (hv : s.latch.valid = true)
    (hd : decodeWord s.latch.word = .ok i) : step s = settleRace Config.chip (exec i s) := by
  unfold step blockStep State.fetchWord
  rw [h]
  simp only [hv, hd, if_true]

/-! ## Refusals -/

/-- The block's step is a next state, always: a command is never refused (60_exceptions.md R361, log 17). -/
theorem blockStep_next (s : State) : ∃ t, blockStep s = .next t := by
  rcases blockStep_cases s with ⟨_, h⟩ | ⟨_, i, _, h⟩ | ⟨_, _, h⟩
  · exact ⟨_, h⟩
  · obtain ⟨p, _, hp⟩ := settleRace_exec i s
    exact ⟨_, h.trans hp⟩
  · exact ⟨_, h⟩

/-- Of the host's events, a write that breaks a duty and another block's write into the source are refused, and no
other one (20_memory.md R94, R96). -/
theorem hostStep_refused {c : Config} {e : HostEvent} {s : State} {r : Refusal} (h : hostStep c e s = .refused r) :
    r = .hostBreaksDuty ∧ ((∃ a b, e = .memWrite a b ∧ s.breaksDuty a.toNat = true) ∨
      (∃ a b, e = .otherWrite a b ∧ s.isSourceByte a.toNat = true)) := by
  cases e with
  | memWrite a b =>
    rcases hostMemWrite_cases s a b with ⟨hd, hw⟩ | ⟨_, hw⟩ <;> cases hw.symm.trans h
    exact ⟨rfl, .inl ⟨a, b, rfl, hd⟩⟩
  | otherWrite a b =>
    rcases otherWrite_cases c s a b with ⟨hs, hw⟩ | ⟨_, ⟨_, hw⟩ | ⟨_, hw⟩⟩ <;> cases hw.symm.trans h
    exact ⟨rfl, .inr ⟨a, b, rfl, hs⟩⟩
  | _ => cases h

/-- Settles O7: the block's step answers a next state, and of the host's events only the two writes are ever refused. -/
theorem stepRefusesOnlyABrokenDuty : Obligations.StepRefusesOnlyABrokenDuty := by
  intro s r h
  rcases step_cases s with ⟨es, _, hstep⟩ | ⟨e, es, hhost, hstep⟩
  · obtain ⟨t, ht⟩ := blockStep_next { s with host := es }
    cases (hstep.trans ht).symm.trans h
  · obtain ⟨hr, ⟨a, b, rfl, hd⟩ | ⟨a, b, rfl, hs⟩⟩ := hostStep_refused (hstep.symm.trans h)
    · exact ⟨hr, .inl ⟨a, b, es, hhost, hd⟩⟩
    · exact ⟨hr, .inr ⟨a, b, es, hhost, hs⟩⟩

/-! ## The host's own accesses -/

theorem inRunningSpan_iff (s : State) (a : Nat) : s.inRunningSpan a = true ↔
    s.latch.valid = true ∧ decodeWord s.latch.word = .ok .copyRegion ∧
      ∃ h, s.session.header? = some h ∧ CopySpan h s a := by
  unfold State.inRunningSpan
  cases s.session.header? with
  | none => simp
  | some h =>
    simp only [Bool.and_eq_true, copyRunning_iff, List.contains_iff_mem, mem_spanAddrs, inRowSpan_spansOperand,
      Option.some.injEq, exists_eq_left', and_assoc]

/-- A host read, by whether the byte is free (20_memory.md R94, R96). -/
theorem hostMemRead_eq (c : Config) (s : State) (a : Word) : hostMemRead c s a =
    if s.inRunningSpan a.toNat = true ∨ s.isContested a.toNat = true then
      { s with busData := [c.anyByte s.draws], draws := s.draws + 1 }
    else { s with busData := [s.mem.read a.toNat] } := by
  simp only [hostMemRead, Bool.or_eq_true]

/-- Settles O20: the two duties are `breaksDuty`, and the free bytes are those of the running row spans and the
contested ones. -/
theorem hostWritesKeepTheirDuties : Obligations.HostWritesKeepTheirDuties := by
  refine ⟨?_, ?_⟩
  · intro s a b es h source output
    have hduty := breaksDuty_iff { s with host := es } a.toNat
    rw [step_memWrite h]
    rcases hostMemWrite_cases { s with host := es } a b with ⟨hd, hw⟩ | ⟨hd, hw⟩ <;> rw [hw]
    · refine ⟨fun _ => rfl, fun hs ho => ?_⟩
      exact absurd (hduty.mp hd) (not_or.mpr ⟨hs, ho⟩)
    · refine ⟨fun hso => ?_, fun _ _ hm => ⟨_, rfl, rfl, Memory.read_write_self hm, fun _ => Memory.read_write_other⟩⟩
      exact absurd (hduty.mpr hso) (by simp [hd])
  · intro s a es h free
    have hfree : { s with host := es }.inRunningSpan a.toNat = true ∨ { s with host := es }.isContested a.toNat = true ↔
        free := by
      rw [inRunningSpan_iff, isContested_iff, or_comm]
      rfl
    rw [step_memRead h, hostMemRead_eq]
    exact ⟨fun hf => by rw [if_pos (hfree.mpr hf)], fun hf => by rw [if_neg (mt hfree.mp hf)]⟩

/-! ## Other blocks -/

/-- What one more recorded range adds to the contested bytes: its own, but for source bytes (20_memory.md R96, R81). -/
theorem contested_cons {s t : State} {r : AddrRange} (hc : t.contested = r :: s.contested) (hr : t.rdr = s.rdr)
    (a : Nat) : Contested t a ↔ Contested s a ∨ ((r.lo ≤ a ∧ a < r.hi) ∧ s.isSourceByte a = false) := by
  have hs : t.isSourceByte a = s.isSourceByte a := by simp only [State.isSourceByte, hr]
  simp only [Contested, hc, hs, List.exists_mem_cons_iff, or_and_right]
  exact or_comm

/-- One more recorded byte, no source byte, is all that it adds (20_memory.md R96). -/
theorem contested_cons_byte {s t : State} {a : Nat} (hc : t.contested = ⟨a, a + 1⟩ :: s.contested) (hr : t.rdr = s.rdr)
    (ha : s.isSourceByte a = false) (x : Nat) : Contested t x ↔ Contested s x ∨ x = a := by
  rw [contested_cons hc hr]
  refine or_congr_right ⟨fun ⟨hx, _⟩ => Nat.le_antisymm (Nat.le_of_lt_succ hx.2) hx.1, ?_⟩
  rintro rfl
  exact ⟨⟨le_refl x, Nat.lt_succ_self x⟩, ha⟩

theorem mem_sharedOutput (s : State) (base len : Word) (a : Nat) :
    ((s.sharedOutput base len).lo ≤ a ∧ a < (s.sharedOutput base len).hi) ↔
      a < addrSpace ∧ (base.toNat ≤ a ∧ a < base.toNat + len.toNat) ∧ (s.u 4 ≤ a ∧ a < s.u 4 + s.u 6) := by
  simp only [State.sharedOutput]
  omega

theorem otherCopy_of_running {s : State} (hrun : s.copyRunning = true) (base len : Word) :
    otherCopy s base len = { s with contested := s.sharedOutput base len :: s.contested } :=
  if_pos hrun

/-- A mark of another block's COPY_REGION contests what the two outputs share (20_memory.md R96). -/
theorem contested_otherCopy {s : State} (hrun : s.copyRunning = true) (base len : Word) (a : Nat) :
    Contested (otherCopy s base len) a ↔ Contested s a ∨ (a < addrSpace ∧
      (base.toNat ≤ a ∧ a < base.toNat + len.toNat) ∧ (s.u 4 ≤ a ∧ a < s.u 4 + s.u 6) ∧
      ¬ (s.rdr.bound = true ∧ s.rdr.base.toNat ≤ a ∧ a < s.rdr.base.toNat + s.rdr.len.toNat)) := by
  have ho := otherCopy_of_running hrun base len
  rw [contested_cons (s := s) (by rw [ho]) (by rw [ho]), mem_sharedOutput, ← isSourceByte_iff, Bool.not_eq_true]
  simp only [and_assoc]

/-- The races of a completed COPY_REGION, settled: contested bytes are draws, and every other byte is what the command
left (20_memory.md R96). -/
theorem settled_copyRegion {s u : State} (hs : MachineInv s) (h : exec .copyRegion s = .next u) (c : Config) (a : Nat) :
    (¬ Contested s a → (u.drawContested c).mem.read a = u.mem.read a) ∧
    (Contested s a → ∃ n, u.draws ≤ n ∧ n < (u.drawContested c).draws ∧
      (u.drawContested c).mem.read a = c.anyByte n) := by
  obtain ⟨hm, _, _, hrace, hopen⟩ := hs
  have hcont := contested_copyRegion h
  have hwf : u.mem.wf = true := exec_keeps_wf hm (fun x hx => by
    obtain ⟨_, _, _, _, _, hd⟩ := hopen x hx
    exact hd) h
  exact ⟨fun ha => drawContested_read u c (mt (hcont a).mp ha), fun ha =>
    drawContested_any hwf (fun x hx => (contested_bounds hrace ((hcont x).mp hx)).1) c ((hcont a).mpr ha)⟩

/-- Settles O21: each of the three steps is the model's own operation on the record of contested ranges. -/
theorem sharedOutputBytesAreFree : Obligations.SharedOutputBytesAreFree := by
  refine ⟨?_, ?_, ?_⟩
  · intro s base len es h hv hd
    have hrun : { s with host := es }.copyRunning = true := (copyRunning_iff _).mpr ⟨hv, hd⟩
    refine ⟨_, step_otherCopy h, ?_, contested_otherCopy hrun base len⟩
    rw [otherCopy_of_running hrun]
  · intro s a b es h hm hsource shared
    have hshared : { s with host := es }.inRunningOutput a.toNat = true ↔ shared := by
      rw [inRunningOutput_iff, copyRunning_iff, and_assoc]
      rfl
    have hnot : s.isSourceByte a.toNat = false := Bool.eq_false_iff.mpr (mt (isSourceByte_iff s _).mp hsource)
    rw [step_otherWrite h]
    rcases otherWrite_cases Config.chip { s with host := es } a b with ⟨hs, _⟩ | ⟨_, ⟨ho, hw⟩ | ⟨ho, hw⟩⟩
    · exact absurd ((isSourceByte_iff _ _).mp hs) hsource
    · exact ⟨_, hw, rfl, fun _ => Memory.read_write_other, fun _ => ⟨Memory.read_write_self hm, rfl,
        contested_cons_byte rfl rfl hnot⟩, fun hn => absurd (hshared.mp ho) hn⟩
    · exact ⟨_, hw, rfl, fun _ => Memory.read_write_other, fun hsh => absurd (hshared.mpr hsh) (by simp [ho]),
        fun _ => ⟨Memory.read_write_self hm, rfl, rfl⟩⟩
  · intro s u hs h hv hd hexec
    refine ⟨u.drawContested Config.chip, ?_, rfl, settled_copyRegion hs hexec Config.chip⟩
    rw [step_latched_of_empty_queue h hv hd, hexec]
    rfl

end Sys2Proof.Machine
end

section
/-! SUPPORT. A command reads no byte of host memory outside its source (20_memory.md R81, 40_bitstream_reader.md
R147): its pseudocode from two memories that agree on the source. -/

namespace Sys2Proof.Machine

/-- `s` with `m` for host memory. -/
def State.withMem (s : State) (m : Memory) : State := { s with mem := m }

@[simp] theorem State.withMem_session (s : State) (m : Memory) : (s.withMem m).session = s.session := rfl
@[simp] theorem State.withMem_rdr (s : State) (m : Memory) : (s.withMem m).rdr = s.rdr := rfl
@[simp] theorem State.withMem_u (s : State) (m : Memory) (i : Fin 8) : (s.withMem m).u i = s.u i := rfl
@[simp] theorem State.withMem_cursor (s : State) (m : Memory) : (s.withMem m).cursor = s.cursor := rfl
@[simp] theorem State.withMem_guidOperand (s : State) (m : Memory) : (s.withMem m).guidOperand = s.guidOperand := rfl
@[simp] theorem copyChecks_withMem (s : State) (m : Memory) : copyChecks (s.withMem m) = copyChecks s := rfl

/-- What a pseudocode left, with `m` for host memory. -/
def Perform.withMem (p : Perform) (m : Memory) : Perform := { p with state := p.state.withMem m }

/-- Memory `m` agrees with that of `s` on the bytes of its source. -/
def AgreesOnSource (s : State) (m : Memory) : Prop :=
  ∀ a, s.rdr.base.toNat ≤ a → a < s.rdr.base.toNat + s.rdr.len.toNat → m.read a = s.mem.read a

/-- Memory `m` agrees with that of `s` on the range that OPEN would bind. -/
def AgreesOnOperand (s : State) (m : Memory) : Prop :=
  ∀ a, s.u 0 ≤ a → a < s.u 0 + s.u 1 → m.read a = s.mem.read a

/-- From `s` and from `s` with memory `m` a pseudocode leaves the same but for memory, and each byte of that is left as
it was in both, or is the same in both. -/
def RunsAlike (s : State) (m : Memory) (p p' : Perform) : Prop :=
  ∃ m', p' = p.withMem m' ∧
    ∀ a, (p.state.mem.read a = s.mem.read a ∧ m'.read a = m.read a) ∨ m'.read a = p.state.mem.read a

/-- A pseudocode that writes no memory, from either. -/
theorem RunsAlike.of_mem_eq {s : State} {m : Memory} {p : Perform} (hp : p.state.mem = s.mem) :
    RunsAlike s m p (p.withMem m) :=
  ⟨m, rfl, fun _ => .inl ⟨by rw [hp], rfl⟩⟩

/-! ## Commands that read no memory -/

theorem performGetSize_withMem (s : State) (m : Memory) :
    performGetSize (s.withMem m) = (performGetSize s).withMem m := by
  unfold performGetSize
  rw [State.withMem_session]
  split <;> rfl

theorem performGetPixelFormat_withMem (s : State) (m : Memory) :
    performGetPixelFormat (s.withMem m) = (performGetPixelFormat s).withMem m := by
  unfold performGetPixelFormat
  rw [State.withMem_session]
  split <;> rfl

theorem performLookup_withMem (c : Config) (s : State) (m : Memory) :
    performLookup c (s.withMem m) = (performLookup c s).withMem m := by
  unfold performLookup
  rw [State.withMem_guidOperand]
  split <;> rfl

theorem performBrBind_withMem (s : State) (m : Memory) :
    performBrBind (s.withMem m) = (performBrBind s).withMem m := by
  rw [performBrBind_eq, performBrBind_eq, State.withMem_u, State.withMem_u]
  split <;> rfl

theorem performBrAlign_withMem (s : State) (m : Memory) :
    performBrAlign (s.withMem m) = (performBrAlign s).withMem m := by
  unfold performBrAlign
  rw [State.withMem_rdr]
  split <;> rfl

theorem performBrSeek_withMem (s : State) (m : Memory) :
    performBrSeek (s.withMem m) = (performBrSeek s).withMem m := by
  unfold performBrSeek
  rw [State.withMem_rdr, State.withMem_u]
  split
  · rfl
  · split <;> rfl

theorem performBrTell_withMem (s : State) (m : Memory) :
    performBrTell (s.withMem m) = (performBrTell s).withMem m := by
  unfold performBrTell
  rw [State.withMem_rdr]
  split <;> rfl

/-! ## Commands that read their source -/

theorem AgreesOnSource.srcByte {s : State} {m : Memory} (h : AgreesOnSource s m) {i : Nat} (hi : i < s.rdr.len.toNat) :
    (s.withMem m).srcByte i = s.srcByte i :=
  h _ (Nat.le_add_right _ _) (Nat.add_lt_add_left hi _)

theorem AgreesOnSource.sourceBytes {s : State} {m : Memory} (h : AgreesOnSource s m) :
    (s.withMem m).sourceBytes = s.sourceBytes :=
  List.map_congr_left fun _ hi => h.srcByte (List.mem_range.mp hi)

/-- `ReadBits` reads within the source (40_bitstream_reader.md R141, R147). -/
theorem readBits_congr {src src' : Nat → Byte} {len : Nat} (h : ∀ i, i < len → src i = src' i) (pos n : Nat) :
    readBits src len pos n = readBits src' len pos n := by
  unfold readBits
  split
  · rfl
  · rw [peek_congr fun i _ hi => h i (by omega)]

theorem performBrReadBits_withMem {s : State} {m : Memory} (h : AgreesOnSource s m) :
    performBrReadBits (s.withMem m) = (performBrReadBits s).withMem m := by
  unfold performBrReadBits
  rw [State.withMem_rdr, State.withMem_u, State.withMem_cursor,
    readBits_congr (src' := s.srcByte) fun _ hi => h.srcByte hi]
  split
  · rfl
  · split
    · rfl
    · split <;> rfl

/-- OPEN's last part reads the source bound just before (47_session_commands.md R326). -/
theorem openBound_withMem {s : State} {m : Memory} (h : AgreesOnSource s m) (c : Config) :
    openBound c (s.withMem m) = (openBound c s).withMem m := by
  unfold openBound
  rw [h.sourceBytes]
  split
  · rfl
  · split <;> rfl

theorem performOpen_withMem {s : State} {m : Memory} (h : AgreesOnOperand s m) (c : Config) :
    performOpen c (s.withMem m) = (performOpen c s).withMem m := by
  rw [performOpen_eq, performOpen_eq, State.withMem_u, State.withMem_u]
  split
  · exact openBound_withMem (s := { s with session := .closed, rdr := ⟨true, s.latch.args[0], s.latch.args[1], 0⟩ }) h c
  · rfl

/-- A command that writes no memory runs alike from memories that agree on what it reads. -/
theorem performOf_withMem {i : Instr} {s : State} {m : Memory} (hi : i ≠ .copyRegion)
    (hsource : i ≠ .openSession → AgreesOnSource s m) (hoperand : i = .openSession → AgreesOnOperand s m) :
    performOf i (s.withMem m) = (performOf i s).map (Perform.withMem · m) := by
  cases i with
  | copyRegion => exact absurd rfl hi
  | nop => rfl
  | close => rfl
  | openSession => exact congrArg Except.ok (performOpen_withMem (hoperand rfl) _)
  | getSize => exact congrArg Except.ok (performGetSize_withMem s m)
  | getPixelFormat => exact congrArg Except.ok (performGetPixelFormat_withMem s m)
  | lookupPixelFormat => exact congrArg Except.ok (performLookup_withMem _ s m)
  | brBind => exact congrArg Except.ok (performBrBind_withMem s m)
  | brReadBits => exact congrArg Except.ok (performBrReadBits_withMem (hsource (by decide)))
  | brAlign => exact congrArg Except.ok (performBrAlign_withMem s m)
  | brSeek => exact congrArg Except.ok (performBrSeek_withMem s m)
  | brTell => exact congrArg Except.ok (performBrTell_withMem s m)

/-! ## COPY_REGION -/

/-- One list of writes to two memories: an address it does not name is left alone in both, and one it names reads the
same in both. -/
theorem Memory.writeAll_alike {m m' : Memory} {cs : List Host.Cell} (hm : m.wf = true) (hm' : m'.wf = true)
    (hs : ∀ c ∈ cs, c.1 < addrSpace) (a : Nat) :
    ((m.writeAll cs).read a = m.read a ∧ (m'.writeAll cs).read a = m'.read a) ∨
      (m'.writeAll cs).read a = (m.writeAll cs).read a := by
  by_cases hc : ∃ c ∈ cs, c.1 = a
  · exact .inr (Memory.read_writeAll_congr hm hm' hs hc)
  · have hother : ∀ c ∈ cs, c.1 ≠ a := fun c hcs he => hc ⟨c, hcs, he⟩
    exact .inl ⟨Memory.read_writeAll_other hother, Memory.read_writeAll_other hother⟩

/-- COPY_REGION's checks read no memory, its decode reads the source, and what it writes does not depend on what memory
held (47_session_commands.md R329). -/
theorem performCopyRegion_alike {s : State} {m : Memory} (hm : s.mem.wf = true) (hm' : m.wf = true)
    (hd : ∀ h, s.session.header? = some h → descriptorOk h.fmt = true) (hsource : AgreesOnSource s m) (c : Config) :
    ∃ p p', performCopyRegion c s = .ok p ∧ performCopyRegion c (s.withMem m) = .ok p' ∧ RunsAlike s m p p' := by
  unfold performCopyRegion
  rw [copyChecks_withMem, hsource.sourceBytes]
  cases hc : copyChecks s with
  | error e => exact ⟨_, _, rfl, rfl, .of_mem_eq rfl⟩
  | ok j =>
    obtain ⟨h, hr, rfl⟩ := copyChecks_ok.mp hc
    have hwrite (pix : Image) := Memory.writeAll_alike hm hm'
      fun _ hx => copySpan_lt hr (regionCells_span (pix := pix) (hd h hr.1) hr hx)
    have hfail := Memory.writeAll_alike hm hm'
      fun _ hx => copySpan_lt hr (anyCells_span (c := c) (n := s.draws) hx)
    dsimp only
    rcases regionOutcome_cases c s.sourceBytes h (copyRect s) with
      ⟨_, _, ho⟩ | ⟨_, _, _, ho⟩ | ⟨_, _, pix, _, _, _, ho⟩ <;> rw [ho]
    · exact ⟨_, _, rfl, rfl, _, rfl, hwrite _⟩
    · exact ⟨_, _, rfl, rfl, _, rfl, hfail⟩
    · exact ⟨_, _, rfl, rfl, _, rfl, hwrite pix⟩

/-- Every command runs alike from memories that agree on what it reads (20_memory.md R81). -/
theorem performOf_alike {i : Instr} {s : State} {m : Memory} (hm : s.mem.wf = true) (hm' : m.wf = true)
    (hd : ∀ h, s.session.header? = some h → descriptorOk h.fmt = true)
    (hsource : i ≠ .openSession → AgreesOnSource s m) (hoperand : i = .openSession → AgreesOnOperand s m) :
    ∃ p p', performOf i s = .ok p ∧ performOf i (s.withMem m) = .ok p' ∧ RunsAlike s m p p' := by
  by_cases hi : i = .copyRegion
  · subst hi
    exact performCopyRegion_alike hm hm' hd (hsource (by decide)) Config.chip
  · obtain ⟨p, hp, he⟩ := performOf_effect i s
    exact ⟨p, p.withMem m, hp, by rw [performOf_withMem hi hsource hoperand, hp]; rfl,
      .of_mem_eq (effect_keeps_mem hi he).1⟩

/-- Settles O42: both runs complete the pseudocodes of `performOf_alike`, and a completion leaves memory alone. -/
theorem commandsReadTheSourceAlone : Obligations.CommandsReadTheSourceAlone := by
  intro s m i hm hm' hd hsource hoperand
  obtain ⟨p, _, hp, hp', m', rfl, halike⟩ := performOf_alike hm hm' hd hsource hoperand
  refine ⟨completed p.state p.err, m', ?_, ?_, halike⟩
  · rw [exec_eq_performOf, hp]
    rfl
  · change exec i (s.withMem m) = _
    rw [exec_eq_performOf, hp']
    rfl

end Sys2Proof.Machine
end

section
/-! SUPPORT. The decoder and the encoder are inverse to each other (30_encoding.md R110, R112, R115), on words and on
the bytes of the bus. -/

namespace Sys2Proof.Machine

/-! ## Words -/

/-- A command's word is the one with its opcode over a zero reserved field (30_encoding.md R110). -/
theorem eq_encode_iff {w : Word} {i : Instr} : w = encode i ↔ rsvField w = 0 ∧ opField w = opcodeOf i := by
  constructor
  · rintro rfl
    cases i <;> exact ⟨rfl, rfl⟩
  · rintro ⟨hrsv, hop⟩
    rw [word_fields w, hrsv, hop]
    rfl

/-- The opcode map has a row for every command. -/
theorem opcodeTable_find? (i : Instr) :
    opcodeTable.find? (fun r => r.op == opcodeOf i) = some ⟨opcodeOf i, i⟩ := by
  cases i <;> rfl

/-- A word decodes to a command exactly when it is the command's encoding (30_encoding.md R115). -/
theorem decodeWord_eq_ok_iff {w : Word} {i : Instr} : decodeWord w = .ok i ↔ w = encode i := by
  rw [eq_encode_iff]
  unfold decodeWord
  constructor
  · intro h
    split at h
    · cases h
    · rename_i hrsv
      split at h
      · rename_i r hfind
        cases h
        have hop : r.op = opField w := by simpa using List.find?_some hfind
        exact ⟨not_not.mp hrsv, hop ▸ opcodeTable_op (List.mem_of_find?_eq_some hfind)⟩
      · cases h
  · rintro ⟨hrsv, hop⟩
    rw [hop, opcodeTable_find?]
    simp [hrsv]

/-! ## Bytes of the bus -/

/-- Byte `k` of a word made of four bytes is byte `k` of these (10_state.md R31). The sum of widths is written out
for the library's lemmas on `++`, which do not see it in 32. -/
theorem byteOfWord_append (b : Fin 4 → Byte) (k : Fin 4) : byteOfWord (b 3 ++ b 2 ++ b 1 ++ b 0) k = b k := by
  change BitVec.extractLsb' (n := 8 + 8 + 8 + 8) (8 * k) 8 _ = _
  fin_cases k <;> simp [-Nat.reduceAdd, BitVec.extractLsb'_append_eq_of_le, BitVec.extractLsb'_append_eq_of_add_le]

/-- The bus carries a word made of four bytes as these bytes, lowest address first (10_state.md R31). -/
theorem wordBytes_append (b0 b1 b2 b3 : Byte) : wordBytes (b3 ++ b2 ++ b1 ++ b0) = [b0, b1, b2, b3] := by
  have hbyte := byteOfWord_append ![b0, b1, b2, b3]
  simp only [wordBytes_eq, List.cons.injEq, and_true]
  exact ⟨hbyte 0, hbyte 1, hbyte 2, hbyte 3⟩

theorem decode_encodeBytes (i : Instr) (rest : List Byte) : decode (encodeBytes i ++ rest) = .ok (i, rest) := by
  cases i <;> rfl

/-- A byte list that decodes to a command begins with the bytes of the command's word (30_encoding.md R110, R115). -/
theorem eq_encodeBytes_of_decode {bs rest : List Byte} {i : Instr} (h : decode bs = .ok (i, rest)) :
    bs = encodeBytes i ++ rest := by
  unfold decode at h
  split at h
  · rename_i b0 b1 b2 b3 tail
    split at h
    · rename_i j hword
      cases h
      change _ = wordBytes (encode i) ++ rest
      rw [← decodeWord_eq_ok_iff.mp hword, wordBytes_append]
      rfl
    · cases h
  · cases h

/-- Settles O2: both directions on bytes, and `decodeWord_eq_ok_iff` on words. -/
theorem decodeAndEncodeAgree : Obligations.DecodeAndEncodeAgree :=
  ⟨fun i rest _ => decode_encodeBytes i rest, fun _ _ _ => eq_encodeBytes_of_decode, fun _ _ => decodeWord_eq_ok_iff⟩

/-- Settles O1: each of the twelve words is its command's encoding. -/
theorem tableWordsDecodeToTheirCommands : Obligations.TableWordsDecodeToTheirCommands := by
  unfold Obligations.TableWordsDecodeToTheirCommands
  simp only [decodeWord_eq_ok_iff]
  decide

end Sys2Proof.Machine
end

section
/-! SUPPORT. Illegal words (30_encoding.md R113): which they are, and the block's step for one. -/

namespace Sys2Proof.Machine

/-- A word is illegal exactly when its reserved field is not zero or the opcode map has no row for its opcode. -/
theorem decodeWord_error_iff {w : Word} :
    (∃ e, decodeWord w = .error e) ↔ rsvField w ≠ 0 ∨ ∀ r ∈ opcodeTable, r.op ≠ opField w := by
  unfold decodeWord
  by_cases hrsv : rsvField w = 0
  · cases hfind : opcodeTable.find? (fun r => r.op == opField w) with
    | none => simpa [hrsv] using hfind
    | some r =>
      have hop : r.op = opField w := by simpa using List.find?_some hfind
      simpa [hrsv] using ⟨r, List.mem_of_find?_eq_some hfind, hop⟩
  · exact iff_of_true ⟨.reservedBitsSet, if_pos hrsv⟩ (.inl hrsv)

/-- The opcodes that the map leaves out. -/
theorem opcodeTable_unassigned_iff (op : BitVec 8) :
    (∀ r ∈ opcodeTable, r.op ≠ op) ↔ (0x07 ≤ op.toNat ∧ op.toNat ≤ 0x0F) ∨ 0x15 ≤ op.toNat := by
  simp only [opcodeTable, List.forall_mem_cons, List.not_mem_nil, false_implies, implies_true, and_true]
  bv_omega

/-- The illegal words, by their numbers. -/
theorem decodeWord_error_iff_toNat {w : Word} : (∃ e, decodeWord w = .error e) ↔
    w.toNat / 256 ≠ 0 ∨ (0x07 ≤ w.toNat % 256 ∧ w.toNat % 256 ≤ 0x0F) ∨ 0x15 ≤ w.toNat % 256 := by
  rw [decodeWord_error_iff, opcodeTable_unassigned_iff, opField_toNat, ← rsvField_toNat, ← BitVec.toNat_ne_iff_ne]
  rfl

/-! ## The block's place in the queue -/

theorem step_of_empty_queue {s : State} (h : s.host = []) : step s = blockStep s := by
  unfold step
  rw [h]

theorem step_blockTurn {s : State} {es : List HostEvent} (h : s.host = .blockTurn :: es) :
    step s = blockStep { s with host := es } := by
  unfold step
  rw [h]

theorem step_wait_of_busy {s : State} {es : List HostEvent} (h : s.host = .wait :: es) (hv : s.latch.valid = true) :
    step s = blockStep s := by
  unfold step
  rw [h]
  exact if_pos hv

/-! ## An illegal word -/

/-- An idle block accepts every word, legal or not (47_session_commands.md R320, 30_encoding.md R113). -/
theorem State.onCmdWrite_of_idle {s : State} (h : s.latch.valid = false) (v : Word) :
    s.onCmdWrite v = s.latchCommand v := by
  simp [State.onCmdWrite, h]

theorem blockStep_illegal {s : State} (hv : s.latch.valid = true) (hd : ∃ e, decodeWord s.latch.word = .error e) :
    blockStep s = .next (completed s (some .illegalCommand)) := by
  obtain ⟨e, he⟩ := hd
  rcases blockStep_cases s with ⟨hidle, _⟩ | ⟨_, i, hi, _⟩ | ⟨_, _, h⟩
  · cases hidle.symm.trans hv
  · cases he.symm.trans hi
  · exact h

/-- Settles O3: the illegal words are those of `decodeWord_error_iff_toNat`, and every place in the queue comes to
`blockStep_illegal`. -/
theorem illegalWordsChangeStatusAlone : Obligations.IllegalWordsChangeStatusAlone := by
  intro w
  refine ⟨decodeWord_error_iff_toNat, fun s hidle => ?_, ?_⟩
  · rw [State.onCmdWrite_of_idle hidle]
    exact ⟨rfl, rfl⟩
  · rintro s hv rfl hd
    exact ⟨fun h => (step_of_empty_queue h).trans (blockStep_illegal hv hd),
      fun es h => (step_blockTurn h).trans (blockStep_illegal (s := { s with host := es }) hv hd),
      fun es h => (step_wait_of_busy h hv).trans (blockStep_illegal hv hd)⟩

end Sys2Proof.Machine
end

section
/-! SUPPORT. The GUID operand, read back from the registers it is packed into (30_encoding.md R111, R118). -/

namespace Sys2Proof.Machine

/-- The GUID operand, word by word (30_encoding.md R111). -/
theorem State.guidOperand_getElem (s : State) (q r : Fin 4) :
    s.guidOperand[4 * q.val + r.val] = byteOfWord s.latch.args[q.val] r.val := by
  simp only [State.guidOperand, Vector.getElem_ofFn, show (4 * q.val + r.val) / 4 = q.val by omega,
    show (4 * q.val + r.val) % 4 = r.val by omega]

/-- Settles O47: each word gives back the four bytes packed into it. -/
theorem guidOperandIsThePackedGuid : Obligations.GuidOperandIsThePackedGuid := by
  intro s g hpack
  apply Vector.ext
  intro k hk
  obtain ⟨q, r, rfl⟩ : ∃ q r : Fin 4, k = 4 * q.val + r.val :=
    ⟨⟨k / 4, by omega⟩, ⟨k % 4, by omega⟩, (Nat.div_add_mod k 4).symm⟩
  rw [State.guidOperand_getElem, hpack q]
  exact byteOfWord_append (fun j => g[4 * q.val + j.val]) r

end Sys2Proof.Machine
end

section
/-! SUPPORT. The reader commands (40_bitstream_reader.md R150-R154), each from the lemma that says all its pseudocode
can do. -/

namespace Sys2Proof.Machine

/-! ## How a command ends -/

/-- A command whose pseudocode comes to `complete` (47_session_commands.md R321). -/
theorem exec_of_complete {i : Instr} {s t : State} (h : performOf i s = .ok (complete t)) :
    exec i s = .next (completed t none) := by
  rw [exec_eq_performOf, h]
  rfl

/-- A command whose pseudocode raises an error (47_session_commands.md R321). -/
theorem exec_of_raise {i : Instr} {s t : State} {e : Error} (h : performOf i s = .ok (raise e t)) :
    exec i s = .next (completed t (some e)) := by
  rw [exec_eq_performOf, h]
  rfl

/-! ## BR_READ_BITS -/

/-- The register that takes `n` bits of the stream holds the first one as its most significant
(40_bitstream_reader.md R140, R141). -/
theorem peekWord_getLsbD (src : Nat → Byte) (pos : Nat) {n j : Nat} (hn : n ≤ 32) (hj : j < n) :
    (BitVec.ofNat 32 (peek src pos n)).getLsbD (n - 1 - j) = streamBit src (pos + j) := by
  rw [BitVec.getLsbD_ofNat, peek_testBit src pos hj]
  simp [show n - 1 - j < 32 by omega]

/-- Above the `n` bits read there are zeros (40_bitstream_reader.md R141). -/
theorem peekWord_getLsbD_above (src : Nat → Byte) (pos : Nat) {n j : Nat} (hj : n ≤ j) :
    (BitVec.ofNat 32 (peek src pos n)).getLsbD j = false := by
  have hlt : peek src pos n < 2 ^ j := (peek_lt src pos n).trans_le (Nat.pow_le_pow_right (by decide) hj)
  rw [BitVec.getLsbD_ofNat, Nat.testBit_lt_two_pow hlt, Bool.and_false]

/-- Settles O49: the four ends of `performBrReadBits_cases`, and the bits of `peek` in the result register. -/
theorem brReadBitsReturnsTheNextBits : Obligations.BrReadBitsReturnsTheNextBits := by
  refine ⟨decodeWord_eq_ok_iff.mpr rfl, fun s => ?_⟩
  rcases performBrReadBits_cases s with ⟨hb, hp⟩ | ⟨hb, hn, hp⟩ | ⟨hb, hn, hl, hp⟩ | ⟨hb, hn, hl, hp⟩
  · have hexec := exec_of_raise (i := .brReadBits) (congrArg Except.ok hp)
    simp [hb, hexec]
  · have hexec := exec_of_raise (i := .brReadBits) (congrArg Except.ok hp)
    simp [hb, hn.not_ge, hexec]
  · have hexec := exec_of_raise (i := .brReadBits) (congrArg Except.ok hp)
    unfold State.cursor at hl
    simp [hb, hn.not_gt, hl.not_ge, hexec]
  · have hexec := exec_of_complete (i := .brReadBits) (congrArg Except.ok hp)
    refine ⟨by simp [hb], fun _ h => absurd h hn.not_gt, fun _ _ h => absurd h hl.not_gt, fun _ _ _ => ?_⟩
    exact ⟨_, hexec, fun j hj => peekWord_getLsbD _ _ hn hj, fun j hj => peekWord_getLsbD_above _ _ hj⟩

/-! ## BR_ALIGN -/

/-- The next byte boundary at or after a position (40_bitstream_reader.md R142). -/
theorem alignToByte_spec (p : Nat) : alignToByte p % 8 = 0 ∧ p ≤ alignToByte p ∧ alignToByte p < p + 8 := by
  unfold alignToByte
  omega

/-- A source ends at a byte boundary, so aligning does not pass its end (40_bitstream_reader.md R142). -/
theorem alignToByte_le {p len : Nat} (h : p ≤ 8 * len) : alignToByte p ≤ 8 * len := by
  unfold alignToByte
  omega

theorem performBrAlign_eq (s : State) : performBrAlign s =
    if s.rdr.bound then complete (s.setCursor (alignToByte s.cursor)) else raise .sessionClosed s := by
  cases hb : s.rdr.bound <;> simp [performBrAlign, hb]

/-- Settles O50: the cursor goes to `alignToByte`, the next byte boundary. -/
theorem brAlignDiscardsThePartialByte : Obligations.BrAlignDiscardsThePartialByte := by
  refine ⟨decodeWord_eq_ok_iff.mpr rfl, fun s => ⟨fun hb => ?_, fun hb hpos => ?_⟩⟩
  · exact exec_of_raise (congrArg Except.ok ((performBrAlign_eq s).trans (if_neg (Bool.eq_false_iff.mp hb))))
  · have hp := (performBrAlign_eq s).trans (if_pos hb)
    obtain ⟨hmod, hge, hlt⟩ := alignToByte_spec s.cursor
    exact ⟨alignToByte s.cursor, exec_of_complete (congrArg Except.ok hp), hmod, hge, hlt, alignToByte_le hpos⟩

/-! ## BR_BIND, BR_SEEK and BR_TELL -/

/-- Settles O48: `performBrBind_eq` on both sides of the end of host memory. -/
theorem brBindBindsTheRange : Obligations.BrBindBindsTheRange := by
  refine ⟨decodeWord_eq_ok_iff.mpr rfl, fun s => ⟨fun hr => ?_, fun hr => ?_⟩⟩
  · exact exec_of_complete (congrArg Except.ok ((performBrBind_eq s).trans (if_pos hr)))
  · exact exec_of_raise (congrArg Except.ok ((performBrBind_eq s).trans (if_neg hr.not_ge)))

/-- Settles O51: the three ends of `performBrSeek_cases`. -/
theorem brSeekMovesWithinTheSource : Obligations.BrSeekMovesWithinTheSource := by
  refine ⟨decodeWord_eq_ok_iff.mpr rfl, fun s => ?_⟩
  rcases performBrSeek_cases s with ⟨hb, hp⟩ | ⟨hb, hl, hp⟩ | ⟨hb, hl, hp⟩
  · have hexec := exec_of_raise (i := .brSeek) (congrArg Except.ok hp)
    simp [hb, hexec]
  · have hexec := exec_of_raise (i := .brSeek) (congrArg Except.ok hp)
    simp [hb, hl.not_ge, hexec]
  · have hexec := exec_of_complete (i := .brSeek) (congrArg Except.ok hp)
    exact ⟨by simp [hb], fun _ _ => hexec, fun _ h => absurd h hl.not_gt⟩

theorem performBrTell_eq (s : State) : performBrTell s =
    if s.rdr.bound then complete ((s.setRes 0 (s.cursor / 8)).setRes 1 (s.cursor % 8))
    else raise .sessionClosed s := by
  cases hb : s.rdr.bound <;> simp [performBrTell, hb]

/-- Settles O52: `performBrTell_eq` with and without a bound source. -/
theorem brTellReportsTheCursor : Obligations.BrTellReportsTheCursor := by
  refine ⟨decodeWord_eq_ok_iff.mpr rfl, fun s => ⟨fun hb => ?_, fun hb => ?_⟩⟩
  · exact exec_of_raise (congrArg Except.ok ((performBrTell_eq s).trans (if_neg (Bool.eq_false_iff.mp hb))))
  · exact exec_of_complete (congrArg Except.ok ((performBrTell_eq s).trans (if_pos hb)))

end Sys2Proof.Machine
end

section
/-! SUPPORT. `ReadVLC` over a prefix-free code (40_bitstream_reader.md R145): at most one codeword stands in the stream,
and what the read returns is settled by the stream's bits. -/

namespace Sys2Proof.Machine

/-- The first `n` bits of codeword `w` are those of the stream from bit `pos` on. -/
def StreamHolds (src : Nat → Byte) (pos : Nat) (w : List Bool) (n : Nat) : Prop :=
  ∀ j, j < n → w[j]? = some (streamBit src (pos + j))

theorem peek_eq_codeValue_iff (src : Nat → Byte) (pos : Nat) (w : List Bool) :
    peek src pos w.length = codeValue w ↔ StreamHolds src pos w w.length :=
  peek_eq_codeValue src pos w

theorem codewordMatches_iff (src : Nat → Byte) (pos r : Nat) (w : List Bool) :
    codewordMatches src pos r w = true ↔ w.length ≤ r ∧ StreamHolds src pos w w.length := by
  simp [codewordMatches, peek_eq_codeValue_iff]

/-- A codeword is cut off when it passes the limit and its bits before the limit stand in the stream. -/
theorem codewordCutOff_iff (src : Nat → Byte) (pos r : Nat) (w : List Bool) :
    codewordCutOff src pos r w = true ↔ r < w.length ∧ StreamHolds src pos w r := by
  simp only [codewordCutOff, Bool.and_eq_true, decide_eq_true_eq, beq_iff_eq, gt_iff_lt]
  refine and_congr_right fun hr => ?_
  have htake : (w.take r).length = r := by simp [hr.le]
  have hpeek := peek_eq_codeValue_iff src pos (w.take r)
  rw [htake] at hpeek
  rw [codeValue_take w hr.le, eq_comm, hpeek]
  exact forall₂_congr fun j hj => by rw [List.getElem?_take_of_lt hj]

/-- Of two codewords that stand at one position, the shorter is a prefix of the longer. -/
theorem StreamHolds.isPrefix {src : Nat → Byte} {pos : Nat} {w v : List Bool} (hw : StreamHolds src pos w w.length)
    (hv : StreamHolds src pos v v.length) (h : w.length ≤ v.length) : w <+: v := by
  rw [List.prefix_iff_getElem?]
  intro j hj
  rw [hv j (hj.trans_le h), ← hw j hj, List.getElem?_eq_getElem hj]

/-- In a prefix-free code, only an entry's own codeword has it as a prefix. -/
theorem eq_of_isPrefix {l : List (List Bool × Nat)} (hl : prefixFree l = true) {e f : List Bool × Nat} (he : e ∈ l)
    (hf : f ∈ l) (h : e.1 <+: f.1) : e = f := by
  induction l with
  | nil => cases he
  | cons a l ih =>
    simp only [prefixFree, Bool.and_eq_true, List.all_eq_true, Bool.not_eq_true', Bool.eq_false_iff, ne_eq,
      List.isPrefixOf_iff_prefix] at hl
    obtain ⟨ha, hl⟩ := hl
    rcases List.mem_cons.mp he with rfl | he' <;> rcases List.mem_cons.mp hf with rfl | hf'
    · rfl
    · exact absurd h (ha f hf').1
    · exact absurd h (ha e he').2
    · exact ih hl he' hf'

/-- At most one entry of a code stands at a position. -/
theorem eq_of_streamHolds (code : VlcCode) {src : Nat → Byte} {pos : Nat} {e f : List Bool × Nat}
    (he : e ∈ code.val) (hf : f ∈ code.val) (hse : StreamHolds src pos e.1 e.1.length)
    (hsf : StreamHolds src pos f.1 f.1.length) : e = f := by
  have hfree : prefixFree code.val = true := (Bool.and_eq_true_iff.mp code.property).2
  rcases Nat.le_total e.1.length f.1.length with h | h
  · exact eq_of_isPrefix hfree he hf (hse.isPrefix hsf h)
  · exact (eq_of_isPrefix hfree hf he (hsf.isPrefix hse h)).symm

/-- How `ReadVLC` ends, by the bits of the stream: at an entry that stands inside the limit, or, when there is none, with
one of the two errors (40_bitstream_reader.md R145). -/
theorem readVLC_streamHolds_cases (src : Nat → Byte) (code : VlcCode) (limit : Nat) (endErr : DecodeError) (pos : Nat) :
    (∃ e ∈ code.val, e.1.length ≤ limit - pos ∧ StreamHolds src pos e.1 e.1.length ∧
      readVLC src code limit endErr pos = .ok (e.2, pos + e.1.length)) ∨
    ((∀ e ∈ code.val, e.1.length ≤ limit - pos → ¬ StreamHolds src pos e.1 e.1.length) ∧
      (∃ e ∈ code.val, limit - pos < e.1.length ∧ StreamHolds src pos e.1 (limit - pos)) ∧
      readVLC src code limit endErr pos = .error endErr) ∨
    ((∀ e ∈ code.val, e.1.length ≤ limit - pos → ¬ StreamHolds src pos e.1 e.1.length) ∧
      (∀ e ∈ code.val, limit - pos < e.1.length → ¬ StreamHolds src pos e.1 (limit - pos)) ∧
      readVLC src code limit endErr pos = .error .corruptStream) := by
  simpa only [← Bool.not_eq_true, codewordMatches_iff, codewordCutOff_iff, not_and, peek_eq_codeValue_iff] using
    readVLC_cases src code limit endErr pos

/-- Settles O53: the three ends of `readVLC_streamHolds_cases` exclude each other, and the entry read is the only one that
stands in the stream. -/
theorem readVlcFollowsThePrefixCode : Obligations.ReadVlcFollowsThePrefixCode := by
  intro src code limit pos endErr hpos
  have hfits : ∀ w : List Bool, pos + w.length ≤ limit ↔ w.length ≤ limit - pos := fun w => by omega
  have hcut : ∀ w : List Bool, limit < pos + w.length ↔ limit - pos < w.length := fun w => by omega
  simp only [hfits, hcut]
  rcases readVLC_streamHolds_cases src code limit endErr pos with
    ⟨e, he, hle, hse, hread⟩ | ⟨hnone, ⟨e, he, hlt, hse⟩, hread⟩ | ⟨hnone, hnocut, hread⟩
  · refine ⟨fun w sym hw _ hsw => ?_, fun hno => absurd hse (hno e he hle)⟩
    obtain rfl := eq_of_streamHolds code he hw hse hsw
    exact hread
  · exact ⟨fun w sym hw hle hsw => absurd hsw (hnone _ hw hle),
      fun _ => ⟨fun _ => hread, fun hno => absurd hse (hno e he hlt)⟩⟩
  · exact ⟨fun w sym hw hle hsw => absurd hsw (hnone _ hw hle),
      fun _ => ⟨fun ⟨e, he, hlt, hse⟩ => absurd hse (hnocut e he hlt), fun _ => hread⟩⟩

end Sys2Proof.Machine
end

section
/-! SUPPORT. The decode while the extents lie inside the source (40_bitstream_reader.md R146, 43_entropy_decoder.md
R223). -/

namespace Sys2Proof.Machine

/-- The extent the decode reads in ends inside the source when every declared one does; a header without an extent
declares no bit (41_container_header_parser.md R174). -/
theorem firstExtent_endBit_le {h : Header} {n : Nat} (hin : ∀ e ∈ h.extents, e.offset + e.length ≤ n) :
    Extent.endBit (firstExtent h) ≤ 8 * n := by
  unfold firstExtent Extent.endBit
  cases hx : h.extents with
  | nil => simp
  | cons e es => exact Nat.mul_le_mul_left 8 (hin e (hx ▸ List.mem_cons_self))

/-- Settles O54: a failing decode's error is one of a decode inside the first extent, which ends inside the source. -/
theorem decodeNeverRunsOffTheSource : Obligations.DecodeNeverRunsOffTheSource := by
  intro c b h hin m hfail
  rcases refDecode_cases c b h with ⟨img, hok⟩ | ⟨x, m', hx, _, herr⟩
  · cases hok.symm.trans hfail
  · cases hx.symm.trans hfail
    exact herr (firstExtent_endBit_le hin) rfl

end Sys2Proof.Machine
end

section
/-! SUPPORT. The container parser past the magic (41_container_header_parser.md R172, R173): the range checks as
statements about every directory and entry, and the parse as a function of the recognised entries alone. -/

namespace Sys2Proof.Machine

theorem directoriesInside_iff (c : Config) (b : List Byte) :
    directoriesInside c b = true ↔ ∀ r ∈ c.directoryRanges b, r.offset + r.length ≤ b.length := by
  simp [directoriesInside, Extent.inside]

theorem entriesInside_iff (c : Config) (b : List Byte) (entries : List DirEntry) :
    entriesInside c b entries = true ↔
      ∀ e ∈ entries, ∀ r, c.entryRange e = some r → r.offset + r.length ≤ b.length := by
  simp only [entriesInside, List.all_eq_true]
  refine forall₂_congr fun e _ => ?_
  cases c.entryRange e <;> simp [Extent.inside]

theorem outsideError_cases (c : Config) (b : List Byte) :
    outsideError c b = .invalidFormat ∨ outsideError c b = .unexpectedEnd := by
  cases hend : c.outsideIsEnd b <;> simp [outsideError, hend]

/-- Past the magic, the parse extracts the fields when every range lies inside the source, and fails otherwise. -/
theorem parseContainer_of_present {c : Config} {b : List Byte} (hmagic : checkMagic c b = .present) :
    parseContainer c b =
      if directoriesInside c b && entriesInside c b (c.readDirectory b) then extractFields c b (c.readDirectory b)
      else .error (outsideError c b) := by
  simp only [parseContainer, hmagic]

theorem parseContainer_of_outside {c : Config} {b : List Byte} (hmagic : checkMagic c b = .present)
    (hout : ¬ (directoriesInside c b = true ∧ entriesInside c b (c.readDirectory b) = true)) :
    parseContainer c b = .error (outsideError c b) := by
  rw [parseContainer_of_present hmagic, if_neg (by rwa [Bool.and_eq_true])]

/-- The extraction sees the recognised entries only (41_container_header_parser.md R173). -/
theorem extractFields_congr {c : Config} {b : List Byte} {es fs : List DirEntry}
    (h : es.filter (fun e => c.knownTag e.tag) = fs.filter fun e => c.knownTag e.tag) :
    extractFields c b es = extractFields c b fs := by
  simp only [extractFields, h]

/-- A range that passes the end of the source fails one of the two range checks. -/
theorem not_inside_of_range_past_end {c : Config} {b : List Byte}
    (h : (∃ r ∈ c.directoryRanges b, b.length < r.offset + r.length) ∨
      ∃ e ∈ c.readDirectory b, ∃ r, c.entryRange e = some r ∧ b.length < r.offset + r.length) :
    ¬ (directoriesInside c b = true ∧ entriesInside c b (c.readDirectory b) = true) := by
  rw [directoriesInside_iff, entriesInside_iff]
  rintro ⟨hdirs, hentries⟩
  rcases h with ⟨r, hr, hlt⟩ | ⟨e, he, r, hr, hlt⟩
  · exact hlt.not_ge (hdirs r hr)
  · exact hlt.not_ge (hentries e he r hr)

/-- While the ranges of both lists of entries lie inside the source, a directory read as the other list parses alike
when the recognised entries agree (41_container_header_parser.md R172; log 12). -/
theorem parseContainer_readDirectory_congr {c : Config} {b : List Byte} {entries : List DirEntry}
    (hmagic : checkMagic c b = .present) (hread : entriesInside c b (c.readDirectory b) = true)
    (hentries : entriesInside c b entries = true)
    (hknown : entries.filter (fun e => c.knownTag e.tag) = (c.readDirectory b).filter fun e => c.knownTag e.tag) :
    parseContainer { c with readDirectory := fun _ => entries } b = parseContainer c b := by
  have hother : parseContainer { c with readDirectory := fun _ => entries } b =
      if directoriesInside c b && entriesInside c b entries then extractFields c b entries
      else .error (outsideError c b) :=
    parseContainer_of_present (c := { c with readDirectory := fun _ => entries }) hmagic
  rw [hother, parseContainer_of_present hmagic, hread, hentries, extractFields_congr hknown]

/-- Settles O29: `parseContainer_of_outside` for a range that passes the end, `parseContainer_readDirectory_congr` for
entries whose tag is not recognised. -/
theorem directoryEntriesAreReadGenerically : Obligations.DirectoryEntriesAreReadGenerically := by
  intro c b hmagic
  refine ⟨fun hpast => ?_, fun entries hin hknown => ?_⟩
  · rw [parseContainer_of_outside hmagic (not_inside_of_range_past_end hpast)]
    exact (outsideError_cases c b).imp (congrArg Except.error) (congrArg Except.error)
  · obtain ⟨hread, hentries⟩ := List.forall_mem_append.mp hin
    exact parseContainer_readDirectory_congr hmagic ((entriesInside_iff c b _).mpr hread)
      ((entriesInside_iff c b _).mpr hentries) hknown

end Sys2Proof.Machine
end

section
/-! SUPPORT. The pixel format registry (42_pixel_format_registry.md): the laws of a descriptor, the lookup with the result
registers it fills, and the operand that asks for a GUID. -/

namespace Sys2Proof.Machine

/-! ## The laws of a descriptor -/

/-- The laws of 42_pixel_format_registry.md R206, those of the bit depth left to `depthLaw`. -/
theorem descriptorOk_iff (d : Descriptor) : descriptorOk d = true ↔
    (1 ≤ d.channels.toNat ∧ 1 ≤ d.bpp.toNat) ∧ (d.premultipliedAlpha = true → d.hasAlpha = true) ∧
      (d.hasAlpha = true → 2 ≤ d.channels.toNat) ∧ depthLaw d = true := by
  cases hp : d.premultipliedAlpha <;> cases ha : d.hasAlpha <;> simp [descriptorOk, hp, ha, and_assoc]

/-- Law (4) of 42_pixel_format_registry.md R206. -/
theorem depthLaw_aligned {d : Descriptor} {n : Nat} (h : depthLaw d = true) (hk : sampleKind d.depth = .aligned n) :
    d.bpp.toNat % 8 = 0 ∧ d.channels.toNat * (8 * n) ≤ d.bpp.toNat := by
  unfold depthLaw at h
  cases hd : d.depth <;> rw [hd] at h hk <;> cases hk <;> simpa [sampleBits] using h

/-- Law (5) of 42_pixel_format_registry.md R206. -/
theorem depthLaw_bit {d : Descriptor} (h : depthLaw d = true) (hk : sampleKind d.depth = .bit) :
    d.channels.toNat = 1 ∧ d.bpp.toNat = 1 := by
  unfold depthLaw at h
  cases hd : d.depth <;> rw [hd] at h hk <;> cases hk <;> simpa [← BitVec.toNat_inj] using h.symm

/-- Law (6) of 42_pixel_format_registry.md R206. -/
theorem depthLaw_packed {d : Descriptor} (h : depthLaw d = true) (hk : sampleKind d.depth = .packed) :
    d.bpp.toNat = (if d.depth = .bd10 then 32 else 16) ∧ d.channels.toNat = 3 := by
  unfold depthLaw at h
  cases hd : d.depth <;> rw [hd] at h hk <;> cases hk <;> simpa [← BitVec.toNat_inj] using h

/-- Settles O45: `registry_ok`, with the laws taken apart by the layout of the bit depth. -/
theorem registryDescriptorsKeepTheirLaws : Obligations.RegistryDescriptorsKeepTheirLaws := by
  intro c g d hreg
  obtain ⟨hpos, hpremultiplied, halpha, hdepth⟩ := (descriptorOk_iff d).mp (registry_ok hreg)
  refine ⟨rfl, hpos, hpremultiplied, halpha, ⟨fun h => ?_, ?_, ?_⟩, ?_, ?_, fun h => ?_⟩
  · exact depthLaw_aligned hdepth (by rw [h]; rfl)
  · rintro (h | h | h) <;> exact depthLaw_aligned hdepth (by rw [h]; rfl)
  · rintro (h | h) <;> exact depthLaw_aligned hdepth (by rw [h]; rfl)
  · rintro (h | h) <;> exact depthLaw_bit hdepth (by rw [h]; rfl)
  · rintro (h | h) <;> simpa [h] using depthLaw_packed hdepth (by rw [h]; rfl)
  · simpa [h] using depthLaw_packed hdepth (by rw [h]; rfl)

/-! ## LOOKUP_PIXEL_FORMAT -/

/-- A GUID the registry lacks (42_pixel_format_registry.md R204). -/
theorem exec_lookup_of_none {s : State} (h : registry Config.chip s.guidOperand = none) :
    exec .lookupPixelFormat s = .next (completed s (some .unknownPixelFormat)) :=
  exec_of_raise (by simp only [performOf, performLookup, h])

/-- A GUID the registry holds (42_pixel_format_registry.md R204). -/
theorem exec_lookup_of_some {s : State} {d : Descriptor} (h : registry Config.chip s.guidOperand = some d) :
    exec .lookupPixelFormat s = .next (completed { s with res := descriptorRes s.res d } none) :=
  exec_of_complete (by simp only [performOf, performLookup, h, setDescriptor_eq])

/-- Settles O43: the two ends of the lookup, and the number of each tag. -/
theorem lookupReportsTheRegistry : Obligations.LookupReportsTheRegistry := by
  refine ⟨decodeWord_eq_ok_iff.mpr rfl, fun s => ?_, fun s d hreg => ⟨_, exec_lookup_of_some hreg, ?_, ?_⟩⟩
  · cases hreg : registry Config.chip s.guidOperand with
    | none => exact exec_lookup_of_none hreg
    | some d => exact exec_lookup_of_some hreg
  · change (colorCode d.color).setWidth 32 = _
    cases d.color <;> rfl
  · change (depthCode d.depth).setWidth 32 = _
    cases d.depth <;> rfl

/-! ## The row of R205 -/

theorem registry_scenarioGuid (c : Config) : registry c c.scenarioGuid = some (scenarioDescriptor c) := if_pos rfl

/-- Bit 0 of RES4 (42_pixel_format_registry.md R201). -/
theorem descriptorRes_alpha (r : Vector Word 8) (d : Descriptor) : (descriptorRes r d)[4].getLsbD 0 = d.hasAlpha :=
  (BitVec.getLsbD_append (y := BitVec.ofBool d.hasAlpha)).trans (by simp)

/-- Bytes `4 q` to `4 q + 3` of a GUID as the word of ARG register `q` (30_encoding.md R111). -/
def guidArg (g : Guid) (q : Fin 4) : Word :=
  g[4 * q.val + 3] ++ g[4 * q.val + 2] ++ g[4 * q.val + 1] ++ g[4 * q.val]

/-- The ARG registers with a GUID for their operand (30_encoding.md R111). -/
def guidArgs (g : Guid) : Vector Word 8 := #v[guidArg g 0, guidArg g 1, guidArg g 2, guidArg g 3, 0, 0, 0, 0]

theorem guidOperand_of_guidArgs {s : State} {g : Guid} (h : s.latch.args = guidArgs g) : s.guidOperand = g := by
  refine guidOperandIsThePackedGuid s g fun q => ?_
  rw [h]
  fin_cases q <;> rfl

/-- Settles O44: the operand is the GUID of the chip's fixed row. -/
theorem registryHoldsTheScenarioRow : Obligations.RegistryHoldsTheScenarioRow := by
  refine ⟨guidArgs Config.chip.scenarioGuid, fun s hargs => ?_⟩
  have hreg : registry Config.chip s.guidOperand = some (scenarioDescriptor Config.chip) := by
    rw [guidOperand_of_guidArgs hargs, registry_scenarioGuid]
  exact ⟨_, exec_lookup_of_some hreg, rfl, rfl, rfl, rfl, descriptorRes_alpha s.res _⟩

end Sys2Proof.Machine
end

section
/-! SUPPORT. The decode order (45_macroblock_predictor.md R272): one macroblock comes before another when the pair, in this
order, is a sublist of `DecodeOrder`; the raster orders of the tiles and of a tile's macroblocks give such pairs. -/

namespace Sys2Proof.Machine

/-- The pairs of an ordered list stand in the order of its relation. -/
theorem pair_sublist_of_pairwise {α : Type} {R : α → α → Prop} {l : List α} (hl : l.Pairwise R) {a b : α} (ha : a ∈ l)
    (hb : b ∈ l) (hne : a ≠ b) (hba : ¬ R b a) : [a, b].Sublist l := by
  induction hl with
  | nil => cases ha
  | @cons x l hx _ ih =>
    rcases List.mem_cons.mp ha with rfl | ha' <;> rcases List.mem_cons.mp hb with rfl | hb'
    · exact absurd rfl hne
    · exact (List.singleton_sublist.mpr hb').cons_cons a
    · exact absurd (hx a ha') hba
    · exact (ih ha' hb').cons x

theorem idxOf_lt_of_pair_sublist {α : Type} [DecidableEq α] {l : List α} (hl : l.Nodup) {a b : α}
    (hab : [a, b].Sublist l) : l.idxOf a < l.idxOf b := by
  have hidx : l.Pairwise fun x y => l.idxOf x < l.idxOf y := by
    refine List.pairwise_iff_getElem.mpr fun i j hi hj hij => ?_
    rwa [hl.idxOf_getElem i hi, hl.idxOf_getElem j hj]
  exact List.pairwise_iff_forall_sublist.mp hidx hab

/-- No macroblock is listed twice: none within its tile, and no two tiles share one (45_macroblock_predictor.md R273). -/
theorem decodeOrder_nodup (h : Header) : (decodeOrder h).Nodup := by
  refine List.nodup_flatMap.mpr ⟨fun t _ => tileMBs_nodup t, (tiles_nodup h).imp_of_mem ?_⟩
  intro t u ht hu hne m hmt hmu
  exact hne (tiles_unique ht hu hmt hmu)

theorem mem_decodeOrder {h : Header} {m : MB} : m ∈ decodeOrder h ↔ m.col < mbCols h ∧ m.row < mbRows h := by
  constructor
  · intro hm
    obtain ⟨t, ht, hmt⟩ := List.mem_flatMap.mp hm
    obtain ⟨hrows, hcols⟩ := mem_tiles.mp ht
    obtain ⟨_, hcol, _, hrow⟩ := mem_tileMBs.mp hmt
    exact ⟨hcol.trans_le (spans_bounds hcols).2.2, hrow.trans_le (spans_bounds hrows).2.2⟩
  · rintro ⟨hcol, hrow⟩
    exact List.mem_flatMap.mpr (tiles_cover hcol hrow)

/-- A tile's macroblocks come before those of a tile after it in raster order. -/
theorem idxOf_lt_of_tile_before {h : Header} {t u : Tile} (ht : t ∈ tiles h) (hu : u ∈ tiles h)
    (htu : t.r0 < u.r0 ∨ (t.r0 = u.r0 ∧ t.c0 < u.c0)) {m n : MB} (hm : m ∈ tileMBs t) (hn : n ∈ tileMBs u) :
    (decodeOrder h).idxOf m < (decodeOrder h).idxOf n := by
  have hne : t ≠ u := by
    rintro rfl
    omega
  have htiles : [t, u].Sublist (tiles h) := pair_sublist_of_pairwise (tiles_raster h) ht hu hne (by omega)
  have hpair : [m, n].Sublist ([t, u].flatMap tileMBs) := by
    simpa using (List.singleton_sublist.mpr hm).append (List.singleton_sublist.mpr hn)
  exact idxOf_lt_of_pair_sublist (decodeOrder_nodup h) (hpair.trans (htiles.flatMap tileMBs))

/-- The macroblocks of one tile come in raster order. -/
theorem idxOf_lt_of_raster_before {h : Header} {t : Tile} (ht : t ∈ tiles h) {m n : MB} (hm : m ∈ tileMBs t)
    (hn : n ∈ tileMBs t) (hmn : m.row < n.row ∨ (m.row = n.row ∧ m.col < n.col)) :
    (decodeOrder h).idxOf m < (decodeOrder h).idxOf n := by
  have hne : m ≠ n := by
    rintro rfl
    omega
  have htile : (tileMBs t).Sublist (decodeOrder h) := by
    simpa [decodeOrder] using (List.singleton_sublist.mpr ht).flatMap tileMBs
  have hpair : [m, n].Sublist (tileMBs t) := pair_sublist_of_pairwise (tileMBs_raster t) hm hn hne (by omega)
  exact idxOf_lt_of_pair_sublist (decodeOrder_nodup h) (hpair.trans htile)

/-- Settles O56: the tiles partition the grid, and the raster orders of tiles and macroblocks order the listing; a left or
above neighbour is an earlier macroblock of the tile. -/
theorem decodeOrderListsEveryMacroblockOnce : Obligations.DecodeOrderListsEveryMacroblockOnce := by
  intro h
  refine ⟨decodeOrder_nodup h, fun _ => mem_decodeOrder,
    fun t ht u hu htu m hm n hn => idxOf_lt_of_tile_before ht hu htu hm hn,
    fun t ht m hm n hn hmn => idxOf_lt_of_raster_before ht hm hn hmn, fun t ht m hm => ⟨fun hleft => ?_, fun habove => ?_⟩⟩
  all_goals obtain ⟨hc0, hc1, hr0, hr1⟩ := mem_tileMBs.mp hm
  · exact idxOf_lt_of_raster_before ht (mem_tileMBs.mpr (by dsimp only; omega)) hm (.inr ⟨rfl, by dsimp only; omega⟩)
  · exact idxOf_lt_of_raster_before ht (mem_tileMBs.mpr (by dsimp only; omega)) hm (.inl (by dsimp only; omega))

end Sys2Proof.Machine
end

section
/-! SUPPORT. Where a failing decode stops (45_macroblock_predictor.md R276, R277): the tile, the entry it was given and the
macroblock, each with what was decoded before it. -/

namespace Sys2Proof.Machine

/-- The bit position an entry of a tile stands for, inside the source or not (43_entropy_decoder.md R226). -/
def entryBit (prev : Nat) : TileEntry → Nat
  | .indexTable off => 8 * off
  | .previousEnd => prev

/-- An entry lies inside the source and the first declared extent (43_entropy_decoder.md R226, 40_bitstream_reader.md
R143). -/
def EntryInside (e : Extent) (len prev : Nat) (entry : TileEntry) : Prop :=
  (∀ off, entry = .indexTable off → off ≤ len) ∧
    8 * e.offset ≤ entryBit prev entry ∧ entryBit prev entry < 8 * (e.offset + e.length)

theorem startInside_iff {e : Extent} {pos : Nat} :
    startInside e pos = true ↔ 8 * e.offset ≤ pos ∧ pos < 8 * (e.offset + e.length) := by
  rw [startInside, Bool.and_eq_true, decide_eq_true_eq, decide_eq_true_eq, Extent.endBit]

theorem tileStart_eq_some_iff {c : Config} {b : List Byte} {h : Header} {t : Tile} {prev pos : Nat} :
    tileStart c b h t prev = some pos ↔
      EntryInside (firstExtent h) b.length prev (c.tileStart b h t) ∧ entryBit prev (c.tileStart b h t) = pos := by
  cases ht : c.tileStart b h t with
  | indexTable off => simp [tileStart_indexTable ht, EntryInside, entryBit, startInside_iff]
  | previousEnd => simp [tileStart_previousEnd ht, EntryInside, entryBit, startInside_iff]

theorem tileStart_eq_none_iff {c : Config} {b : List Byte} {h : Header} {t : Tile} {prev : Nat} :
    tileStart c b h t prev = none ↔ ¬ EntryInside (firstExtent h) b.length prev (c.tileStart b h t) := by
  simp [Option.eq_none_iff_forall_ne_some, tileStart_eq_some_iff]

/-- A failing run of macroblocks stops at the first that fails. -/
theorem decodeTileMBs_fail {c : Config} {b : List Byte} {h : Header} {t : Tile} {ms : List MB} {ctx : List Int}
    {p : Progress} {e : DecodeError} {m : MB} (hfail : decodeTileMBs c b h t ms ctx p = .fail e m) :
    ∃ pre post, ms = pre ++ m :: post ∧ (∃ p', decodeTileMBs c b h t pre ctx p = .ok p') ∧
      decodeTileMBs c b h t (pre ++ [m]) ctx p = .fail e m := by
  induction ms generalizing ctx p with
  | nil => cases hfail
  | cons n ms ih =>
    rcases decodeMB_cases c b h (firstExtent h) ctx p.pos n with ⟨x, _, hd⟩ | ⟨code, pos, hd, _, hs⟩
    · simp only [decodeTileMBs, hd] at hfail
      cases hfail
      exact ⟨[], ms, rfl, ⟨p, rfl⟩, by simp only [List.nil_append, decodeTileMBs, hd]⟩
    · obtain ⟨r, hr, _⟩ := reconMB_ok hs b t p.done
      simp only [decodeTileMBs, hd, hr] at hfail
      obtain ⟨pre, post, rfl, ⟨p', hpre⟩, hm⟩ := ih hfail
      exact ⟨n :: pre, post, rfl, ⟨p', by simpa only [decodeTileMBs, hd, hr] using hpre⟩,
        by simpa only [List.cons_append, decodeTileMBs, hd, hr] using hm⟩

/-- The decode of tile `t`, after `p`, fails with `e` at `m` once `ms` are decoded; when the tile's entry is outside the
first extent, `m` is its first macroblock and the error CorruptStream (log 11). -/
def TileFailsAt (c : Config) (b : List Byte) (h : Header) (t : Tile) (p : Progress) (ms : List MB) (e : DecodeError)
    (m : MB) : Prop :=
  let entry := c.tileStart b h t
  let inside := EntryInside (firstExtent h) b.length p.pos entry
  (¬ inside ∧ ms = [] ∧ e = .corruptStream) ∨
    (inside ∧ (∃ p', decodeTileMBs c b h t ms (c.initCtx h t) ⟨p.done, entryBit p.pos entry⟩ = .ok p') ∧
      decodeTileMBs c b h t (ms ++ [m]) (c.initCtx h t) ⟨p.done, entryBit p.pos entry⟩ = .fail e m)

theorem decodeTile_fail {c : Config} {b : List Byte} {h : Header} {t : Tile} {p : Progress} {e : DecodeError} {m : MB}
    (hfail : decodeTile c b h t p = .fail e m) :
    ∃ ms ms', tileMBs t = ms ++ m :: ms' ∧ TileFailsAt c b h t p ms e m := by
  unfold decodeTile at hfail
  cases hms : tileMBs t with
  | nil =>
    rw [hms] at hfail
    cases hfail
  | cons n ns =>
    rw [hms] at hfail
    cases hstart : tileStart c b h t p.pos with
    | none =>
      simp only [hstart] at hfail
      cases hfail
      exact ⟨[], ns, rfl, .inl ⟨tileStart_eq_none_iff.mp hstart, rfl, rfl⟩⟩
    | some pos =>
      simp only [hstart] at hfail
      obtain ⟨hinside, rfl⟩ := tileStart_eq_some_iff.mp hstart
      obtain ⟨pre, post, hsplit, hpre, hm⟩ := decodeTileMBs_fail hfail
      exact ⟨pre, post, hsplit, .inr ⟨hinside, hpre, hm⟩⟩

/-- A failing run of tiles stops at the first that fails. -/
theorem decodeTiles_fail {c : Config} {b : List Byte} {h : Header} {ts : List Tile} {p : Progress} {e : DecodeError}
    {m : MB} (hfail : decodeTiles c b h ts p = .fail e m) :
    ∃ pre t post p', ts = pre ++ t :: post ∧ decodeTiles c b h pre p = .ok p' ∧ decodeTile c b h t p' = .fail e m := by
  induction ts generalizing p with
  | nil => cases hfail
  | cons u ts ih =>
    rcases decodeTile_cases c b h u p with ⟨q, hu, _⟩ | ⟨x, n, hu, _, _⟩
    · simp only [decodeTiles, hu] at hfail
      obtain ⟨pre, t, post, p', rfl, hpre, ht⟩ := ih hfail
      exact ⟨u :: pre, t, post, p', rfl, by simpa only [decodeTiles, hu] using hpre, ht⟩
    · simp only [decodeTiles, hu] at hfail
      cases hfail
      exact ⟨[], u, ts, p, rfl, rfl, hu⟩

theorem decodeTiles_fail_of_refDecode_fail {c : Config} {b : List Byte} {h : Header} {e : DecodeError} {m : MB}
    (hfail : refDecode c b h = .fail e m) : decodeTiles c b h (tiles h) (startProgress c b h) = .fail e m := by
  unfold refDecode at hfail
  split at hfail
  · cases hfail
  · next hd =>
    cases hfail
    exact hd
  · cases hfail

theorem take_idxOf_of_nodup {α : Type} [DecidableEq α] {l pre post : List α} {a : α} (hl : l.Nodup)
    (hsplit : l = pre ++ a :: post) : l.take (l.idxOf a) = pre := by
  subst hsplit
  have ha : a ∉ pre := fun hmem => List.disjoint_of_nodup_append hl hmem List.mem_cons_self
  rw [List.idxOf_append_of_notMem ha, List.idxOf_cons_self, Nat.add_zero, List.take_left]

/-- Settles O55: the decode stops at the first tile that fails, and in it at the first macroblock that does. -/
theorem failingMacroblockIsOfTheImage : Obligations.FailingMacroblockIsOfTheImage := by
  intro c b h e m hfail
  obtain ⟨ts, t, ts', p, htiles, hts, ht⟩ := decodeTiles_fail (decodeTiles_fail_of_refDecode_fail hfail)
  obtain ⟨ms, ms', hms, hat⟩ := decodeTile_fail ht
  have horder : decodeOrder h = (ts.flatMap tileMBs ++ ms) ++ m :: (ms' ++ ts'.flatMap tileMBs) := by
    simp [decodeOrder, htiles, hms]
  have hgrid : m.col < mbCols h ∧ m.row < mbRows h := mem_decodeOrder.mp (by simp [horder])
  exact ⟨hgrid, ts, t, ts', ms, ms', p, htiles, hms, take_idxOf_of_nodup (decodeOrder_nodup h) horder, hts, hat⟩

end Sys2Proof.Machine
end

section
/-! SUPPORT. The pixel format converter (46_pixel_format_converter.md): the memory order of a pixel's samples, its bytes
in the two layouts of R293 and R294, and what COPY_REGION leaves in the row spans and outside them. -/

namespace Sys2Proof.Machine

/-! ## Memory order -/

theorem memoryOrder_of_canonical {d : Descriptor} (h : d.channelOrderReversed = false) (smp : List Nat) :
    memoryOrder d smp = smp := by
  simp [memoryOrder, h]

/-- The colour channels are reversed, and what follows them stays where it is (46_pixel_format_converter.md R292). -/
theorem memoryOrder_of_reversed {d : Descriptor} (h : d.channelOrderReversed = true) {colors : List Nat}
    (hn : colors.length = colorChannels d) (rest : List Nat) :
    memoryOrder d (colors ++ rest) = colors.reverse ++ rest := by
  simp [memoryOrder, h, ← hn]

/-- Settles O60: the colour channels are all of them, or with alpha all but one. -/
theorem reversedFormatsKeepAlphaLast : Obligations.ReversedFormatsKeepAlphaLast := by
  refine fun d colors alpha => ⟨memoryOrder_of_canonical, fun hrev ha hn => ?_, fun hrev ha hn => ?_⟩
  · simpa using memoryOrder_of_reversed hrev (show colors.length = colorChannels d by simp [colorChannels, ha, hn]) []
  · exact memoryOrder_of_reversed hrev (by simp [colorChannels, ha, ← hn]) [alpha]

/-! ## Byte-aligned pixels -/

/-- Samples of `n` bytes each, one after another: byte `k` of sample `j` is byte `j * n + k` of them all. -/
theorem flatMap_leBytes_getElem? {n k : Nat} (hk : k < n) {l : List Nat} {j : Nat} (hj : j < l.length) :
    (l.flatMap (leBytes n))[j * n + k]? = some (BitVec.ofNat 8 (l.getD j 0 / 256 ^ k)) := by
  induction l generalizing j with
  | nil => simp at hj
  | cons v l ih =>
    rw [List.flatMap_cons]
    cases j with
    | zero =>
      rw [Nat.zero_mul, Nat.zero_add, List.getElem?_append_left (by simpa using hk), leBytes_getElem? hk]
      rfl
    | succ j =>
      rw [List.getElem?_append_right (by rw [leBytes_length, Nat.succ_mul]; omega), leBytes_length,
        show (j + 1) * n + k - n = j * n + k by rw [Nat.succ_mul]; omega, ih (by simpa using hj)]
      rfl

theorem packPixel_of_aligned {d : Descriptor} {n : Nat} (hk : sampleKind d.depth = .aligned n) (smp : List Nat) :
    packPixel d smp = (memoryOrder d smp).flatMap (leBytes n) ++
      List.replicate (bytesPerPixel d - d.channels.toNat * n) 0 := by
  simp only [packPixel, hk]

/-- Settles O58: the samples' bytes come first, and the rest of the pixel is padding. -/
theorem alignedPixelIsLittleEndianAndPadded : Obligations.AlignedPixelIsLittleEndianAndPadded := by
  intro d smp n hd hlen hdepth
  have hkind : sampleKind d.depth = .aligned n := by
    rcases hdepth with ⟨h, rfl⟩ | ⟨h | h | h, rfl⟩ | ⟨h | h, rfl⟩ <;> rw [h] <;> rfl
  have hsamples : ((memoryOrder d smp).flatMap (leBytes n)).length = d.channels.toNat * n := by
    rw [flatMap_leBytes_length, memoryOrder_length, hlen]
  refine ⟨packPixel_length hd (by simp [hkind]) hlen, fun j k hj hk => ?_, fun q hq hlt => ?_⟩
  · rw [packPixel_of_aligned hkind, List.getElem?_append_left (by rw [hsamples]; exact pixel_in_row hj hk)]
    exact flatMap_leBytes_getElem? hk (by rwa [memoryOrder_length, hlen])
  · rw [packPixel_of_aligned hkind, List.getElem?_append_right (by rwa [hsamples]), hsamples,
      List.getElem?_replicate_of_lt (by unfold bytesPerPixel; omega)]

/-! ## Packed pixels -/

/-- The three samples of a packed pixel in memory order (46_pixel_format_converter.md R292, R294). -/
theorem memoryOrder_three {d : Descriptor} (hc : d.channels.toNat = 3) (a b c : Nat) : memoryOrder d [a, b, c] =
    if d.channelOrderReversed then (if d.hasAlpha then [b, a, c] else [c, b, a]) else [a, b, c] := by
  cases hr : d.channelOrderReversed with
  | false => exact memoryOrder_of_canonical hr _
  | true =>
    cases ha : d.hasAlpha with
    | false => exact memoryOrder_of_reversed (colors := [a, b, c]) hr (by simp [colorChannels, hc, ha]) []
    | true => exact memoryOrder_of_reversed (colors := [a, b]) hr (by simp [colorChannels, hc, ha]) [c]

theorem sampleWidths_three {d : Descriptor} (hc : d.channels.toNat = 3) :
    sampleWidths d = [sampleBits d.depth 0, sampleBits d.depth 1, sampleBits d.depth 2] := by
  rw [sampleWidths, hc]
  rfl

/-- Fields that fit their widths make a word that fits the sum of the widths. -/
theorem packedWord_lt {fields : List (Nat × Nat)} (h : ∀ f ∈ fields, f.2 < 2 ^ f.1) :
    packedWord fields < 2 ^ (fields.map Prod.fst).sum := by
  induction fields with
  | nil => simp [packedWord]
  | cons f fields ih =>
    obtain ⟨w, v⟩ := f
    have hrest := ih fun f hf => h f (List.mem_cons_of_mem _ hf)
    have hcat := pixel_in_row hrest (h (w, v) List.mem_cons_self)
    rw [List.map_cons, List.sum_cons, Nat.add_comm w, Nat.pow_add, packedWord, Nat.add_comm v, Nat.mul_comm]
    exact hcat

/-- The bytes of a packed pixel whose fields fit hold the three fields, the first lowest (46_pixel_format_converter.md
R294). -/
theorem leNat_packPixel_packed {d : Descriptor} {smp : List Nat} {v0 v1 v2 w0 w1 w2 : Nat}
    (hk : sampleKind d.depth = .packed) (hwidths : memoryOrder d (sampleWidths d) = [w0, w1, w2])
    (hfit : w0 + w1 + w2 ≤ 8 * bytesPerPixel d) (hsmp : memoryOrder d smp = [v0, v1, v2])
    (h0 : v0 < 2 ^ w0) (h1 : v1 < 2 ^ w1) (h2 : v2 < 2 ^ w2) :
    leNat (packPixel d smp) = v0 + 2 ^ w0 * v1 + 2 ^ (w0 + w1) * v2 := by
  have hword : packedWord [(w0, v0), (w1, v1), (w2, v2)] < 256 ^ bytesPerPixel d := by
    have hfields : ∀ f ∈ [(w0, v0), (w1, v1), (w2, v2)], f.2 < 2 ^ f.1 := by simp [h0, h1, h2]
    calc
      packedWord [(w0, v0), (w1, v1), (w2, v2)] < 2 ^ (w0 + w1 + w2) := by
        simpa [Nat.add_assoc] using packedWord_lt hfields
      _ ≤ 2 ^ (8 * bytesPerPixel d) := Nat.pow_le_pow_right (by decide) hfit
      _ = 256 ^ bytesPerPixel d := Nat.pow_mul 2 8 _
  simp only [packPixel, hk, hwidths, hsmp, List.zip_cons_cons, List.zip_nil_left, leNat_leBytes, Nat.mod_eq_of_lt hword]
  simp only [packedWord]
  ring

/-- Settles O59: the memory order of the widths at each depth, and fields that fit the word. -/
theorem packedPixelStartsAtTheLowestBits : Obligations.PackedPixelStartsAtTheLowestBits := by
  intro d smp v0 v1 v2 w0 w1 w2 hd hdepth hsmp h0 h1 h2
  have hkind : sampleKind d.depth = .packed := by
    rcases hdepth with ⟨h, _⟩ | ⟨h, _⟩ | ⟨h, _⟩ | ⟨h, _⟩ <;> rw [h] <;> rfl
  obtain ⟨-, -, -, hlaw⟩ := (descriptorOk_iff d).mp hd
  obtain ⟨hbpp, hchannels⟩ := depthLaw_packed hlaw hkind
  have hwidths : memoryOrder d (sampleWidths d) = [w0, w1, w2] := by
    rw [sampleWidths_three hchannels, memoryOrder_three hchannels]
    rcases hdepth with ⟨h, rfl, rfl, rfl⟩ | ⟨h, rfl, rfl, rfl⟩ | ⟨h, hmoved, rfl, rfl, rfl⟩ |
      ⟨h, ⟨hrev, ha⟩, rfl, rfl, rfl⟩
    · simp [h, sampleBits]
    · simp [h, sampleBits]
    · cases hrev : d.channelOrderReversed with
      | false => simp [h, sampleBits]
      | true => simpa [h, hrev, sampleBits] using hmoved
    · simp [h, hrev, ha, sampleBits]
  have hfit : w0 + w1 + w2 ≤ 8 * bytesPerPixel d := by
    rcases hdepth with ⟨h, rfl, rfl, rfl⟩ | ⟨h, rfl, rfl, rfl⟩ | ⟨h, _, rfl, rfl, rfl⟩ | ⟨h, _, rfl, rfl, rfl⟩ <;>
      simp [bytesPerPixel, hbpp, h]
  have hlen : smp.length = d.channels.toNat := by rw [← memoryOrder_length d, hsmp, hchannels]; rfl
  exact ⟨packPixel_length hd (by simp [hkind]) hlen, leNat_packPixel_packed hkind hwidths hfit hsmp h0 h1 h2⟩

/-! ## The row spans of COPY_REGION -/

/-- COPY_REGION past its checks, when the decode gives pixels (47_session_commands.md R329). -/
theorem performCopyRegion_of_pixels {c : Config} {s : State} {h : Header} {pix : Image} (hr : CopyReaches h s)
    (ho : regionOutcome c s.sourceBytes h (copyRect s) = .ok pix) :
    performCopyRegion c s = .ok (complete (copyWrite s ⟨h, copyRect s, s.spansOperand h.fmt⟩ pix)) := by
  simp only [performCopyRegion, copyChecks_ok.mpr ⟨h, hr, rfl⟩, ho]

/-- Settles O35: the bytes of a region's pixels are those of `copyWrite_pixel`. -/
theorem copiedPixelsStandAtTheirAddresses : Obligations.CopiedPixelsStandAtTheirAddresses := by
  intro c s h pix hm hd hr ho
  refine ⟨_, performCopyRegion_of_pixels hr ho, ?_⟩
  rw [copyWrite_eq hr.1]
  exact ⟨rfl, fun i r k hi hrow hk => copyWrite_pixel hm hd hr pix hi hrow hk⟩

/-- Settles O36: of the three ends of COPY_REGION, one writes nothing and the others write row-span bytes alone. -/
theorem copyRegionWritesRowSpansAlone : Obligations.CopyRegionWritesRowSpansAlone := by
  intro s t a hd hexec hout
  obtain ⟨p, hp, he⟩ := exec_effect .copyRegion s
  cases hp.symm.trans hexec
  rcases he with ⟨_, _, rfl⟩ | ⟨h, pix, hr, _, rfl⟩ | ⟨h, _, _, hr, _, rfl⟩
  · rfl
  · exact Memory.read_writeAll_other fun x hx e => hout h hr.1 (e ▸ regionCells_span (hd h hr.1) hr hx)
  · exact Memory.read_writeAll_other fun x hx e => hout h hr.1 (e ▸ anyCells_span hx)

end Sys2Proof.Machine
end

section
/-! SUPPORT. The block's place in the host's queue (47_session_commands.md R321), and the acceptance of a CMD write
(R320). -/

namespace Sys2Proof.Machine

theorem blockStep_legal {s : State} {i : Instr} (hv : s.latch.valid = true) (hd : decodeWord s.latch.word = .ok i) :
    blockStep s = settleRace Config.chip (exec i s) := by
  rcases blockStep_cases s with ⟨hidle, _⟩ | ⟨_, j, hj, h⟩ | ⟨_, ⟨e, he⟩, _⟩
  · cases hidle.symm.trans hv
  · cases hj.symm.trans hd
    exact h
  · cases he.symm.trans hd

/-- With nothing contested, the settling of races changes nothing (20_memory.md R96). -/
theorem settleRace_of_uncontested {s : State} (h : s.contested = []) (i : Instr) :
    settleRace Config.chip (exec i s) = exec i s := by
  obtain ⟨p, hp, _⟩ := exec_effect i s
  rw [hp]
  exact congrArg Host.Outcome.next (State.drawContested_of_nil ((contested_exec hp).trans h) _)

/-- Settles O4: every place in the queue comes to `blockStep_legal`. -/
theorem stepRunsTheLatchedCommand : Obligations.StepRunsTheLatchedCommand := by
  intro s i hv hd _
  exact ⟨fun h => (step_of_empty_queue h).trans (blockStep_legal hv hd),
    fun es h => (step_blockTurn h).trans (blockStep_legal (s := { s with host := es }) hv hd),
    fun es h => (step_wait_of_busy h hv).trans (blockStep_legal hv hd),
    fun h => settleRace_of_uncontested h i⟩

theorem State.onCmdWrite_of_busy {s : State} (h : s.latch.valid = true) (v : Word) :
    s.onCmdWrite v = { s with overrun := true } := by
  simp [State.onCmdWrite, h]

/-- Settles O19: the offset is CMD's, and `onCmdWrite` has a branch for the idle block and one for the BUSY block. -/
theorem cmdWriteIsAcceptedOrDropped : Obligations.CmdWriteIsAcceptedOrDropped := by
  refine ⟨fun s v es h => ?_, fun _ => rfl⟩
  have hstep : step s = .next ({ s with host := es }.onCmdWrite v) := step_regWrite_word h rfl
  refine ⟨fun hidle => ?_, fun hbusy => ?_⟩
  · exact hstep.trans (congrArg _ (State.onCmdWrite_of_idle (s := { s with host := es }) hidle v))
  · exact hstep.trans (congrArg _ (State.onCmdWrite_of_busy (s := { s with host := es }) hbusy v))

end Sys2Proof.Machine
end

section
/-! SUPPORT. The invariants of the machine (47_session_commands.md R323): what a command leaves of the reader and the
session, and the frame, the races and host memory under each host event. -/

namespace Sys2Proof.Machine

/-! ## The reader and the session -/

/-- The part of the invariants that speaks of the reader and the session: R323, 20_memory.md R83 and
41_container_header_parser.md R174. -/
def SourceInv (s : State) : Prop :=
  ReaderInv s.rdr ∧ ∀ h, s.session.header? = some h → s.rdr.bound = true ∧ HeaderInv h s.rdr.len.toNat

theorem readerInv_unbound : ReaderInv Reader.unbound := ⟨by decide, by decide, fun _ => rfl⟩

theorem SourceInv.of_eq {s t : State} (hs : SourceInv s) (hx : t.session = s.session) (hr : t.rdr = s.rdr) :
    SourceInv t := by
  unfold SourceInv
  rw [hx, hr]
  exact hs

theorem SourceInv.of_closed {t : State} (hx : t.session = .closed) (hr : ReaderInv t.rdr) : SourceInv t := by
  refine ⟨hr, fun h hh => ?_⟩
  rw [hx] at hh
  cases hh

/-- Every bit position of a source fits the cursor's register (10_state.md R43). -/
theorem cursor_toNat {p : Nat} {len : Word} (hp : p ≤ 8 * len.toNat) : (BitVec.ofNat 35 p).toNat = p := by
  rw [BitVec.toNat_ofNat]
  exact Nat.mod_eq_of_lt (by omega)

/-- A cursor set inside the bound source (47_session_commands.md R323 (3)). -/
theorem readerInv_setCursor {r : Reader} (hr : ReaderInv r) (hb : r.bound = true) {p : Nat} (hp : p ≤ 8 * r.len.toNat) :
    ReaderInv { r with bitpos := BitVec.ofNat 35 p } := by
  obtain ⟨_, hspace, _⟩ := hr
  refine ⟨?_, hspace, fun hunbound => ?_⟩
  · rw [cursor_toNat hp]
    exact hp
  · cases hb.symm.trans hunbound

theorem SourceInv.of_cursor {s t : State} (hs : SourceInv s) (hb : s.rdr.bound = true) {p : Nat}
    (hp : p ≤ 8 * s.rdr.len.toNat) (hx : t.session.header? = s.session.header?)
    (hr : t.rdr = { s.rdr with bitpos := BitVec.ofNat 35 p }) : SourceInv t := by
  obtain ⟨hreader, hheader⟩ := hs
  unfold SourceInv
  rw [hx, hr]
  exact ⟨readerInv_setCursor hreader hb hp, hheader⟩

/-- The coded offset of a header lies inside its source (41_container_header_parser.md R174). -/
theorem codedBit_le_of_headerInv {h : Header} {len : Nat} (hh : HeaderInv h len) : 8 * h.codedOffset.toNat ≤ 8 * len := by
  obtain ⟨_, _, hinside, ⟨e, he, hoff⟩, _⟩ := hh
  have := hinside e (List.mem_of_head? he)
  omega

@[simp] theorem operandBytes_length (s : State) : (operandBytes s).length = s.u 1 := by simp [operandBytes]

/-- What OPEN's checks and the registry leave true of the header it stores (41_container_header_parser.md R174,
42_pixel_format_registry.md R206). -/
theorem headerInv_of_accept {c : Config} {b : List Byte} {q : Parsed} {d : Descriptor} (ha : accept c b = .ok q)
    (hd : registry c q.guid = some d) : HeaderInv { q with fmt := d } b.length := by
  obtain ⟨_, hwidth, hheight, hinside, hfirst⟩ := accept_ok ha
  exact ⟨hwidth, hheight, hinside, hfirst, registry_ok hd⟩

/-- A range bound with a cursor inside it (40_bitstream_reader.md R150, R155). -/
theorem readerInv_bound {base len : Word} {p : Nat} (hspace : base.toNat + len.toNat ≤ addrSpace)
    (hp : p ≤ 8 * len.toNat) : ReaderInv ⟨true, base, len, BitVec.ofNat 35 p⟩ :=
  ⟨(cursor_toNat hp).le.trans hp, hspace, fun h => by cases h⟩

theorem SourceInv.perform {i : Instr} {s : State} {p : Perform} (hs : SourceInv s) (he : EffectOf i s p) :
    SourceInv p.state := by
  cases i with
  | nop => cases he; exact hs
  | openSession =>
    rcases he with ⟨_, rfl⟩ | ⟨_, _, _, rfl⟩ | ⟨hspace, q, d, ha, hd, rfl⟩
    · exact hs
    · exact .of_closed rfl readerInv_unbound
    · have hheader := headerInv_of_accept ha hd
      rw [operandBytes_length] at hheader
      refine ⟨readerInv_bound hspace (codedBit_le_of_headerInv hheader), fun h hh => ?_⟩
      cases hh
      exact ⟨rfl, hheader⟩
  | getSize =>
    rcases he with ⟨_, rfl⟩ | ⟨_, _, rfl⟩
    · exact hs
    · exact hs.of_eq rfl rfl
  | getPixelFormat =>
    rcases he with ⟨_, rfl⟩ | ⟨_, _, rfl⟩
    · exact hs
    · exact hs.of_eq rfl rfl
  | copyRegion =>
    rcases he with ⟨_, _, rfl⟩ | ⟨h, _, hr, _, rfl⟩ | ⟨h, _, _, hr, _, rfl⟩
    · exact hs
    · obtain ⟨hb, hheader⟩ := hs.2 h hr.1
      exact hs.of_cursor hb (codedBit_le_of_headerInv hheader) hr.1.symm rfl
    · obtain ⟨hb, hheader⟩ := hs.2 h hr.1
      exact hs.of_cursor hb (codedBit_le_of_headerInv hheader) rfl rfl
  | close => cases he; exact .of_closed rfl readerInv_unbound
  | lookupPixelFormat =>
    rcases he with rfl | ⟨_, rfl⟩
    · exact hs
    · exact hs.of_eq rfl rfl
  | brBind =>
    rcases he with ⟨_, rfl⟩ | ⟨hspace, rfl⟩
    · exact hs
    · exact .of_closed rfl (readerInv_bound hspace (Nat.zero_le _))
  | brReadBits =>
    rcases he with ⟨_, rfl⟩ | ⟨hb, hp, rfl⟩
    · exact hs
    · exact hs.of_cursor hb hp rfl rfl
  | brAlign =>
    rcases he with rfl | ⟨hb, rfl⟩
    · exact hs
    · exact hs.of_cursor hb (alignToByte_le hs.1.1) rfl rfl
  | brSeek =>
    rcases he with ⟨_, rfl⟩ | ⟨hb, hp, rfl⟩
    · exact hs
    · exact hs.of_cursor hb (Nat.mul_le_mul_left 8 hp) rfl rfl
  | brTell =>
    rcases he with rfl | ⟨_, rfl⟩
    · exact hs
    · exact hs.of_eq rfl rfl

/-! ## The parts of the invariants -/

theorem machineInv_iff (s : State) :
    MachineInv s ↔ s.mem.wf = true ∧ SourceInv s ∧ FrameInv s ∧ RaceInv s := by
  unfold MachineInv SourceInv
  tauto

/-- An open session's format is lawful (42_pixel_format_registry.md R206). -/
theorem SourceInv.descriptorOk {s : State} (hs : SourceInv s) {h : Header} (hh : s.session.header? = some h) :
    descriptorOk h.fmt = true := by
  obtain ⟨_, _, _, _, _, hd⟩ := hs.2 h hh
  exact hd

/-- An idle block with nothing contested (10_state.md R34, 20_memory.md R96). -/
theorem machineInv_of_idle {t : State} (hm : t.mem.wf = true) (hs : SourceInv t) (hv : t.latch.valid = false)
    (hc : t.contested = []) (hcmd : t.cmd = t.latch.word) (hop : t.latch.op = opField t.latch.word) : MachineInv t := by
  refine (machineInv_iff t).mpr ⟨hm, hs, ⟨fun h => ?_, hcmd, hop⟩, fun _ => hc, ?_⟩
  · cases hv.symm.trans h
  · simp [hc]

/-- Settles O10: the reset state is idle, closed and unbound, and nothing is contested or listed in memory. -/
theorem resetHasTheInvariants : Obligations.ResetHasTheInvariants :=
  ⟨machineInv_of_idle rfl (.of_closed rfl readerInv_unbound) rfl rfl rfl rfl, fun _ hh => by cases hh⟩

/-! ## Commands -/

theorem machineInv_blockStep {s t : State} (hs : MachineInv s) (h : blockStep s = .next t) : MachineInv t := by
  obtain ⟨hm, hsource, ⟨_, hcmd, hop⟩, hrace⟩ := (machineInv_iff s).mp hs
  rcases blockStep_cases s with ⟨_, hb⟩ | ⟨_, i, _, hb⟩ | ⟨_, ⟨e, he⟩, hb⟩ <;> rw [hb] at h
  · cases h
    exact hs
  · obtain ⟨p, hexec, he⟩ := exec_effect i s
    rw [hexec] at h
    cases h
    obtain ⟨_, _, hcmd', _, hop', hword', _, _, _, hcontested⟩ := (effect_writesOwnSide he).hostSideKept
    have hbytes (a : Nat) (ha : Contested (completed p.state p.err) a) : a < addrSpace := by
      obtain ⟨⟨r, hr, hlo, hhi⟩, _⟩ := ha
      exact (hrace.2 r (hcontested ▸ hr) a hlo hhi).1
    refine machineInv_of_idle (drawContested_wf ?_ hbytes _) ((hsource.perform he).of_eq rfl rfl) rfl rfl ?_ ?_
    · exact effect_keeps_wf hm (fun _ => hsource.descriptorOk) he
    · exact (hcmd'.trans hcmd).trans hword'.symm
    · exact (hop'.trans hop).trans (congrArg opField hword'.symm)
  · cases h
    have hnone : s.contested = [] := hrace.1 (Bool.eq_false_iff.mpr fun hrun =>
      by cases he.symm.trans ((copyRunning_iff s).mp hrun).2)
    exact machineInv_of_idle hm (hsource.of_eq rfl rfl) rfl hnone hcmd hop

/-! ## Host events -/

/-- A write to STATUS clears DONE or keeps it (10_state.md R35). -/
theorem machineInv_statusWrite {s : State} (hs : MachineInv s) (v : Word) : MachineInv (s.statusWrite v) := by
  obtain ⟨hm, hsource, ⟨hbusy, hlatch⟩, hrace⟩ := (machineInv_iff s).mp hs
  rw [State.statusWrite_eq]
  refine (machineInv_iff _).mpr ⟨hm, hsource, ⟨fun hv => ?_, hlatch⟩, hrace⟩
  obtain ⟨hdone, herr⟩ := hbusy hv
  exact ⟨by simp [hdone], herr⟩

/-- An accepted command has DONE and ERR_CODE cleared, and nothing is contested yet (47_session_commands.md R320). -/
theorem machineInv_onCmdWrite {s : State} (hs : MachineInv s) (v : Word) : MachineInv (s.onCmdWrite v) := by
  cases hv : s.latch.valid with
  | true =>
    rw [State.onCmdWrite_of_busy hv]
    exact hs
  | false =>
    obtain ⟨hm, hsource, _, hrace⟩ := (machineInv_iff s).mp hs
    have hnone := contested_of_idle hrace hv
    rw [State.onCmdWrite_of_idle hv]
    refine (machineInv_iff _).mpr ⟨hm, hsource, ⟨fun _ => ⟨rfl, rfl⟩, rfl, rfl⟩, fun _ => hnone, ?_⟩
    simp [hnone]

theorem machineInv_regWrite {s : State} (hs : MachineInv s) (off : BitVec 8) (data : List Byte) :
    MachineInv (s.regWrite off data) := by
  rw [State.regWrite_eq]
  split
  · rcases setRegWord_cases s off.toNat (BitVec.ofNat 32 (leNat data)) with h | h | h | h | ⟨x, h⟩ <;> rw [h]
    · exact hs
    · exact hs
    · exact machineInv_statusWrite hs _
    · exact machineInv_onCmdWrite hs _
    · exact hs
  · exact hs

theorem machineInv_memWrite {s : State} (hs : MachineInv s) (a : Word) (b : Byte) :
    MachineInv { s with mem := s.mem.write a.toNat b } := by
  obtain ⟨hm, hrest⟩ := hs
  exact ⟨Memory.wf_write hm a.isLt, hrest⟩

/-- One more contested range inside the output of the running COPY_REGION (20_memory.md R96). -/
theorem machineInv_contest {s : State} (hs : MachineInv s) (hrun : s.copyRunning = true) {r : AddrRange}
    (hr : ∀ a, r.lo ≤ a → a < r.hi → a < addrSpace ∧ s.u 4 ≤ a ∧ a < s.u 4 + s.u 6) :
    MachineInv { s with contested := r :: s.contested } := by
  obtain ⟨hm, hsource, hframe, hrace⟩ := (machineInv_iff s).mp hs
  refine (machineInv_iff _).mpr ⟨hm, hsource, hframe, fun hidle => ?_, ?_⟩
  · cases hrun.symm.trans hidle
  · exact List.forall_mem_cons.mpr ⟨hr, hrace.2⟩

theorem machineInv_otherCopy {s : State} (hs : MachineInv s) (base len : Word) : MachineInv (otherCopy s base len) := by
  rcases otherCopy_cases s base len with ⟨hrun, ho⟩ | ⟨_, ho⟩ <;> rw [ho]
  · refine machineInv_contest hs hrun fun a hlo hhi => ?_
    obtain ⟨hlt, _, hout⟩ := (mem_sharedOutput s base len a).mp ⟨hlo, hhi⟩
    exact ⟨hlt, hout⟩
  · exact hs

theorem machineInv_otherWrite {c : Config} {s t : State} (hs : MachineInv s) {a : Word} {b : Byte}
    (h : otherWrite c s a b = .next t) : MachineInv t := by
  rcases otherWrite_cases c s a b with ⟨_, ho⟩ | ⟨_, ⟨hout, ho⟩ | ⟨_, ho⟩⟩ <;> cases ho.symm.trans h
  · obtain ⟨hrun, hlo, hhi⟩ := (inRunningOutput_iff s a.toNat).mp hout
    refine machineInv_contest (machineInv_memWrite hs a _) hrun fun x hx hx' => ?_
    obtain rfl : x = a.toNat := Nat.le_antisymm (Nat.le_of_lt_succ hx') hx
    exact ⟨a.isLt, hlo, hhi⟩
  · exact machineInv_memWrite hs a b

theorem abandonCopy_wf {s : State} (hm : s.mem.wf = true) (c : Config) : (s.abandonCopy c).mem.wf = true := by
  rcases abandonCopy_cases c s with h | ⟨h, _, _, hr, hspans⟩
  · rwa [h]
  · rw [hspans]
    exact Memory.wf_writeAll hm fun _ hx => copySpan_lt hr (anyCells_span hx)

theorem contested_abandonCopy (c : Config) (s : State) (a : Nat) : Contested (s.abandonCopy c) a ↔ Contested s a := by
  rcases abandonCopy_cases c s with h | ⟨h, _, _, _, hspans⟩
  · rw [h]
  · rw [hspans]
    rfl

/-- Reset draws bytes of host memory alone: row spans of a COPY_REGION past its checks, and contested bytes
(70_reset_and_hazards.md R392, 20_memory.md R96). -/
theorem resetInput_wf {s : State} (hm : s.mem.wf = true) (hrace : RaceInv s) (c : Config) :
    (s.resetInput c).mem.wf = true :=
  drawContested_wf (abandonCopy_wf hm c)
    (fun a ha => (contested_bounds hrace ((contested_abandonCopy c s a).mp ha)).1) c

theorem machineInv_hostStep {c : Config} {e : HostEvent} {s t : State} (hs : MachineInv s)
    (h : hostStep c e s = .next t) : MachineInv t := by
  cases e with
  | regWrite off data => cases h; exact machineInv_regWrite hs off data
  | regRead off n => cases h; exact hs
  | memWrite a b =>
    rcases hostMemWrite_cases s a b with ⟨_, hw⟩ | ⟨_, hw⟩ <;> cases hw.symm.trans h
    exact machineInv_memWrite hs a b
  | memRead a =>
    cases h
    rw [hostMemRead_eq]
    split <;> exact hs
  | otherCopy base len => cases h; exact machineInv_otherCopy hs base len
  | otherWrite a b => exact machineInv_otherWrite hs h
  | reset =>
    cases h
    obtain ⟨hm, _, _, hrace⟩ := (machineInv_iff s).mp hs
    exact machineInv_of_idle (resetInput_wf hm hrace c) (.of_closed rfl readerInv_unbound) rfl rfl rfl rfl
  | blockTurn => cases h; exact hs
  | wait => cases h; exact hs
  | moveReg src dst => cases h; exact machineInv_regWrite hs dst (s.regRead src 4)
  | skipOnError n => cases h; exact hs

/-- Settles O8: the queue is no part of the invariants, and the block's step and every host event keep them. -/
theorem everyStepKeepsTheInvariants : Obligations.EveryStepKeepsTheInvariants := by
  intro s t hs h
  have hqueue (es : List HostEvent) : MachineInv { s with host := es } := hs
  rcases step_cases s with ⟨es, _, hstep⟩ | ⟨e, es, _, hstep⟩ <;> rw [hstep] at h
  · exact machineInv_blockStep (hqueue es) h
  · exact machineInv_hostStep (hqueue es) h

end Sys2Proof.Machine
end

section
/-! SUPPORT. NOP, CLOSE, the queries and OPEN (47_session_commands.md R325-R328, R330), and what OPEN accepts
(41_container_header_parser.md R174). -/

namespace Sys2Proof.Machine

/-! ## NOP and CLOSE -/

/-- Settles O23: NOP's pseudocode is `complete`. -/
theorem nopOnlyCompletes : Obligations.NopOnlyCompletes :=
  ⟨decodeWord_eq_ok_iff.mpr rfl, fun _ => exec_of_complete rfl⟩

/-- Settles O24: CLOSE's pseudocode is `CloseSession()` and `complete`. -/
theorem closeReleasesSessionAndReader : Obligations.CloseReleasesSessionAndReader :=
  ⟨decodeWord_eq_ok_iff.mpr rfl, fun _ => exec_of_complete rfl⟩

/-! ## GET_SIZE and GET_PIXEL_FORMAT -/

theorem exec_getSize_of_open {s : State} {h : Header} (hh : s.session.header? = some h) :
    exec .getSize s = .next (completed ((s.setRes 0 h.width).setRes 1 h.height) none) :=
  exec_of_complete (by simp only [performOf, performGetSize, hh])

theorem exec_getSize_of_closed {s : State} (hc : s.session = .closed) :
    exec .getSize s = .next (completed s (some .sessionClosed)) :=
  exec_of_raise (by simp only [performOf, performGetSize, Session.header?_eq_none.mpr hc])

theorem exec_getPixelFormat_of_open {s : State} {h : Header} (hh : s.session.header? = some h) :
    exec .getPixelFormat s = .next (completed { s with res := descriptorRes s.res h.fmt } none) :=
  exec_of_complete (by simp only [performOf, performGetPixelFormat, hh, setDescriptor_eq])

theorem exec_getPixelFormat_of_closed {s : State} (hc : s.session = .closed) :
    exec .getPixelFormat s = .next (completed s (some .sessionClosed)) :=
  exec_of_raise (by simp only [performOf, performGetPixelFormat, Session.header?_eq_none.mpr hc])

/-- Settles O25: with a header and without one. -/
theorem getSizeReportsTheHeader : Obligations.GetSizeReportsTheHeader :=
  ⟨decodeWord_eq_ok_iff.mpr rfl, fun _ _ hh => exec_getSize_of_open hh, fun _ hc => exec_getSize_of_closed hc⟩

/-- Settles O26: with a header and without one, and the number of each tag. -/
theorem getPixelFormatReportsTheDescriptor : Obligations.GetPixelFormatReportsTheDescriptor := by
  refine ⟨decodeWord_eq_ok_iff.mpr rfl, fun _ _ hh => exec_getPixelFormat_of_open hh,
    fun s h hh => ⟨_, exec_getPixelFormat_of_open hh, ?_, ?_⟩, fun _ hc => exec_getPixelFormat_of_closed hc⟩
  · change (colorCode h.fmt.color).setWidth 32 = _
    cases h.fmt.color <;> rfl
  · change (depthCode h.fmt.depth).setWidth 32 = _
    cases h.fmt.depth <;> rfl

/-! ## OPEN -/

/-- What OPEN leaves when it opens a session over its operand range (47_session_commands.md R326). -/
def openedState (s : State) (p : Parsed) (d : Descriptor) : State :=
  { s with
    session := .opened { p with fmt := d }
    rdr := ⟨true, s.latch.args[0], s.latch.args[1], BitVec.ofNat 35 (8 * p.codedOffset.toNat)⟩ }

/-- OPEN of a range inside host memory binds it, so the parser is given its bytes (47_session_commands.md R326). -/
theorem performOpen_cases {s : State} (hin : s.u 0 + s.u 1 ≤ addrSpace) (c : Config) :
    (∃ e, accept c (operandBytes s) = .error e ∧ performOpen c s = raise e (closedState s)) ∨
    (∃ p, accept c (operandBytes s) = .ok p ∧ registry c p.guid = none ∧
      performOpen c s = raise .unknownPixelFormat (closedState s)) ∨
    (∃ p d, accept c (operandBytes s) = .ok p ∧ registry c p.guid = some d ∧
      performOpen c s = complete (openedState s p d)) := by
  rw [performOpen_eq, if_pos hin]
  exact openBound_cases c { s with session := .closed, rdr := ⟨true, s.latch.args[0], s.latch.args[1], 0⟩ }

theorem performOpen_of_refused {c : Config} {s : State} {e : Error} (hin : s.u 0 + s.u 1 ≤ addrSpace)
    (ha : accept c (operandBytes s) = .error e) : performOpen c s = raise e (closedState s) := by
  rcases performOpen_cases hin c with ⟨_, ha', h⟩ | ⟨_, ha', _, _⟩ | ⟨_, _, ha', _, _⟩ <;> cases ha'.symm.trans ha
  exact h

theorem performOpen_of_unknown {c : Config} {s : State} {p : Parsed} (hin : s.u 0 + s.u 1 ≤ addrSpace)
    (ha : accept c (operandBytes s) = .ok p) (hg : registry c p.guid = none) :
    performOpen c s = raise .unknownPixelFormat (closedState s) := by
  rcases performOpen_cases hin c with ⟨_, ha', _⟩ | ⟨_, ha', _, h⟩ | ⟨_, _, ha', hg', _⟩ <;> cases ha'.symm.trans ha
  · exact h
  · cases hg'.symm.trans hg

theorem performOpen_of_known {c : Config} {s : State} {p : Parsed} {d : Descriptor} (hin : s.u 0 + s.u 1 ≤ addrSpace)
    (ha : accept c (operandBytes s) = .ok p) (hg : registry c p.guid = some d) :
    performOpen c s = complete (openedState s p d) := by
  rcases performOpen_cases hin c with ⟨_, ha', _⟩ | ⟨_, ha', hg', _⟩ | ⟨_, _, ha', hg', h⟩ <;>
    cases ha'.symm.trans ha <;> cases hg'.symm.trans hg
  exact h

theorem performOpen_of_outside {s : State} (hout : addrSpace < s.u 0 + s.u 1) (c : Config) :
    performOpen c s = raise .badAddress s := by
  rw [performOpen_eq, if_neg hout.not_ge]

/-- An empty operand range has no byte for the parser, and lies inside host memory (47_session_commands.md R326). -/
theorem performOpen_of_empty {s : State} (hlen : s.u 1 = 0) (c : Config) :
    performOpen c s = raise .invalidFormat (closedState s) := by
  have hlt : s.u 0 < addrSpace := s.latch.args[0].isLt
  have hbytes : operandBytes s = [] := List.eq_nil_of_length_eq_zero ((operandBytes_length s).trans hlen)
  exact performOpen_of_refused (by omega) (hbytes ▸ accept_nil c)

/-- Settles O27: `Accept` and the registry on the bytes of the operand range. -/
theorem openFollowsParserAndRegistry : Obligations.OpenFollowsParserAndRegistry := by
  refine ⟨decodeWord_eq_ok_iff.mpr rfl, fun s hout => ?_, fun s hin => ?_, fun s hlen => ?_⟩
  · exact exec_of_raise (congrArg Except.ok (performOpen_of_outside hout Config.chip))
  · have hbytes : ((List.range (s.u 1)).map fun i => s.mem.read (s.u 0 + i)) = operandBytes s := rfl
    rw [hbytes]
    cases ha : accept Config.chip (operandBytes s) with
    | error e => exact exec_of_raise (congrArg Except.ok (performOpen_of_refused hin ha))
    | ok p =>
      cases hg : registry Config.chip p.guid with
      | none =>
        simp only [hg]
        exact exec_of_raise (congrArg Except.ok (performOpen_of_unknown hin ha hg))
      | some d =>
        simp only [hg]
        exact exec_of_complete (congrArg Except.ok (performOpen_of_known hin ha hg))
  · exact exec_of_raise (congrArg Except.ok (performOpen_of_empty hlen Config.chip))

/-! ## Accept -/

theorem accept_of_unparsed {c : Config} {b : List Byte} {e : ParseError} (h : parseContainer c b = .error e) :
    accept c b = .error (if e = .unsupportedFeature then .unsupportedFeature else .invalidFormat) := by
  cases e <;> simp [accept, h]

/-- The checks of a parsed header, in their order (41_container_header_parser.md R174); those of the extents all give
one code. -/
theorem accept_of_parsed {c : Config} {b : List Byte} {p : Parsed} (h : parseContainer c b = .ok p) : accept c b =
    if ¬ (1 ≤ p.width ∧ 1 ≤ p.height) then .error .invalidFormat
    else if ¬ (p.width ≤ maxDim ∧ p.height ≤ maxDim) then .error .unsupportedFeature
    else if (∀ e ∈ p.extents, e.offset + e.length ≤ b.length) ∧
        p.extents.head?.map Extent.offset = some p.codedOffset.toNat then .ok p
    else .error .invalidFormat := by
  simp only [accept, h]
  refine if_ctx_congr (by omega) (fun _ => rfl) fun _ => if_ctx_congr (by omega) (fun _ => rfl) fun _ => ?_
  cases p.extents with
  | nil => simp
  | cons first rest =>
    have hinside : ((first :: rest).all fun e => Extent.inside e b.length) = true ↔
        ∀ e ∈ first :: rest, e.offset + e.length ≤ b.length := by simp [Extent.inside]
    have hoffset : (first :: rest).head?.map Extent.offset = some p.codedOffset.toNat ↔
        p.codedOffset.toNat = first.offset := by simp [eq_comm]
    simp only [hinside, hoffset]
    split_ifs <;> tauto

/-- Settles O28: OPEN goes by `Accept` of the operand range's bytes, and `Accept` by the checks in their order. -/
theorem openOfAnAcceptedSourceOpens : Obligations.OpenOfAnAcceptedSourceOpens := by
  intro c s hin parsed fails
  refine ⟨fun h => performOpen_of_refused hin (accept_of_unparsed h),
    fun h => performOpen_of_refused hin (accept_of_unparsed h),
    fun h => performOpen_of_refused hin (accept_of_unparsed h), fun p h => ?_⟩
  intro positive small inside first
  have haccept : accept c (operandBytes s) = _ := accept_of_parsed h
  rw [operandBytes_length, maxDim] at haccept
  have hbad (hpos : positive) (hsmall : small) (hextents : ¬ (inside ∧ first)) : fails .invalidFormat :=
    performOpen_of_refused hin
      (by rw [haccept, if_neg (not_not.mpr hpos), if_neg (not_not.mpr hsmall),
        if_neg (mt (And.imp_right Option.map_eq_some_iff.mp) hextents)])
  have hgood (hpos : positive) (hsmall : small) (hi : inside) (hf : first) : accept c (operandBytes s) = .ok p := by
    rw [haccept, if_neg (not_not.mpr hpos), if_neg (not_not.mpr hsmall), if_pos ⟨hi, Option.map_eq_some_iff.mpr hf⟩]
  refine ⟨fun hpos => performOpen_of_refused hin (by rw [haccept, if_pos hpos]),
    fun hpos hsmall => performOpen_of_refused hin (by rw [haccept, if_neg (not_not.mpr hpos), if_pos hsmall]),
    fun hpos hsmall hnil => hbad hpos hsmall ?_,
    fun hpos hsmall hi => hbad hpos hsmall (mt And.left hi),
    fun hpos hsmall _ hf => hbad hpos hsmall (mt And.right hf),
    fun hpos hsmall hi hf hg => performOpen_of_unknown hin (hgood hpos hsmall hi hf) hg,
    fun d hpos hsmall hi hf hg => performOpen_of_known hin (hgood hpos hsmall hi hf) hg⟩
  rintro ⟨_, e, he, _⟩
  rw [hnil] at he
  cases he

end Sys2Proof.Machine
end

section
/-! SUPPORT. The session through commands and host events (47_session_commands.md R322), and through runs of commands
(R338). -/

namespace Sys2Proof.Machine

/-! ## Commands -/

/-- The commands the table of R322 leaves out keep the session (47_session_commands.md R322). -/
theorem effect_keeps_session {i : Instr} {s : State} {p : Perform}
    (hi : i ≠ .openSession ∧ i ≠ .close ∧ i ≠ .brBind ∧ i ≠ .copyRegion) (he : EffectOf i s p) :
    p.state.session = s.session := by
  obtain ⟨hopen, hclose, hbind, hcopy⟩ := hi
  cases i with
  | openSession => exact absurd rfl hopen
  | close => exact absurd rfl hclose
  | brBind => exact absurd rfl hbind
  | copyRegion => exact absurd rfl hcopy
  | nop => cases he; rfl
  | getSize => rcases he with ⟨_, rfl⟩ | ⟨_, _, rfl⟩ <;> rfl
  | getPixelFormat => rcases he with ⟨_, rfl⟩ | ⟨_, _, rfl⟩ <;> rfl
  | lookupPixelFormat => rcases he with rfl | ⟨_, rfl⟩ <;> rfl
  | brReadBits => rcases he with ⟨_, rfl⟩ | ⟨_, _, rfl⟩ <;> rfl
  | brAlign => rcases he with rfl | ⟨_, rfl⟩ <;> rfl
  | brSeek => rcases he with ⟨_, rfl⟩ | ⟨_, _, rfl⟩ <;> rfl
  | brTell => rcases he with rfl | ⟨_, rfl⟩ <;> rfl

/-! ## Host events -/

/-- A register write reaches no session (10_state.md R30-R39). -/
theorem regWrite_session (s : State) (off : BitVec 8) (data : List Byte) :
    (s.regWrite off data).session = s.session := by
  rw [State.regWrite_eq]
  split
  · rcases setRegWord_cases s off.toNat (BitVec.ofNat 32 (leNat data)) with h | h | h | h | ⟨x, h⟩ <;> rw [h]
    · rfl
    · rw [State.statusWrite_eq]
    · unfold State.onCmdWrite
      split <;> rfl
  · rfl

/-- Of the host's events, reset alone reaches the session (47_session_commands.md R322). -/
theorem hostStep_session {c : Config} {e : HostEvent} {s t : State} (he : e ≠ .reset) (h : hostStep c e s = .next t) :
    t.session = s.session := by
  cases e with
  | reset => exact absurd rfl he
  | regWrite off data => cases h; exact regWrite_session s off data
  | regRead off n => cases h; rfl
  | memWrite a b =>
    rcases hostMemWrite_cases s a b with ⟨_, hw⟩ | ⟨_, hw⟩ <;> cases hw.symm.trans h
    rfl
  | memRead a =>
    cases h
    rw [hostMemRead_eq]
    split <;> rfl
  | otherCopy base len =>
    cases h
    rcases otherCopy_cases s base len with ⟨_, ho⟩ | ⟨_, ho⟩ <;> rw [ho]
  | otherWrite a b =>
    rcases otherWrite_cases c s a b with ⟨_, ho⟩ | ⟨_, ⟨_, ho⟩ | ⟨_, ho⟩⟩ <;> cases ho.symm.trans h
    · rfl
    · rfl
  | blockTurn => cases h; rfl
  | wait => cases h; rfl
  | moveReg src dst => cases h; exact regWrite_session s dst (s.regRead src 4)
  | skipOnError n => cases h; rfl

/-- An event that is no mark for the block's step is the host's (47_session_commands.md R321; log 2). -/
theorem step_hostEvent {s : State} {e : HostEvent} {es : List HostEvent} (h : s.host = e :: es) (hturn : e ≠ .blockTurn)
    (hwait : e ≠ .wait) : step s = hostStep Config.chip e { s with host := es } := by
  unfold step
  rw [h]
  cases e with
  | blockTurn => exact absurd rfl hturn
  | wait => exact absurd rfl hwait
  | _ => rfl

/-- Settles O30: the ends of each command's pseudocode, reset, and the host events that reach no session. -/
theorem sessionMovesOnlyByTheTable : Obligations.SessionMovesOnlyByTheTable := by
  refine ⟨fun s t i h => ?_, fun s t es hhost h => ?_, fun s t e es hhost hreset hturn hwait h => ?_⟩
  · obtain ⟨p, hp, he⟩ := exec_effect i s
    cases hp.symm.trans h
    cases i with
    | openSession =>
      rcases he with ⟨_, rfl⟩ | ⟨_, _, hne, rfl⟩ | ⟨_, _, _, _, _, rfl⟩
      · exact ⟨fun _ => rfl, fun _ hbad => absurd rfl hbad, nofun⟩
      · exact ⟨fun hbad => absurd (Option.some.inj hbad) hne, fun _ _ => rfl, nofun⟩
      · exact ⟨nofun, fun hne => absurd rfl hne, fun _ => ⟨_, rfl⟩⟩
    | copyRegion =>
      rcases he with ⟨_, _, rfl⟩ | ⟨hdr, _, hr, _, rfl⟩ | ⟨_, _, _, _, _, rfl⟩
      · exact ⟨fun _ => rfl, nofun⟩
      · exact ⟨fun hne => absurd rfl hne, fun _ => ⟨hdr, hr.1, rfl⟩⟩
      · exact ⟨fun _ => rfl, nofun⟩
    | close => cases he; rfl
    | brBind =>
      rcases he with ⟨_, rfl⟩ | ⟨_, rfl⟩
      · exact ⟨nofun, fun _ => rfl⟩
      · exact ⟨fun _ => rfl, fun hne => absurd rfl hne⟩
    | _ => exact effect_keeps_session (by decide) he
  · rw [step_hostEvent hhost (by decide) (by decide)] at h
    cases h
    rfl
  · rw [step_hostEvent hhost hturn hwait] at h
    exact hostStep_session (s := { s with host := es }) hreset h

/-! ## Runs of commands -/

/-- Every command but OPEN, CLOSE and BR_BIND keeps the stored header (47_session_commands.md R322). -/
theorem exec_keeps_header {i : Instr} {s t : State} (hi : i ≠ .openSession ∧ i ≠ .close ∧ i ≠ .brBind)
    (h : exec i s = .next t) : t.session.header? = s.session.header? := by
  obtain ⟨p, hp, he⟩ := exec_effect i s
  cases hp.symm.trans h
  by_cases hcopy : i = .copyRegion
  · subst hcopy
    rcases he with ⟨_, _, rfl⟩ | ⟨_, _, hr, _, rfl⟩ | ⟨_, _, _, _, _, rfl⟩
    · rfl
    · exact hr.1.symm
    · rfl
  · obtain ⟨hopen, hclose, hbind⟩ := hi
    exact congrArg Session.header? (effect_keeps_session ⟨hopen, hclose, hbind, hcopy⟩ he)

theorem runCommands_keeps_header {cmds : List (Instr × Vector Word 8)} {s t : State}
    (hc : ∀ x ∈ cmds, x.1 ≠ .openSession ∧ x.1 ≠ .close ∧ x.1 ≠ .brBind) (h : runCommands cmds s = some t) :
    t.session.header? = s.session.header? := by
  induction cmds generalizing s with
  | nil => cases h; rfl
  | cons x rest ih =>
    obtain ⟨i, a⟩ := x
    obtain ⟨hi, hrest⟩ := List.forall_mem_cons.mp hc
    unfold runCommands at h
    split at h
    · rename_i u hu
      have hstep := exec_keeps_header (i := i) hi hu
      exact (ih hrest h).trans hstep
    · cases h
    · cases h

/-- Settles O31: the run keeps the header, and both queries report it. -/
theorem headerQueriesAreStable : Obligations.HeaderQueriesAreStable := by
  intro cmds s t h hh hc hrun
  have hopen : t.session.header? = some h := (runCommands_keeps_header hc hrun).trans hh
  refine ⟨⟨_, exec_getSize_of_open hopen, rfl, ?_, ?_⟩, ⟨_, exec_getPixelFormat_of_open hopen, rfl, rfl⟩⟩
  · simp [completed]
  · simp [completed]

end Sys2Proof.Machine
end

section
/-! SUPPORT. COPY_REGION past its checks (47_session_commands.md R329, R333-R339): how it ends by the decode's outcome,
what it leaves of memory, and that it depends on its operands, header and source alone. -/

namespace Sys2Proof.Machine

/-! ## The outcome -/

/-- No outcome is a model fault (44_inverse_transform.md R253). -/
theorem regionOutcome_ne_fault (c : Config) (b : List Byte) (h : Header) (r : Rect) (f : Fault) :
    regionOutcome c b h r ≠ .fault f := by
  intro hf
  rcases regionOutcome_cases c b h r with ⟨_, _, ho⟩ | ⟨_, _, _, ho⟩ | ⟨_, _, _, _, _, _, ho⟩ <;>
    cases ho.symm.trans hf

/-- The image of a decode that succeeds, cut to the rectangle (47_session_commands.md R333). -/
theorem regionOutcome_of_image {c : Config} {b : List Byte} {h : Header} {img : Image} (hd : refDecode c b h = .ok img)
    (r : Rect) : regionOutcome c b h r = .ok fun i j k => img (r.x + i) (r.y + j) k := by
  simp only [regionOutcome, hd]

theorem regionOutcome_of_needed {c : Config} {b : List Byte} {h : Header} {r : Rect} {e : DecodeError} {m : MB}
    (hd : refDecode c b h = .fail e m) (hn : needed h r m = true) : regionOutcome c b h r = .fail e m := by
  simp only [regionOutcome, hd, hn, if_true]

theorem regionOutcome_of_no_pixels {c : Config} {b : List Byte} {h : Header} {r : Rect} {e : DecodeError} {m : MB}
    (hd : refDecode c b h = .fail e m) (hn : needed h r m = false) (hp : c.partialDecode b h r = none) :
    regionOutcome c b h r = .fail e m := by
  simp [regionOutcome, hd, hn, hp]

theorem regionOutcome_of_pixels {c : Config} {b : List Byte} {h : Header} {r : Rect} {e : DecodeError} {m : MB}
    {pix : Image} (hd : refDecode c b h = .fail e m) (hn : needed h r m = false)
    (hp : c.partialDecode b h r = some pix) : regionOutcome c b h r = .ok pix := by
  simp [regionOutcome, hd, hn, hp]

/-! ## How COPY_REGION ends -/

@[simp] theorem completed_err (s : State) (e : Option Error) : (completed s e).err = e := rfl

/-- COPY_REGION when a check fails (47_session_commands.md R329). -/
theorem performCopyRegion_of_check {c : Config} {s : State} {e : Error} (hc : copyChecks s = .error e) :
    performCopyRegion c s = .ok (raise e s) := by
  simp only [performCopyRegion, hc]

/-- COPY_REGION past its checks, when the decode fails (47_session_commands.md R329, R334). -/
theorem performCopyRegion_of_fail {c : Config} {s : State} {h : Header} {e : DecodeError} {m : MB} (hr : CopyReaches h s)
    (ho : regionOutcome c s.sourceBytes h (copyRect s) = .fail e m) : performCopyRegion c s =
      .ok (raise (decodeErrorCode e) (copyFail c s ⟨h, copyRect s, s.spansOperand h.fmt⟩)) := by
  simp only [performCopyRegion, copyChecks_ok.mpr ⟨h, hr, rfl⟩, ho]

theorem copyWrite_read_other {s : State} {h : Header} (hd : descriptorOk h.fmt = true) (hr : CopyReaches h s)
    (pix : Image) {a : Nat} (ha : ¬ CopySpan h s a) :
    (copyWrite s ⟨h, copyRect s, s.spansOperand h.fmt⟩ pix).mem.read a = s.mem.read a :=
  Memory.read_writeAll_other fun _ hx he => ha (he ▸ regionCells_span hd hr hx)

theorem copyFail_read_other (c : Config) (s : State) (h : Header) {a : Nat} (ha : ¬ CopySpan h s a) :
    (copyFail c s ⟨h, copyRect s, s.spansOperand h.fmt⟩).mem.read a = s.mem.read a :=
  Memory.read_writeAll_other fun _ hx he => ha (he ▸ anyCells_span hx)

/-- Settles O33: the outcome is pixels or a failure, and either way the writes are row-span bytes. -/
theorem copyRegionCompletesWithTheOutcome : Obligations.CopyRegionCompletesWithTheOutcome := by
  intro s h hd hr
  cases ho : regionOutcome Config.chip s.sourceBytes h (copyRect s) with
  | ok pix =>
    refine ⟨_, exec_of_complete (performCopyRegion_of_pixels hr ho), fun a => copyWrite_read_other hd hr pix, ?_⟩
    dsimp only
    rw [copyWrite_eq hr.1]
    rfl
  | fail e m =>
    exact ⟨_, exec_of_raise (performCopyRegion_of_fail hr ho), fun a => copyFail_read_other _ s h, rfl⟩
  | fault f => exact (regionOutcome_ne_fault _ _ _ _ f ho).elim

/-- Settles O34: the three outcomes of a failed decode, the last one's pixels by O35. -/
theorem failedDecodeFollowsPartialDecode : Obligations.FailedDecodeFollowsPartialDecode := by
  intro c s h e m hm hd hr hfail reported
  have hreported (ho : regionOutcome c s.sourceBytes h (copyRect s) = .fail e m) : reported := by
    refine ⟨copyFail c s ⟨h, copyRect s, s.spansOperand h.fmt⟩, ?_, rfl, fun a => copyFail_read_other c s h⟩
    rw [performCopyRegion_of_fail hr ho]
    cases e <;> rfl
  exact ⟨fun hn => hreported (regionOutcome_of_needed hfail hn),
    fun hn hp => hreported (regionOutcome_of_no_pixels hfail hn hp),
    fun pix hn hp => copiedPixelsStandAtTheirAddresses c s h pix hm hd hr (regionOutcome_of_pixels hfail hn hp)⟩

/-! ## Copies of one image -/

/-- A pixel of the region is the image's pixel at the region's offset (45_macroblock_predictor.md R276). -/
theorem pixelSamples_shift (d : Descriptor) (img : Image) (x y i j : Nat) :
    pixelSamples d (fun i j k => img (x + i) (y + j) k) i j = pixelSamples d img (x + i) (y + j) := rfl

/-- A copy out of an image: each pixel of the rectangle holds the image's (46_pixel_format_converter.md R301). -/
theorem performCopyRegion_of_image {c : Config} {s : State} {h : Header} {img : Image} (hm : s.mem.wf = true)
    (hd : descriptorOk h.fmt = true) (hr : CopyReaches h s) (himg : refDecode c s.sourceBytes h = .ok img) :
    ∃ t, performCopyRegion c s = .ok (complete t) ∧
      ∀ i r k, i < (copyRect s).w → r < (copyRect s).h → k < bytesPerPixel h.fmt →
        t.mem.read (s.u 4 + r * s.u 5 + i * bytesPerPixel h.fmt + k) =
          (packPixel h.fmt (pixelSamples h.fmt img ((copyRect s).x + i) ((copyRect s).y + r))).getD k 0 := by
  obtain ⟨t, hperform, _, hpixels⟩ :=
    copiedPixelsStandAtTheirAddresses c s h _ hm hd hr (regionOutcome_of_image himg (copyRect s))
  refine ⟨t, hperform, fun i r k hi hrow hk => ?_⟩
  rw [hpixels i r k hi hrow hk, pixelSamples_shift]

/-- Settles O37: both copies hold the image's pixel. -/
theorem copiesOfOneImageStitch : Obligations.CopiesOfOneImageStitch := by
  rintro c b h img s1 s2 himg hd hm1 hm2 rfl hsource hr1 hr2
  obtain ⟨t1, hp1, hpixels1⟩ := performCopyRegion_of_image hm1 hd hr1 himg
  obtain ⟨t2, hp2, hpixels2⟩ := performCopyRegion_of_image hm2 hd hr2 (hsource.symm ▸ himg)
  refine ⟨t1, t2, hp1, hp2, ?_⟩
  rintro x y i1 r1 i2 r2 k hx1 hy1 hi1 hrow1 hx2 hy2 hi2 hrow2 hk
  rw [hpixels1 i1 r1 k hi1 hrow1 hk, hpixels2 i2 r2 k hi2 hrow2 hk, hx1, hy1, hx2, hy2]
  exact ⟨rfl, rfl⟩

/-! ## Two runs of one copy -/

/-- The states give COPY_REGION the same operands, header and source (47_session_commands.md R336). -/
structure SameCopy (s t : State) : Prop where
  header : t.session.header? = s.session.header?
  args : t.latch.args = s.latch.args
  base : t.rdr.base = s.rdr.base
  len : t.rdr.len = s.rdr.len
  bytes : t.sourceBytes = s.sourceBytes

theorem SameCopy.u {s t : State} (h : SameCopy s t) (i : Fin 8) : t.u i = s.u i := by rw [State.u, State.u, h.args]

theorem SameCopy.sArg {s t : State} (h : SameCopy s t) (i : Fin 8) : t.sArg i = s.sArg i := by
  rw [State.sArg, State.sArg, h.args]

theorem SameCopy.copyRect {s t : State} (h : SameCopy s t) : copyRect t = copyRect s := by
  simp only [Sys2Proof.copyRect, h.sArg]

theorem SameCopy.copyChecks {s t : State} (h : SameCopy s t) : copyChecks t = copyChecks s := by
  unfold Machine.copyChecks State.spansOperand State.rectOperand State.u State.sArg
  rw [h.header, h.args, h.base, h.len]

theorem SameCopy.copyReaches {s t : State} (h : SameCopy s t) {hdr : Header} (hr : CopyReaches hdr s) :
    CopyReaches hdr t := by
  simpa only [CopyReaches, h.header, h.base, h.len, h.u, h.sArg] using hr

theorem SameCopy.regionOutcome {s t : State} (h : SameCopy s t) (c : Config) (hdr : Header) :
    regionOutcome c t.sourceBytes hdr (Sys2Proof.copyRect t) =
      regionOutcome c s.sourceBytes hdr (Sys2Proof.copyRect s) := by
  rw [h.bytes, h.copyRect]

/-- Every byte of a row span is a byte of a pixel, so a successful copy writes it (46_pixel_format_converter.md R291). -/
theorem regionCells_covers {h : Header} {s : State} (hd : descriptorOk h.fmt = true) (hr : CopyReaches h s) (pix : Image)
    {a : Nat} (ha : CopySpan h s a) :
    ∃ x ∈ regionCells h.fmt pix (s.sArg 2).toNat (s.sArg 3).toNat (s.u 4) (s.u 5), x.1 = a := by
  obtain ⟨r, k, hrow, hk, rfl⟩ := ha
  obtain ⟨_, _, hwhole, _⟩ := hr
  have hpos : 0 < bytesPerPixel h.fmt := Nat.pos_of_lt_mul_left hk
  have hlen := packPixel_length (smp := pixelSamples h.fmt pix (k / bytesPerPixel h.fmt) r) hd
    (sampleKind_of_whole hd hwhole) (by simp)
  have hbyte : k % bytesPerPixel h.fmt < (packPixel h.fmt (pixelSamples h.fmt pix (k / bytesPerPixel h.fmt) r)).length :=
    (Nat.mod_lt k hpos).trans_eq hlen.symm
  refine ⟨(_, _), mem_regionCells.mpr ⟨r, k / bytesPerPixel h.fmt, k % bytesPerPixel h.fmt, hrow,
    Nat.div_lt_of_lt_mul (Nat.mul_comm .. ▸ hk), List.getElem?_eq_getElem hbyte, rfl⟩, ?_⟩
  have := Nat.div_add_mod' k (bytesPerPixel h.fmt)
  dsimp only
  omega

/-- Two copies of the same pixels by the same operands leave the same row-span bytes (47_session_commands.md R336). -/
theorem SameCopy.copyWrite_read {s t : State} (h : SameCopy s t) {hdr : Header} (hr : CopyReaches hdr s)
    (hd : descriptorOk hdr.fmt = true) (hm : s.mem.wf = true) (hm' : t.mem.wf = true) (pix : Image) {a : Nat}
    (ha : CopySpan hdr s a) :
    (copyWrite s ⟨hdr, Sys2Proof.copyRect s, s.spansOperand hdr.fmt⟩ pix).mem.read a =
      (copyWrite t ⟨hdr, Sys2Proof.copyRect t, t.spansOperand hdr.fmt⟩ pix).mem.read a := by
  rw [copyWrite_eq hr.1, copyWrite_eq (h.copyReaches hr).1, h.u, h.u, h.sArg, h.sArg]
  exact Memory.read_writeAll_congr hm' hm (fun _ hx => copySpan_lt hr (regionCells_span hd hr hx))
    (regionCells_covers hd hr pix ha)

/-- Settles O38: the checks and the outcome are the same, and the same cells are written over every row-span byte. -/
theorem copyRegionIsIdempotent : Obligations.CopyRegionIsIdempotent := by
  intro s1 s2 h hh1 hh2 hargs hbase hlen hbytes hm1 hm2 hd
  have hsame : SameCopy s1 s2 := ⟨hh2.trans hh1.symm, hargs.symm, hbase.symm, hlen.symm, hbytes.symm⟩
  cases hc : copyChecks s1 with
  | error e =>
    have hc2 := hsame.copyChecks.trans hc
    exact ⟨_, _, exec_of_raise (performCopyRegion_of_check hc), exec_of_raise (performCopyRegion_of_check hc2),
      by simp only [completed_err], nofun⟩
  | ok j =>
    obtain ⟨hdr, hr1, _⟩ := copyChecks_ok.mp hc
    obtain rfl : h = hdr := Option.some.inj (hh1.symm.trans hr1.1)
    have hr2 := hsame.copyReaches hr1
    cases ho : regionOutcome Config.chip s1.sourceBytes h (copyRect s1) with
    | ok pix =>
      have ho2 := (hsame.regionOutcome Config.chip h).trans ho
      exact ⟨_, _, exec_of_complete (performCopyRegion_of_pixels hr1 ho),
        exec_of_complete (performCopyRegion_of_pixels hr2 ho2), by simp only [completed_err],
        fun _ _ ha => hsame.copyWrite_read hr1 hd hm1 hm2 pix ha⟩
    | fail e m =>
      have ho2 := (hsame.regionOutcome Config.chip h).trans ho
      exact ⟨_, _, exec_of_raise (performCopyRegion_of_fail hr1 ho),
        exec_of_raise (performCopyRegion_of_fail hr2 ho2), by simp only [completed_err], nofun⟩
    | fault f => exact (regionOutcome_ne_fault _ _ _ _ f ho).elim

end Sys2Proof.Machine
end

section
/-! SUPPORT. The macroblocks a rectangle needs (47_session_commands.md R332), by the pixels of the rectangle. -/

namespace Sys2Proof.Machine

/-- A row or column of macroblocks meets an interval of pixels exactly when one of the pixels lies in it
(45_macroblock_predictor.md R275). -/
theorem mb_meets_iff {x w m : Nat} (hw : 1 ≤ w) :
    (x / mbSize ≤ m ∧ m ≤ (x + w - 1) / mbSize) ↔ ∃ p, x ≤ p ∧ p < x + w ∧ m = p / 16 := by
  unfold mbSize
  constructor
  · intro h
    exact ⟨max x (16 * m), by omega, by omega, by omega⟩
  · rintro ⟨p, h⟩
    omega

theorem inCover_iff {r : Rect} (hw : 1 ≤ r.w) (hh : 1 ≤ r.h) (n : MB) : inCover r n = true ↔
    ∃ x y, r.x ≤ x ∧ x < r.x + r.w ∧ r.y ≤ y ∧ y < r.y + r.h ∧ n = ⟨x / 16, y / 16⟩ := by
  have hcover : inCover r n = true ↔ (r.x / mbSize ≤ n.col ∧ n.col ≤ (r.x + r.w - 1) / mbSize) ∧
      (r.y / mbSize ≤ n.row ∧ n.row ≤ (r.y + r.h - 1) / mbSize) := by simp [inCover, and_assoc]
  rw [hcover, mb_meets_iff hw, mb_meets_iff hh]
  constructor
  · rintro ⟨⟨x, hx, hx', hcol⟩, ⟨y, hy, hy', hrow⟩⟩
    exact ⟨x, y, hx, hx', hy, hy', by rw [← hcol, ← hrow]⟩
  · rintro ⟨x, y, hx, hx', hy, hy', rfl⟩
    exact ⟨⟨x, hx, hx', rfl⟩, ⟨y, hy, hy', rfl⟩⟩

theorem needed_iff (h : Header) (r : Rect) (m : MB) : needed h r m = true ↔
    ∃ t ∈ tiles h, m ∈ tileMBs t ∧ ∃ n ∈ tileMBs t,
      inCover r n = true ∧ (decodeOrder h).idxOf m ≤ (decodeOrder h).idxOf n := by
  simp only [needed, notAfter, List.any_eq_true, Bool.and_eq_true, tileContains_iff, decide_eq_true_eq]

/-- Settles O57: `needed_iff`, with the covered macroblocks those that hold a pixel of the rectangle. -/
theorem coveredMacroblocksAreNeeded : Obligations.CoveredMacroblocksAreNeeded := by
  intro h r m hw hh _ _
  simp only [needed_iff, inCover_iff hw hh]

end Sys2Proof.Machine
end

section
/-! SUPPORT. No step is a model fault (60_exceptions.md R361), and what the step of an idle block is (R375). -/

namespace Sys2Proof.Machine

/-- No host event reaches the decode, so none is a model fault (60_exceptions.md R361). -/
theorem hostStep_ne_fault (c : Config) (e : HostEvent) (s : State) (f : Fault) : hostStep c e s ≠ .fault f := by
  intro h
  cases e with
  | memWrite a b => rcases hostMemWrite_cases s a b with ⟨_, hw⟩ | ⟨_, hw⟩ <;> cases hw.symm.trans h
  | otherWrite a b =>
    rcases otherWrite_cases c s a b with ⟨_, hw⟩ | ⟨_, ⟨_, hw⟩ | ⟨_, hw⟩⟩ <;> cases hw.symm.trans h
  | _ => cases h

/-- Settles O6: the block's step answers a next state, since every block keeps its plane's shape (`reconPlane_ok`), and
no host event faults. -/
theorem noStepFaults : Obligations.NoStepFaults := by
  intro s f h
  rcases step_cases s with ⟨es, _, hstep⟩ | ⟨e, es, _, hstep⟩
  · obtain ⟨t, ht⟩ := blockStep_next { s with host := es }
    cases (hstep.trans ht).symm.trans h
  · exact hostStep_ne_fault Config.chip e { s with host := es } f (hstep.symm.trans h)

theorem blockStep_idle {s : State} (hv : s.latch.valid = false) : blockStep s = .next s := by
  rcases blockStep_cases s with ⟨_, h⟩ | ⟨hbusy, _⟩ | ⟨hbusy, _⟩
  · exact h
  · cases hv.symm.trans hbusy
  · cases hv.symm.trans hbusy

/-- A `WAIT` that finds BUSY at 0 is one read of STATUS (30_encoding.md R119). -/
theorem step_wait_of_idle {s : State} {es : List HostEvent} (h : s.host = .wait :: es) (hv : s.latch.valid = false) :
    step s = .next { s with host := es, busData := wordBytes s.statusWord } := by
  unfold step
  rw [h]
  exact if_neg (by rw [hv]; decide)

/-- Settles O5: the places of the block's step in the queue come to `blockStep_idle`, and `WAIT` reads STATUS. -/
theorem idleBlockDoesNothing : Obligations.IdleBlockDoesNothing := by
  intro s hv
  exact ⟨fun h => (step_of_empty_queue h).trans (blockStep_idle hv),
    fun es h => (step_blockTurn h).trans (blockStep_idle (s := { s with host := es }) hv),
    fun _ h => step_wait_of_idle h hv⟩

end Sys2Proof.Machine
end

section
/-! SUPPORT. The interrupt request through completion, acceptance, register writes and reset (60_exceptions.md R363). -/

namespace Sys2Proof.Machine

/-- Every completion leaves IRQ at IRQ_EN, whatever the code (60_exceptions.md R363). -/
theorem irq_of_exec {i : Instr} {s t : State} (h : exec i s = .next t) : t.irq = s.irqEn := by
  obtain ⟨p, hp, he⟩ := exec_effect i s
  cases hp.symm.trans h
  obtain ⟨hirqEn, _⟩ := (effect_writesOwnSide he).hostSideKept
  have hdone : (completed p.state p.err).done = true := rfl
  rw [State.irq, hirqEn, hdone, Bool.and_true]

theorem irq_of_not_done {s : State} (h : s.done = false) : s.irq = false := by rw [State.irq, h, Bool.and_false]

theorem irq_of_not_enabled {s : State} (h : s.irqEn = false) : s.irq = false := by rw [State.irq, h, Bool.false_and]

/-- Settles O41: `irq_of_exec` for the completions; acceptance, the write to STATUS and reset clear DONE, and the write
to CTRL clears IRQ_EN alone. -/
theorem interruptFollowsCompletion : Obligations.InterruptFollowsCompletion := by
  refine ⟨fun _ => rfl, fun _ _ _ => irq_of_exec, fun s v hidle => ?_, fun s v hv => ?_, fun s v hv => ?_,
    fun s t es hhost h => ?_⟩
  · rw [State.onCmdWrite_of_idle hidle]
    exact irq_of_not_done rfl
  · rw [State.statusWrite_eq]
    exact ⟨irq_of_not_done (by simp [hv]), rfl⟩
  · exact ⟨irq_of_not_enabled hv, rfl⟩
  · rw [step_hostEvent hhost (by decide) (by decide)] at h
    cases h
    exact irq_of_not_done rfl

end Sys2Proof.Machine
end

section
/-! SUPPORT. The checks of COPY_REGION before its decode, in the order of 60_exceptions.md R364. -/

namespace Sys2Proof.Machine

/-- COPY_REGION's checks in words, each one made only when those before it pass (60_exceptions.md R364). -/
theorem copyChecks_eq {s : State} {h : Header} (hh : s.session.header? = some h) : copyChecks s =
    if ¬ (1 ≤ s.sArg 2 ∧ 1 ≤ s.sArg 3 ∧ 0 ≤ s.sArg 0 ∧ 0 ≤ s.sArg 1 ∧
        s.sArg 0 + s.sArg 2 ≤ h.width ∧ s.sArg 1 + s.sArg 3 ≤ h.height) then .error .invalidRegion
    else if h.fmt.bpp.toNat % 8 ≠ 0 then .error .unsupportedFeature
    else if ¬ ((s.sArg 2).toNat * (h.fmt.bpp.toNat / 8) ≤ s.u 5 ∧ s.u 5 * (s.sArg 3).toNat ≤ s.u 6) then
      .error .bufferTooSmall
    else if ¬ s.u 4 + s.u 6 ≤ addrSpace then .error .badAddress
    else if 0 < s.u 6 ∧ 0 < s.rdr.len.toNat ∧ s.u 4 < s.rdr.base.toNat + s.rdr.len.toNat ∧
        s.rdr.base.toNat < s.u 4 + s.u 6 then .error .badAddress
    else .ok ⟨h, copyRect s, s.spansOperand h.fmt⟩ := by
  simp only [copyChecks, hh, validRect_iff, rangeOk_iff, overlap_iff, not_and_or, Nat.not_le]
  rfl

theorem exec_copyRegion_of_check {s : State} {e : Error} (hc : copyChecks s = .error e) :
    exec .copyRegion s = .next (completed s (some e)) :=
  exec_of_raise (performCopyRegion_of_check hc)

/-- Settles O32: without a session there is no header to check against, and each later clause is one branch of
`copyChecks_eq`. -/
theorem copyRegionChecksInOrder : Obligations.CopyRegionChecksInOrder := by
  refine ⟨fun s hclosed => exec_copyRegion_of_check ?_, fun s h hh => ?_⟩
  · simp only [copyChecks, Session.header?_eq_none.mpr hclosed]
  · intro valid whole large inSpace overlaps
    have hchecks := copyChecks_eq hh
    refine ⟨fun hv => ?_, fun hv hw => ?_, fun hv hw hl => ?_, fun hv hw hl hs => ?_, fun hv hw hl hs ho => ?_⟩ <;>
      apply exec_copyRegion_of_check
    · rw [hchecks, if_pos hv]
    · rw [hchecks, if_neg (not_not.mpr hv), if_pos hw]
    · rw [hchecks, if_neg (not_not.mpr hv), if_neg (not_not.mpr hw), if_pos hl]
    · rw [hchecks, if_neg (not_not.mpr hv), if_neg (not_not.mpr hw), if_neg (not_not.mpr hl), if_pos hs]
    · rw [hchecks, if_neg (not_not.mpr hv), if_neg (not_not.mpr hw), if_neg (not_not.mpr hl),
        if_neg (not_not.mpr hs), if_pos ho]

end Sys2Proof.Machine
end

section
/-! SUPPORT. A table offered for the registry, taken in or refused (60_exceptions.md R362). -/

namespace Sys2Proof.Machine

theorem admitRow_of_lawful {d : Descriptor} (h : descriptorOk d = true) : admitRow d = .ok ⟨d, h⟩ := dif_pos h

theorem admitRow_of_unlawful {d : Descriptor} (h : descriptorOk d = false) : admitRow d = .error .illFormedConfig :=
  dif_neg (by rw [h]; decide)

/-- One row that breaks a law refuses the table, wherever it stands (60_exceptions.md R362). -/
theorem admitRows_of_unlawful {rows : List (Guid × Descriptor)} (h : ∃ r ∈ rows, descriptorOk r.2 = false) :
    admitRows rows = .error .illFormedConfig := by
  induction rows with
  | nil => simp at h
  | cons row rows ih =>
    obtain ⟨g, d⟩ := row
    cases hd : descriptorOk d with
    | false => simp only [admitRows, admitRow_of_unlawful hd]
    | true =>
      have hrows : admitRows rows = .error .illFormedConfig := ih (by simpa [hd] using h)
      simp only [admitRows, admitRow_of_lawful hd, hrows]

/-- A table of lawful rows is taken in, and gives the first row of each GUID (60_exceptions.md R362; log 6). -/
theorem admitRows_of_lawful {rows : List (Guid × Descriptor)} (h : ∀ r ∈ rows, descriptorOk r.2 = true) :
    ∃ table, admitRows rows = .ok table ∧
      ∀ g, (table g).map Subtype.val = (rows.find? fun r => r.1 == g).map Prod.snd := by
  induction rows with
  | nil => exact ⟨_, rfl, fun _ => rfl⟩
  | cons row rows ih =>
    obtain ⟨g, d⟩ := row
    obtain ⟨hd, hrest⟩ := List.forall_mem_cons.mp h
    obtain ⟨table, hrows, htable⟩ := ih hrest
    refine ⟨fun x => if x = g then some ⟨d, hd⟩ else table x,
      by simp only [admitRows, admitRow_of_lawful hd, hrows], fun x => ?_⟩
    by_cases hx : x = g
    · simp [hx]
    · simp [hx, Ne.symm hx, htable]

/-- The registry at any GUID but the fixed row's (42_pixel_format_registry.md R200, R205). -/
theorem registry_of_ne {c : Config} {g : Guid} (h : g ≠ c.scenarioGuid) :
    registry c g = (c.registryRow g).map Subtype.val := if_neg h

/-- Settles O46: `withRegistry` answers as `admitRows` does, and the registry reads the table it took in. -/
theorem illFormedRegistriesAreRefused : Obligations.IllFormedRegistriesAreRefused := by
  refine fun c rows => ⟨fun hbad => ?_, fun hgood => ?_⟩
  · simp only [withRegistry, admitRows_of_unlawful hbad]
  · obtain ⟨table, hrows, htable⟩ := admitRows_of_lawful hgood
    exact ⟨{ c with registryRow := table }, by simp only [withRegistry, hrows], rfl,
      fun g hg => (registry_of_ne (c := { c with registryRow := table }) hg).trans (htable g)⟩

end Sys2Proof.Machine
end

section
/-! SUPPORT. The reset input (70_reset_and_hazards.md R390-R392). -/

namespace Sys2Proof.Machine

theorem step_reset {s : State} {es : List HostEvent} (h : s.host = .reset :: es) :
    step s = .next ({ s with host := es }.resetInput Config.chip) :=
  step_hostEvent h nofun nofun

/-- The abandoned command leaves the host's own state as it was (70_reset_and_hazards.md R392; log 19). -/
theorem abandonCopy_keeps_host (c : Config) (s : State) :
    (s.abandonCopy c).host = s.host ∧ (s.abandonCopy c).busData = s.busData := by
  rcases abandonCopy_cases c s with h | ⟨_, _, _, _, h⟩ <;> rw [h] <;> exact ⟨rfl, rfl⟩

/-- The block's state after reset is the table of R391; memory and the count of draws are `resetInput`'s. -/
theorem resetInput_eq (c : Config) (s : State) : s.resetInput c = { State.reset with
    mem := (s.resetInput c).mem, draws := (s.resetInput c).draws, host := s.host, busData := s.busData } := by
  obtain ⟨hhost, hbus⟩ := abandonCopy_keeps_host c s
  rw [← hhost, ← hbus]
  rfl

theorem abandonCopy_of_idle {s : State} (hv : s.latch.valid = false) (c : Config) : s.abandonCopy c = s := by
  rcases abandonCopy_cases c s with h | ⟨_, hbusy, _⟩
  · exact h
  · cases hv.symm.trans hbusy

/-- An idle block with nothing contested has no output of its own left to draw (70_reset_and_hazards.md R391). -/
theorem resetInput_of_idle {s : State} (hv : s.latch.valid = false) (hc : s.contested = []) (c : Config) :
    s.resetInput c = { State.reset with mem := s.mem, draws := s.draws, host := s.host, busData := s.busData } := by
  simp only [State.resetInput, abandonCopy_of_idle hv, State.drawContested_of_nil hc]

/-- The abandoned command changes no byte outside the row spans of a COPY_REGION past its checks
(70_reset_and_hazards.md R392). -/
theorem abandonCopy_read_other (c : Config) {s : State} {a : Nat}
    (ha : ∀ h, s.latch.valid = true → decodeWord s.latch.word = .ok .copyRegion → CopyReaches h s → ¬ CopySpan h s a) :
    (s.abandonCopy c).mem.read a = s.mem.read a := by
  rcases abandonCopy_cases c s with h | ⟨h, hv, hd, hr, hspans⟩
  · rw [h]
  · rw [hspans]
    exact Memory.read_writeAll_other fun _ hx he => ha h hv hd hr (he ▸ anyCells_span hx)

theorem resetInput_read_other (c : Config) {s : State} {a : Nat} (hc : ¬ Contested s a)
    (ha : ∀ h, s.latch.valid = true → decodeWord s.latch.word = .ok .copyRegion → CopyReaches h s → ¬ CopySpan h s a) :
    (s.resetInput c).mem.read a = s.mem.read a :=
  (drawContested_read (s.abandonCopy c) c (mt (contested_abandonCopy c s a).mp hc)).trans (abandonCopy_read_other c ha)

/-- Settles O12: the reset input's state is R391's table (`resetInput_eq`), and its two writes to memory, of row spans
and of contested bytes, reach no other byte (`resetInput_read_other`). -/
theorem resetInputAbandonsTheCommand : Obligations.ResetInputAbandonsTheCommand := by
  intro s es h
  exact ⟨_, step_reset h, resetInput_eq Config.chip { s with host := es },
    fun _ hc ha => resetInput_read_other Config.chip (s := { s with host := es }) hc ha⟩

/-- Settles O11: the table is `State.reset` field by field, and an idle block has nothing to abandon
(`resetInput_of_idle`). -/
theorem resetLeavesTheValuesOfTheSpec : Obligations.ResetLeavesTheValuesOfTheSpec := by
  refine ⟨by decide, fun s es h hv hc => ?_⟩
  rw [step_reset h, resetInput_of_idle (s := { s with host := es }) hv hc]

end Sys2Proof.Machine
end
